-- ==== Sys2Proof/Word.lean ====
section
/-! DEFINITION. The word types of HUFCORE, each at the width the spec gives it (00_scope.md R6, R10). -/

namespace Sys2Proof

/-- A register, a command word or a bus word: `BUS_DATA_WIDTH` = 32 bits (R6, R22, R100). -/
abbrev Word := BitVec 32

/-- An input byte, an output byte (R49, R80). -/
abbrev Byte := BitVec 8

/-- A symbol operand SYM, `w[8:0]`: 0..511, of which 0..256 are symbols (R102, R103). -/
abbrev Sym := BitVec 9

/-- A node identifier, `NODE_ID_WIDTH` = 10 bits (R6, R41). -/
abbrev NodeId := BitVec 10

/-- A node weight: `WEIGHT_WIDTH` = `FREQ_WIDTH + 9` bits, 41 for HUFCORE (R6, R7).
For a narrower `FREQ_WIDTH` the bits above `WEIGHT_WIDTH` are 0 (log 5). -/
abbrev Weight := BitVec 41

/-- A byte offset of the register space: `BUS_ADDR_WIDTH` = 8 bits (R6, R70). -/
abbrev Offset := BitVec 8

end Sys2Proof
end

