-- ==== Sys2Proof/Syntax.lean ====
section
/-! DEFINITION. The command set: one constructor per row of spec/opcode_table.json, with the fields of
its operand format (30_encoding.md R101, R102, R104). -/

namespace Sys2Proof

/-- HUFCORE command set version 1 (R2, R104). Every field has the width the operand format gives it. -/
inductive Instr where
  /-- NOP, format N (R130). -/
  | nop
  /-- CLR, format N (R131). -/
  | clr
  /-- COUNT, format B: BYTE = `w[7:0]` (R141). -/
  | count (byte : Byte)
  /-- LOAD_FREQ, format N (R142). -/
  | loadFreq
  /-- READ_FREQ, format S: SYM = `w[8:0]` (R143). -/
  | readFreq (sym : Sym)
  /-- BUILD_TREE, format N (R161). -/
  | buildTree
  /-- READ_NODE, format NS: NODE = `w[9:0]`, SEL = `w[17:16]` (R165). -/
  | readNode (node : NodeId) (sel : BitVec 2)
  /-- GEN_CODES, format N (R181). -/
  | genCodes
  /-- READ_CODE_LEN, format S: SYM = `w[8:0]` (R184). -/
  | readCodeLen (sym : Sym)
  /-- READ_CODE_WORD, format SW: SYM = `w[8:0]`, WSEL = `w[18:16]` (R185). -/
  | readCodeWord (sym : Sym) (wsel : BitVec 3)
  /-- ENC_BYTE, format B: BYTE = `w[7:0]` (R203). -/
  | encByte (byte : Byte)
  /-- ENC_END, format N (R204). -/
  | encEnd
  /-- DEC_FEED, format B: BYTE = `w[7:0]` (R222). -/
  | decFeed (byte : Byte)
  /-- DEC_EOI, format N (R225). -/
  | decEoi
deriving DecidableEq, Repr

namespace Instr

/-- The mnemonic of a command, as the opcode table spells it (R104, R112). -/
def mnemonic : Instr → String
  | nop => "NOP"
  | clr => "CLR"
  | count _ => "COUNT"
  | loadFreq => "LOAD_FREQ"
  | readFreq _ => "READ_FREQ"
  | buildTree => "BUILD_TREE"
  | readNode _ _ => "READ_NODE"
  | genCodes => "GEN_CODES"
  | readCodeLen _ => "READ_CODE_LEN"
  | readCodeWord _ _ => "READ_CODE_WORD"
  | encByte _ => "ENC_BYTE"
  | encEnd => "ENC_END"
  | decFeed _ => "DEC_FEED"
  | decEoi => "DEC_EOI"

/-- The operand fields of a command in the order the assembler syntax writes them (R112). -/
def fields : Instr → List Nat
  | nop => []
  | clr => []
  | count b => [b.toNat]
  | loadFreq => []
  | readFreq s => [s.toNat]
  | buildTree => []
  | readNode n sel => [n.toNat, sel.toNat]
  | genCodes => []
  | readCodeLen s => [s.toNat]
  | readCodeWord s k => [s.toNat, k.toNat]
  | encByte b => [b.toNat]
  | encEnd => []
  | decFeed b => [b.toNat]
  | decEoi => []

/-- The assembler line of a command: the mnemonic, then its fields in decimal, separated by commas (R112). -/
def asm (i : Instr) : String :=
  match i.fields with
  | [] => i.mnemonic
  | fs => i.mnemonic ++ " " ++ ", ".intercalate (fs.map Nat.repr)

end Instr

end Sys2Proof
end

