-- ==== Sys2Proof/WellFormed.lean ====
section
/-! DEFINITION. When a command's fields are in range (30_encoding.md R103). -/

namespace Sys2Proof

/-- A symbol operand names a symbol: `SYM ≤ 256` (R103). -/
def Sym.inRange (s : Sym) : Bool := decide (s.toNat ≤ 256)

/-- A node operand names a node: `NODE ≤ 512` (R103). -/
def NodeId.inRange (n : NodeId) : Bool := decide (n.toNat ≤ 512)

/-- A word selector of READ_NODE: `SEL ≤ 2` (R103). -/
def selInRange (sel : BitVec 2) : Bool := decide (sel.toNat ≤ 2)

/-- Every field of the command is in the range R103 gives it. BYTE and WSEL have no illegal values. -/
def Instr.wellFormed : Instr → Bool
  | .nop => true
  | .clr => true
  | .count _ => true
  | .loadFreq => true
  | .readFreq s => Sym.inRange s
  | .buildTree => true
  | .readNode n sel => NodeId.inRange n && selInRange sel
  | .genCodes => true
  | .readCodeLen s => Sym.inRange s
  | .readCodeWord s _ => Sym.inRange s
  | .encByte _ => true
  | .encEnd => true
  | .decFeed _ => true
  | .decEoi => true

end Sys2Proof
end

