-- ==== Sys2Proof/Decode.lean ====
section
/-! DEFINITION. The decoder of command words, total on 32 bits and rejecting by name, and the encoder, both from the
opcode map and operand formats of 30_encoding.md (R100 to R106, R111). -/

namespace Sys2Proof

/-- The fourteen defined opcodes (R104). -/
inductive Opcode where
  | nop | clr | count | loadFreq | readFreq
  | buildTree | readNode
  | genCodes | readCodeLen | readCodeWord
  | encByte | encEnd
  | decFeed | decEoi
deriving DecidableEq, Repr

/-- The operand formats (R101). -/
inductive Format where
  | N | B | S | SW | NS
deriving DecidableEq, Repr

/-- Why a word is no command. The first is ILLEGAL_CMD (R105), the other two are BAD_OPERAND (R103, R106). -/
inductive Reject where
  /-- OPC is not one of the fourteen defined opcodes (R105). -/
  | illegalOpcode
  /-- A reserved operand bit is 1 (R106). -/
  | reservedBits
  /-- A field is outside its range (R103). -/
  | fieldRange
deriving DecidableEq, Repr

/-- OPC = `w[31:24]` (R100). -/
def opcField (w : Word) : Byte := w.extractLsb' 24 8

/-- OPERAND = `w[23:0]` (R100). -/
def operandField (w : Word) : BitVec 24 := w.extractLsb' 0 24

/-- BYTE = `w[7:0]` (R101). -/
def byteField (w : Word) : Byte := w.extractLsb' 0 8

/-- SYM = `w[8:0]` (R101). -/
def symField (w : Word) : Sym := w.extractLsb' 0 9

/-- WSEL = `w[18:16]` (R101). -/
def wselField (w : Word) : BitVec 3 := w.extractLsb' 16 3

/-- NODE = `w[9:0]` (R101). -/
def nodeField (w : Word) : NodeId := w.extractLsb' 0 10

/-- SEL = `w[17:16]` (R101). -/
def selField (w : Word) : BitVec 2 := w.extractLsb' 16 2

/-- The OPC value of an opcode (R104). -/
def opcByte : Opcode → Byte
  | .nop => 0x00#8
  | .clr => 0x01#8
  | .count => 0x02#8
  | .loadFreq => 0x03#8
  | .readFreq => 0x04#8
  | .buildTree => 0x10#8
  | .readNode => 0x11#8
  | .genCodes => 0x20#8
  | .readCodeLen => 0x21#8
  | .readCodeWord => 0x22#8
  | .encByte => 0x30#8
  | .encEnd => 0x31#8
  | .decFeed => 0x40#8
  | .decEoi => 0x41#8

/-- The opcode map read backwards: the opcode of an OPC value, none for a value R104 does not list (R105). -/
def opcodeOf (b : Byte) : Option Opcode :=
  if b = 0x00#8 then some .nop
  else if b = 0x01#8 then some .clr
  else if b = 0x02#8 then some .count
  else if b = 0x03#8 then some .loadFreq
  else if b = 0x04#8 then some .readFreq
  else if b = 0x10#8 then some .buildTree
  else if b = 0x11#8 then some .readNode
  else if b = 0x20#8 then some .genCodes
  else if b = 0x21#8 then some .readCodeLen
  else if b = 0x22#8 then some .readCodeWord
  else if b = 0x30#8 then some .encByte
  else if b = 0x31#8 then some .encEnd
  else if b = 0x40#8 then some .decFeed
  else if b = 0x41#8 then some .decEoi
  else none

/-- The operand format of an opcode (R101, R104). -/
def formatOf : Opcode → Format
  | .nop => .N
  | .clr => .N
  | .count => .B
  | .loadFreq => .N
  | .readFreq => .S
  | .buildTree => .N
  | .readNode => .NS
  | .genCodes => .N
  | .readCodeLen => .S
  | .readCodeWord => .SW
  | .encByte => .B
  | .encEnd => .N
  | .decFeed => .B
  | .decEoi => .N

/-- RZ: the OPERAND bits that must be 0 (R101, R106). -/
def rzMask : Format → BitVec 24
  | .N => 0xFFFFFF#24
  | .B => 0xFFFF00#24
  | .S => 0xFFFE00#24
  | .SW => 0xF8FE00#24
  | .NS => 0xFCFC00#24

/-- Operand assembly: the command an opcode and the fields of a word make (R102). -/
def assemble (op : Opcode) (w : Word) : Instr :=
  match op with
  | .nop => .nop
  | .clr => .clr
  | .count => .count (byteField w)
  | .loadFreq => .loadFreq
  | .readFreq => .readFreq (symField w)
  | .buildTree => .buildTree
  | .readNode => .readNode (nodeField w) (selField w)
  | .genCodes => .genCodes
  | .readCodeLen => .readCodeLen (symField w)
  | .readCodeWord => .readCodeWord (symField w) (wselField w)
  | .encByte => .encByte (byteField w)
  | .encEnd => .encEnd
  | .decFeed => .decFeed (byteField w)
  | .decEoi => .decEoi

/-- The decoder: the opcode, then the reserved bits, then the field ranges, in the check order of R111. -/
def decode (w : Word) : Except Reject Instr :=
  match opcodeOf (opcField w) with
  | none => .error .illegalOpcode
  | some op =>
    if operandField w &&& rzMask (formatOf op) ≠ 0#24 then .error .reservedBits
    else if (assemble op w).wellFormed then .ok (assemble op w)
    else .error .fieldRange

/-- The encoder: each command's word, laid out as the row's "encoding" in the opcode table (R101, R112). -/
def encode : Instr → Word
  | .nop => 0x00#8 ++ 0#24
  | .clr => 0x01#8 ++ 0#24
  | .count b => 0x02#8 ++ 0#16 ++ b
  | .loadFreq => 0x03#8 ++ 0#24
  | .readFreq s => 0x04#8 ++ 0#15 ++ s
  | .buildTree => 0x10#8 ++ 0#24
  | .readNode n sel => 0x11#8 ++ 0#6 ++ sel ++ 0#6 ++ n
  | .genCodes => 0x20#8 ++ 0#24
  | .readCodeLen s => 0x21#8 ++ 0#15 ++ s
  | .readCodeWord s k => 0x22#8 ++ 0#5 ++ k ++ 0#7 ++ s
  | .encByte b => 0x30#8 ++ 0#16 ++ b
  | .encEnd => 0x31#8 ++ 0#24
  | .decFeed b => 0x40#8 ++ 0#16 ++ b
  | .decEoi => 0x41#8 ++ 0#24

/-- The instruction the decoder reads from the bits `w` of an opcode-table row of `nbits` bits: a command is one
32-bit word written whole (R24, R100), so the bits above `nbits` are 0 and there is no byte order (R72). -/
def decodeTableWord (nbits w : Nat) : Option Instr :=
  match decode (BitVec.ofNat 32 (w % 2 ^ nbits)) with
  | .ok i => some i
  | .error _ => none

end Sys2Proof
end

