-- ==== Sys2Proof/Config.lean ====
section
/-! DEFINITION. What an implementation of HUFCORE fixes (00_scope.md R6) and the free values: what the spec
leaves open (93_implementation_defined.md) or has no entry for. -/

namespace Sys2Proof

/-- The two open parameters of the spec (R6; decisions D6, D23; X20). Every other width is fixed. -/
structure Config where
  /-- `FREQ_WIDTH`: the width of one frequency-table entry, 1..32; 32 for HUFCORE. -/
  freqWidth : Nat
  /-- `OUT_DEPTH`: the capacity of the output FIFO in bytes, at least 33 (R9); 64 for HUFCORE. -/
  outDepth : Nat
deriving DecidableEq, Repr

namespace Config

/-- The values HUFCORE takes (R6). -/
def hufcore : Config := ⟨32, 64⟩

/-- The parameters lie in the ranges R6 and R9 give them. -/
def ok (c : Config) : Bool :=
  decide (1 ≤ c.freqWidth) && decide (c.freqWidth ≤ 32) && decide (33 ≤ c.outDepth)

/-- `FREQ_MAX` = `2^FREQ_WIDTH - 1` (R6). -/
def freqMax (c : Config) : Nat := 2 ^ c.freqWidth - 1

end Config

/-- The two agents that take steps (R20). -/
inductive Agent where
  | host
  | engine
deriving DecidableEq, Repr, Inhabited

/-- One internal node of the tree, `Internal{W, LEFT, RIGHT}` (R41). -/
structure NodeEntry where
  weight : Weight
  left : NodeId
  right : NodeId
deriving DecidableEq, Repr, Inhabited

/-- One entry of the code table: a 9-bit LEN and a 256-bit BITS field (R43, D12). -/
structure CodeEntry where
  len : BitVec 9
  bits : BitVec 256
deriving DecidableEq, Repr, Inhabited

/-- FREE VALUE (X9, log 2): which agent moves when both have an enabled step. R20 fixes no order between host
steps and engine steps, so nothing is known of it. Drawn at the `n`-th such choice (`State.freeCount`). -/
opaque Config.firstAgent : Nat → Agent

/-- FREE VALUE (log 6): what reading a tree node at an id that no NODE entry has (0..256 or 513..1023) would give.
No run from reset reads one; nothing is known of it. -/
opaque Config.noNode : NodeId → NodeEntry

/-- FREE VALUE (X1, log 4): what the NODE memory holds after a hardware reset. R50 leaves it unspecified; nothing is
known of it. Drawn at the `n`-th draw (`State.freeCount`). -/
opaque Config.nodeAfterReset : Nat → Vector NodeEntry 256

/-- FREE VALUE (X2, log 4): what the CODE memory holds after a hardware reset. R50 leaves it unspecified; nothing is
known of it. Drawn at the `n`-th draw (`State.freeCount`). -/
opaque Config.codeAfterReset : Nat → Vector CodeEntry 257

end Sys2Proof
end

