-- ==== Sys2Proof/Machine/State.lean ====
section
/-! DEFINITION. The state of HUFCORE (10_state.md), as plain data, and its value after reset (R50). -/

namespace Sys2Proof.Machine

open Sys2Proof

/-- PHASE, the engine's top-level state (R27). -/
inductive Phase where
  /-- 0: the frequency table is open for counting or header loading. -/
  | freq
  /-- 1: tree built, no codes yet. -/
  | tree
  /-- 2: codes generated, encoder not started. -/
  | codes
  /-- 3: the encoder has written at least one byte's code, writer open. -/
  | encoding
  /-- 4: the encoder has written the sentinel and closed the writer. -/
  | closed
  /-- 5: the decoder has taken at least one input byte and has not reached the sentinel. -/
  | decoding
  /-- 6: the decoder has reached the sentinel leaf. -/
  | done
  /-- 7: an error was raised; only CLR and reset leave this phase (R247, R248). -/
  | error
deriving DecidableEq, Repr

/-- ERR_CODE.CODE (R240). The codes 10..15 are never produced (X11). -/
inductive ErrKind where
  | none
  | illegalCmd
  | badOperand
  | sequence
  | writeAfterClose
  | headerCorrupt
  | freqOverflow
  | symbolNotInTree
  | invalidCode
  | truncatedStream
deriving DecidableEq, Repr

/-- One entry `(key, seq, id)` of the tree builder's priority queue (R44, R161). -/
structure QEntry where
  key : Weight
  /-- The insertion number, at most 512 (R162). -/
  seq : Nat
  id : NodeId
deriving DecidableEq, Repr

/-- What the outside world does to the block: the host's register-bus accesses (R70) and the reset input (R270). -/
inductive Input where
  /-- `BusRead(off)`. -/
  | read (off : Offset)
  /-- `BusWrite(off, v)`. -/
  | write (off : Offset) (v : Word)
  /-- The pop loop of the host's DRAIN: OUT_DATA reads repeated until one returns VALID = 0 (R113). -/
  | popAll
  /-- The reset input is asserted (R270). -/
  | reset
deriving DecidableEq, Repr

/-- Every piece of state the spec gives the machine (R50), then the model's own fields. -/
structure State where
  /-- The parameters of the implementation (R6); no step changes them. -/
  cfg : Config
  /-- PEND: the pending command word (R39). -/
  pend : Option Word
  /-- ARG (R25). -/
  arg : Word
  /-- IRQ_EN: bit 0 ERR_IE, bit 1 END_IE, bit 2 OUT_IE (R36). -/
  irqEn : BitVec 3
  /-- RESULT (R26). -/
  result : Word
  /-- PHASE (R27). -/
  phase : Phase
  /-- ERR_CODE.CODE (R29, R240). -/
  errKind : ErrKind
  /-- ERR_CODE.PREV_PHASE (R29). -/
  prevPhase : Phase
  /-- ERR_CMD (R30). -/
  errCmd : Word
  /-- FREQ[0..256] (R40). -/
  freq : Vector Word 257
  /-- HDR_CNT (R47). -/
  hdrCnt : BitVec 9
  /-- TREE_VALID (R42). -/
  treeValid : Bool
  /-- CODES_VALID (R42). -/
  codesValid : Bool
  /-- ROOT (R42). -/
  root : NodeId
  /-- LEAVES (R42). -/
  leaves : BitVec 9
  /-- NODE[257..512], node `n` at index `n - 257` (R41). -/
  node : Vector NodeEntry 256
  /-- CODE[0..256] (R43). -/
  code : Vector CodeEntry 257
  /-- The priority queue of the tree builder, empty between commands (R44). -/
  pq : List QEntry
  /-- WBUF (R45). -/
  wbuf : BitVec 7
  /-- WCNT (R45). -/
  wcnt : BitVec 3
  /-- DNODE (R46). -/
  dnode : NodeId
  /-- ENC_BITS (R34). -/
  encBits : Word
  /-- DEC_BYTES (R34). -/
  decBytes : Word
  /-- TRAILING (R48). -/
  trailing : Bool
  /-- OUT, the output FIFO, head first (R49). -/
  out : List Byte
  /-- MODEL'S OWN: what the outside world will do, in the order it completes (log 1). -/
  inputs : List Input
  /-- MODEL'S OWN: the words `BusRead` has returned to the host, oldest first (log 1). -/
  hostReads : List Word
  /-- MODEL'S OWN: the bytes the host has popped since the last CLR or reset, oldest first (R291, log 13). -/
  popped : List Byte
  /-- MODEL'S OWN: how many free values the steps have drawn (log 2). -/
  freeCount : Nat
deriving DecidableEq, Repr

/-- Why a step can stop. -/
inductive Fault where
  /-- SAFE (log 3). Raised by `step` alone, never by a command: a command is held for FIFO space and the host's next access
  is held behind it, so no agent has a step: the hang of R281 (X7). -/
  | hang
deriving DecidableEq, Repr

/-- Why the model gives no meaning. -/
inductive Refusal where
  /-- SAFE. Raised only by an arm of `exec` whose instruction has no meaning yet; no arm is left so. -/
  | notModelled (mnemonic : String)
deriving DecidableEq, Repr

namespace State

/-- The frequency table of an empty input: all 0 but FREQ[256] = 1 (R50, R271). -/
def emptyFreq : Vector Word 257 := (Vector.replicate 257 0#32).set 256 1#32

/-- The state after reset of an implementation with parameters `c` (R50). NODE and CODE, which R50 leaves unspecified,
hold zeros: DESIGN CHOICE (log 4). -/
def resetWith (c : Config) : State where
  cfg := c
  pend := none
  arg := 0#32
  irqEn := 0#3
  result := 0#32
  phase := .freq
  errKind := .none
  prevPhase := .freq
  errCmd := 0#32
  freq := emptyFreq
  hdrCnt := 0#9
  treeValid := false
  codesValid := false
  root := 0#10
  leaves := 0#9
  node := Vector.replicate 256 ⟨0#41, 0#10, 0#10⟩
  code := Vector.replicate 257 ⟨0#9, 0#256⟩
  pq := []
  wbuf := 0#7
  wcnt := 0#3
  dnode := 0#10
  encBits := 0#32
  decBytes := 0#32
  trailing := false
  out := []
  inputs := []
  hostReads := []
  popped := []
  freeCount := 0

/-- HUFCORE right after reset (R50, R271). -/
def reset : State := resetWith Config.hufcore

end State

end Sys2Proof.Machine
end

