-- ==== Sys2Proof/Machine/Ops.lean ====
section
/-! DEFINITION. The named operations every command shares: reads and writes of the internal memories (R40 to R43, R87),
the output FIFO (R80, R81), error entry and the leaving of phase ERROR (R245, R248), the hardware reset (R270), the
legality table (R110) and the check order (R111). -/

namespace Sys2Proof.Machine

open Sys2Proof

/-! ## The internal memories -/

/-- `FREQ[n]` (R40). There is no entry above 256; every caller has checked `SYM ≤ 256`. -/
def freqAt (s : State) (n : Nat) : Word := if h : n < 257 then s.freq[n] else 0#32

/-- `FREQ[n] <- v` (R40). -/
def setFreq (n : Nat) (v : Word) (s : State) : State :=
  { s with freq := if h : n < 257 then s.freq.set n v else s.freq }

/-- `NODE[n]` in a node memory: entry `n` for 257..512 (R41); no other id has an entry (log 6). -/
def nodeIn (m : Vector NodeEntry 256) (n : NodeId) : NodeEntry :=
  if h : 257 ≤ n.toNat ∧ n.toNat ≤ 512 then m[n.toNat - 257] else Config.noNode n

/-- `NODE[n]` (R41). -/
def nodeAt (s : State) (n : NodeId) : NodeEntry := nodeIn s.node n

/-- `NODE[n] <- e` in a node memory, for `n` in 257..512 (R41). -/
def setNodeIn (m : Vector NodeEntry 256) (n : Nat) (e : NodeEntry) : Vector NodeEntry 256 :=
  if h : n - 257 < 256 then m.set (n - 257) e else m

/-- The child of node `n` that a bit selects: "0 = left, 1 = right" (R11, R222). -/
def childAt (s : State) (n : NodeId) (bit : Bool) : NodeId :=
  if bit then (nodeAt s n).right else (nodeAt s n).left

/-- `CODE[n]` in a code memory (R43). There is no entry above 256; every caller has checked `SYM ≤ 256`. -/
def codeIn (m : Vector CodeEntry 257) (n : Nat) : CodeEntry := if h : n < 257 then m[n] else ⟨0#9, 0#256⟩

/-- `CODE[n]` (R43). -/
def codeAt (s : State) (n : Nat) : CodeEntry := codeIn s.code n

/-- `CODE[n] <- e` in a code memory (R43). -/
def setCodeIn (m : Vector CodeEntry 257) (n : Nat) (e : CodeEntry) : Vector CodeEntry 257 :=
  if h : n < 257 then m.set n e else m

/-! ## The output FIFO -/

/-- `push_out(b)`: append a byte at the tail of OUT (R80). -/
def pushOut (b : Byte) (s : State) : State := { s with out := s.out ++ [b] }

/-- Remove the head byte of OUT, which the host has then popped; nothing when it is empty (R81, R291). -/
def popOut (s : State) : State := { s with out := s.out.tail, popped := s.popped ++ s.out.take 1 }

/-! ## Error entry, and leaving phase ERROR -/

/-- `raise E(w)`: exactly these four writes, nothing else (R245). -/
def raise (e : ErrKind) (w : Word) (s : State) : State :=
  { s with errKind := e, prevPhase := s.phase, errCmd := w, phase := .error }

/-- What CLR does, the only command that leaves phase ERROR (R131, R248, R50). ARG, IRQ_EN, NODE and CODE stay. It starts a new
operation, for which nothing has been popped (R291, log 13). -/
def clear (s : State) : State :=
  { s with
    freq := State.emptyFreq
    hdrCnt := 0#9
    treeValid := false
    codesValid := false
    root := 0#10
    leaves := 0#9
    pq := []
    wbuf := 0#7
    wcnt := 0#3
    dnode := 0#10
    encBits := 0#32
    decBytes := 0#32
    trailing := false
    out := []
    popped := []
    result := 0#32
    errKind := .none
    prevPhase := .freq
    errCmd := 0#32
    phase := .freq }

/-- The hardware reset (R270): every piece of state at its "after reset" value of R50, PEND discarded without
executing it. NODE and CODE are left unspecified by R50 and are drawn free (X1, X2, log 4). What the outside world
still has to do, and what it has already read, are not the block's. -/
def hardReset (s : State) : State :=
  { State.resetWith s.cfg with
    node := Config.nodeAfterReset s.freeCount
    code := Config.codeAfterReset s.freeCount
    inputs := s.inputs
    hostReads := s.hostReads
    freeCount := s.freeCount + 1 }

/-! ## Legality and the check order -/

/-- An entry of the legality table (R110). -/
inductive Legality where
  | ok
  /-- SEQ: raises SEQUENCE. -/
  | seq
  /-- WAC: raises WRITE_AFTER_CLOSE. -/
  | wac
deriving DecidableEq, Repr

/-- Legal in every phase (rows NOP, CLR, READ_FREQ of R110). -/
def legalAlways (_ : Phase) : Legality := .ok

/-- Legal in phase FREQ only (rows COUNT, LOAD_FREQ, BUILD_TREE of R110). -/
def legalInFreq : Phase → Legality
  | .freq => .ok
  | .tree | .codes | .encoding | .closed | .decoding | .done | .error => .seq

/-- Legal in every phase but FREQ (row READ_NODE of R110). -/
def legalAfterBuild : Phase → Legality
  | .freq => .seq
  | .tree | .codes | .encoding | .closed | .decoding | .done | .error => .ok

/-- Legal in phase TREE only (row GEN_CODES of R110). -/
def legalInTree : Phase → Legality
  | .tree => .ok
  | .freq | .codes | .encoding | .closed | .decoding | .done | .error => .seq

/-- Legal while CODES_VALID = 1 (rows READ_CODE_LEN, READ_CODE_WORD of R110). -/
def legalWithCodes (codesValid : Bool) : Legality := if codesValid then .ok else .seq

/-- Rows ENC_BYTE and ENC_END of R110. -/
def legalForEncoder : Phase → Legality
  | .codes | .encoding => .ok
  | .closed => .wac
  | .freq | .tree | .decoding | .done | .error => .seq

/-- Rows DEC_FEED and DEC_EOI of R110: the phases in which the command's own rule runs (its entries "discard" and
TRUNCATED_STREAM are that rule's). -/
def legalForDecoder : Phase → Legality
  | .tree | .codes | .decoding | .done => .ok
  | .freq | .encoding | .closed | .error => .seq

/-- The legality table (R110). Phase ERROR is not one of its columns: R111 handles it first. -/
def legality (i : Instr) (s : State) : Legality :=
  match i with
  | .nop => legalAlways s.phase
  | .clr => legalAlways s.phase
  | .count _ => legalInFreq s.phase
  | .loadFreq => legalInFreq s.phase
  | .readFreq _ => legalAlways s.phase
  | .buildTree => legalInFreq s.phase
  | .readNode _ _ => legalAfterBuild s.phase
  | .genCodes => legalInTree s.phase
  | .readCodeLen _ => legalWithCodes s.codesValid
  | .readCodeWord _ _ => legalWithCodes s.codesValid
  | .encByte _ => legalForEncoder s.phase
  | .encEnd => legalForEncoder s.phase
  | .decFeed _ => legalForDecoder s.phase
  | .decEoi => legalForDecoder s.phase

/-- The check order of R111 for a decoded command, around its own rule `body`: in phase ERROR no effect; then the
field ranges (BAD_OPERAND); then the phase (SEQUENCE, WRITE_AFTER_CLOSE); then `body`, whose own checks come next. The
word an error records is the command's one legal word (R106). -/
def command (i : Instr) (s : State) (body : State → State) : State :=
  if s.phase = .error then s
  else if i.wellFormed = false then raise .badOperand (encode i) s
  else
    match legality i s with
    | .seq => raise .sequence (encode i) s
    | .wac => raise .writeAfterClose (encode i) s
    | .ok => body s

end Sys2Proof.Machine
end

