-- ==== Sys2Proof/Machine/Flags.lean ====
section
/-! DEFINITION. Codes of the phases and errors, the interrupt output (R250), and the words the introspection registers
read as, each computed from the state at the moment of the read (R27 to R34, R240). -/

namespace Sys2Proof.Machine

open Sys2Proof

/-- The value of a phase (R27). -/
def phaseCode : Phase → BitVec 3
  | .freq => 0#3
  | .tree => 1#3
  | .codes => 2#3
  | .encoding => 3#3
  | .closed => 4#3
  | .decoding => 5#3
  | .done => 6#3
  | .error => 7#3

/-- The value of an error code (R240). -/
def errCode : ErrKind → BitVec 4
  | .none => 0#4
  | .illegalCmd => 1#4
  | .badOperand => 2#4
  | .sequence => 3#4
  | .writeAfterClose => 4#4
  | .headerCorrupt => 5#4
  | .freqOverflow => 6#4
  | .symbolNotInTree => 7#4
  | .invalidCode => 8#4
  | .truncatedStream => 9#4

/-- OUT_NONEMPTY: OUT_CNT > 0 (R28). -/
def outNonempty (s : State) : Bool := decide (0 < s.out.length)

/-- OUT_FULL: OUT_CNT = OUT_DEPTH (R28). -/
def outFull (s : State) : Bool := decide (s.out.length = s.cfg.outDepth)

/-- ERR: PHASE = ERROR (R28). -/
def errFlag (s : State) : Bool := decide (s.phase = .error)

/-- The operation has ended: PHASE is CLOSED or DONE (R250, R251). -/
def endFlag (s : State) : Bool := decide (s.phase = .closed) || decide (s.phase = .done)

/-- IRQ_EN.ERR_IE (R36). -/
def errIe (s : State) : Bool := s.irqEn.getLsbD 0

/-- IRQ_EN.END_IE (R36). -/
def endIe (s : State) : Bool := s.irqEn.getLsbD 1

/-- IRQ_EN.OUT_IE (R36). -/
def outIe (s : State) : Bool := s.irqEn.getLsbD 2

/-- The level of the irq output (R250). -/
def irq (s : State) : Bool :=
  (errIe s && errFlag s) || (endIe s && endFlag s) || (outIe s && outNonempty s)

/-- ID: `0x4855_4601` (R23). -/
def idWord : Word := 0x48554601#32

/-- STATUS (R28). -/
def statusWord (s : State) : Word :=
  0#7 ++ s.hdrCnt ++ 0#6 ++ BitVec.ofBool (irq s) ++ BitVec.ofBool (errFlag s) ++ BitVec.ofBool s.trailing
    ++ BitVec.ofBool (outFull s) ++ BitVec.ofBool (outNonempty s) ++ BitVec.ofBool s.codesValid
    ++ BitVec.ofBool s.treeValid ++ phaseCode s.phase

/-- ERR_CODE (R29). -/
def errCodeWord (s : State) : Word := 0#21 ++ phaseCode s.prevPhase ++ 0#4 ++ errCode s.errKind

/-- TREE, 0 while TREE_VALID = 0 (R31). -/
def treeWord (s : State) : Word := if s.treeValid then 0#7 ++ s.leaves ++ 0#6 ++ s.root else 0#32

/-- WRITER (R32). -/
def writerWord (s : State) : Word := 0#21 ++ s.wcnt ++ 0#1 ++ s.wbuf

/-- DECODER (R33). -/
def decoderWord (s : State) : Word := 0#22 ++ s.dnode

/-- What an OUT_DATA read returns: `{23'b0, 1, head}`, or 0 when the FIFO is empty (R35, R81). -/
def outDataWord (s : State) : Word :=
  match s.out with
  | [] => 0#32
  | b :: _ => 0#23 ++ 1#1 ++ b

end Sys2Proof.Machine
end

