-- ==== Sys2Proof/Machine/Bus.lean ====
section
/-! DEFINITION. The register space: offset decode, the reads and writes of every register, and the hold rule
(10_state.md R22 to R38; 20_memory.md R70 to R74, R81, R88). -/

namespace Sys2Proof.Machine

open Sys2Proof

/-- The registers of the map (R22). -/
inductive Reg where
  | id | cmd | arg | result | status | errCode | errCmd | tree | writer | decoder | encBits | decBytes | outData | irqEn
deriving DecidableEq, Repr

/-- The byte offset of a register (R22). -/
def regOffset : Reg → Offset
  | .id => 0x00#8
  | .cmd => 0x04#8
  | .arg => 0x08#8
  | .result => 0x0C#8
  | .status => 0x10#8
  | .errCode => 0x14#8
  | .errCmd => 0x18#8
  | .tree => 0x1C#8
  | .writer => 0x20#8
  | .decoder => 0x24#8
  | .encBits => 0x28#8
  | .decBytes => 0x2C#8
  | .outData => 0x30#8
  | .irqEn => 0x34#8

/-- The register a word-aligned offset holds; 0x38 to 0xFC hold none (R22, R37). -/
def regOfWord (k : BitVec 6) : Option Reg :=
  if k = 0x00#6 then some .id
  else if k = 0x01#6 then some .cmd
  else if k = 0x02#6 then some .arg
  else if k = 0x03#6 then some .result
  else if k = 0x04#6 then some .status
  else if k = 0x05#6 then some .errCode
  else if k = 0x06#6 then some .errCmd
  else if k = 0x07#6 then some .tree
  else if k = 0x08#6 then some .writer
  else if k = 0x09#6 then some .decoder
  else if k = 0x0A#6 then some .encBits
  else if k = 0x0B#6 then some .decBytes
  else if k = 0x0C#6 then some .outData
  else if k = 0x0D#6 then some .irqEn
  else none

/-- Address decode: `off[7:2]` selects the register, `off[1:0]` is ignored (R71). -/
def regAt (off : Offset) : Option Reg := regOfWord (off.extractLsb' 2 6)

/-- The word a read of a register returns (R22 to R36). -/
def regWord (r : Reg) (s : State) : Word :=
  match r with
  | .id => idWord
  | .cmd => 0#32
  | .arg => s.arg
  | .result => s.result
  | .status => statusWord s
  | .errCode => errCodeWord s
  | .errCmd => s.errCmd
  | .tree => treeWord s
  | .writer => writerWord s
  | .decoder => decoderWord s
  | .encBits => s.encBits
  | .decBytes => s.decBytes
  | .outData => outDataWord s
  | .irqEn => 0#29 ++ s.irqEn

/-- The word `BusRead(off)` returns; an offset without a register reads 0 (R37). -/
def busWord (off : Offset) (s : State) : Word :=
  match regAt off with
  | none => 0#32
  | some r => regWord r s

/-- The state after `BusRead(off)`: only a read of OUT_DATA has an effect, it pops the FIFO (R81, R88). -/
def busRead (off : Offset) (s : State) : State := if regAt off = some .outData then popOut s else s

/-- `BusWrite(off, v)`: CMD, ARG and IRQ_EN store, every other write is ignored (R24, R25, R36, R37, R38). -/
def busWrite (off : Offset) (v : Word) (s : State) : State :=
  match regAt off with
  | some .cmd => { s with pend := some v }
  | some .arg => { s with arg := v }
  | some .irqEn => { s with irqEn := v.extractLsb' 0 3 }
  | some .id | some .result | some .status | some .errCode | some .errCmd | some .tree | some .writer
  | some .decoder | some .encBits | some .decBytes | some .outData | none => s

/-- The hold rule: while a command is pending only a read of OUT_DATA completes (R73). The reset input is no bus access
and is never held (R270). -/
def inputEnabled (i : Input) (pend : Option Word) : Bool :=
  match i with
  | .read off => pend.isNone || decide (regAt off = some .outData)
  | .write _ _ => pend.isNone
  | .popAll => true
  | .reset => true

/-- What one input does to the block and to the words the host has read (R74, R81, R113, R270). -/
def applyInput (i : Input) (s : State) : State :=
  match i with
  | .read off => { busRead off s with hostReads := s.hostReads ++ [busWord off s] }
  | .write off v => busWrite off v s
  | .popAll => { busRead (regOffset .outData) s with hostReads := s.hostReads ++ [outDataWord s] }
  | .reset => hardReset s

/-- What is left of the outside world's list after its first input has taken its step: a DRAIN's pop loop goes on
while the read before returned VALID = 1 (R113). -/
def inputsAfter (i : Input) (rest : List Input) (s : State) : List Input :=
  match i with
  | .read _ => rest
  | .write _ _ => rest
  | .popAll => if outNonempty s then .popAll :: rest else rest
  | .reset => rest

/-- The host's step, or the reset step: the first input completes (R20, R73, R74). -/
def hostStep (s : State) : State :=
  match s.inputs with
  | [] => s
  | i :: rest => { applyInput i s with inputs := inputsAfter i rest s }

/-- An input waits and is not held (R73). -/
def hostReady (s : State) : Bool :=
  match s.inputs with
  | [] => false
  | i :: _ => inputEnabled i s.pend

end Sys2Proof.Machine
end

