-- ==== Sys2Proof/Machine/Operands.lean ====
section
/-! DEFINITION. What a command's operand fields select (R102), codes as bit sequences and as code-table entries (R11, R43),
and the words the READ commands answer with (R165, R185). -/

namespace Sys2Proof.Machine

open Sys2Proof

/-! ## Codes -/

/-- BITS of a code that continues at position `k`: `BITS[255 - k] = c_k`, every other bit 0 (R43). -/
def packFrom (k : Nat) : List Bool → BitVec 256
  | [] => 0#256
  | b :: bs => (if b && decide (k < 256) then BitVec.twoPow 256 (255 - k) else 0#256) ||| packFrom (k + 1) bs

/-- The code-table entry of a code (R43). -/
def codeOf (c : List Bool) : CodeEntry := ⟨BitVec.ofNat 9 c.length, packFrom 0 c⟩

/-- The `k`-th bit of a code-table entry: `c_k = BITS[255 - k]` (R43). -/
def codeBit (e : CodeEntry) (k : Nat) : Bool := decide (k < 256) && e.bits.getLsbD (255 - k)

/-- The code an entry holds, first bit first (R11, R43). -/
def codeBits (e : CodeEntry) : List Bool := (List.range e.len.toNat).map (codeBit e)

/-- The code of a symbol (R43). -/
def codeOfSym (s : State) (n : Nat) : List Bool := codeBits (codeAt s n)

/-- The 32 bits READ_CODE_WORD selects: `BITS[255 - 32*k : 224 - 32*k]` (R185). -/
def codeWord (e : CodeEntry) (k : BitVec 3) : Word := e.bits.extractLsb' (224 - 32 * k.toNat) 32

/-! ## Input bytes -/

/-- The bits of an input byte in the order they are served: `b[7], b[6], …, b[0]` (R84, R221). -/
def byteBits (b : Byte) : List Bool :=
  [b.getLsbD 7, b.getLsbD 6, b.getLsbD 5, b.getLsbD 4, b.getLsbD 3, b.getLsbD 2, b.getLsbD 1, b.getLsbD 0]

/-! ## Tree nodes -/

/-- Node ids 0..256 are the leaves (R41). -/
def isLeaf (n : NodeId) : Bool := decide (n.toNat ≤ 256)

/-- A node is present: a leaf of nonzero frequency, or one of the `LEAVES - 1` internal nodes made (R41, R165). -/
def present (s : State) (n : NodeId) : Bool :=
  (isLeaf n && decide (freqAt s n.toNat ≠ 0#32)) || (decide (257 ≤ n.toNat) && decide (n.toNat ≤ 255 + s.leaves.toNat))

/-- The weight of a node: a leaf's frequency, or the entry's W (R41, R165). -/
def weightOf (s : State) (n : NodeId) : Weight :=
  if isLeaf n then (freqAt s n.toNat).setWidth 41 else (nodeAt s n).weight

/-- The word READ_NODE answers with (R165): bit 31 PRESENT, bit 30 LEAF, then the symbol, or RIGHT in bits [25:16] and
LEFT in bits [9:0]; or the weight's low or high part. -/
def nodeWord (s : State) (n : NodeId) (sel : BitVec 2) : Word :=
  if present s n = false then 0#32
  else if sel = 0#2 then
    if isLeaf n then 1#1 ++ 1#1 ++ 0#21 ++ (n.setWidth 9 : BitVec 9)
    else 1#1 ++ 0#1 ++ 0#4 ++ (nodeAt s n).right ++ 0#6 ++ (nodeAt s n).left
  else if sel = 1#2 then (weightOf s n).extractLsb' 0 32
  else 0#23 ++ (weightOf s n).extractLsb' 32 9

end Sys2Proof.Machine
end

