-- ==== Sys2Proof/Machine/Code.lean ====
section
/-! DEFINITION. The code-table commands GEN_CODES, READ_CODE_LEN and READ_CODE_WORD (43_code_table.md). -/

namespace Sys2Proof.Machine

open Sys2Proof

/-- Every entry absent (R181). -/
def noCodes : Vector CodeEntry 257 := Vector.replicate 257 ⟨0#9, 0#256⟩

/-- `walk(n, p)`: depth-first, left before right; at a leaf the path is that leaf's code (R181). The first argument
bounds the depth: no path of a tree is longer than 256 (R8, log 7). -/
def walk (node : Vector NodeEntry 256) : Nat → NodeId → List Bool → Vector CodeEntry 257 → Vector CodeEntry 257
  | 0, n, p, c => if isLeaf n then setCodeIn c n.toNat (codeOf p) else c
  | d + 1, n, p, c =>
    if isLeaf n then setCodeIn c n.toNat (codeOf p)
    else walk node d (nodeIn node n).right (p ++ [true]) (walk node d (nodeIn node n).left (p ++ [false]) c)

/-- The code table of the tree: a sole leaf has the one-bit code 0, else every leaf its path from the root (R181, R182). -/
def codeTable (s : State) : Vector CodeEntry 257 :=
  if isLeaf s.root then setCodeIn noCodes s.root.toNat (codeOf [false]) else walk s.node 256 s.root [] noCodes

/-- The longest code length of a code table (R181). -/
def longest (c : Vector CodeEntry 257) : Nat := (c.toList.map fun e => e.len.toNat).foldl max 0

/-- GEN_CODES's rule (R181). -/
def genCodes (s : State) : State :=
  { s with
    code := codeTable s
    codesValid := true
    result := BitVec.ofNat 32 (longest (codeTable s))
    phase := .codes }

/-- GEN_CODES: generate the code table (R181). -/
def execGenCodes (s : State) : Host.Outcome State Fault Refusal := .next (command .genCodes s genCodes)

/-- READ_CODE_LEN: RESULT <- the length of one code, 0 for an absent one (R184). -/
def execReadCodeLen (sym : Sym) (s : State) : Host.Outcome State Fault Refusal :=
  .next (command (.readCodeLen sym) s fun s => { s with result := (codeAt s sym.toNat).len.setWidth 32 })

/-- READ_CODE_WORD: RESULT <- 32 bits of one code (R185). -/
def execReadCodeWord (sym : Sym) (k : BitVec 3) (s : State) : Host.Outcome State Fault Refusal :=
  .next (command (.readCodeWord sym k) s fun s => { s with result := codeWord (codeAt s sym.toNat) k })

end Sys2Proof.Machine
end

