-- ==== Sys2Proof/Machine/Control.lean ====
section
/-! DEFINITION. The control commands NOP and CLR (40_control.md). -/

namespace Sys2Proof.Machine

open Sys2Proof

/-- NOP: no operation (R130). -/
def execNop (s : State) : Host.Outcome State Fault Refusal := .next (command .nop s fun s => s)

/-- CLR: clear the block, in every phase, ERROR among them (R131, R111, R248). -/
def execClr (s : State) : Host.Outcome State Fault Refusal := .next (clear s)

end Sys2Proof.Machine
end

