-- ==== Sys2Proof/Machine/Decoder.lean ====
section
/-! DEFINITION. The bit reader, the tree walker and the decoder commands DEC_FEED and DEC_EOI (45_decoder.md). -/

namespace Sys2Proof.Machine

open Sys2Proof

/-- The walk stands on another node (R222). -/
def moveTo (n : NodeId) (s : State) : State := { s with dnode := n }

/-- A leaf that is not the sentinel: its byte value is emitted, and the walk returns to the root (R222, R34). -/
def emitLeaf (n : NodeId) (s : State) : State :=
  { pushOut (n.setWidth 8) s with decBytes := s.decBytes + 1#32, dnode := s.root }

/-- The sentinel leaf: the terminal state (R222). -/
def stopAtSentinel (s : State) : State := { s with dnode := 256#10, phase := .done }

/-- The walk over the bits of an input byte (R222): at the sentinel it stops for good, and the rest of the bits are never
read. -/
def feedBits : List Bool → State → State
  | [], s => s
  | bit :: bits, s =>
    if isLeaf (childAt s s.dnode bit) then
      if childAt s s.dnode bit = 256#10 then stopAtSentinel s else feedBits bits (emitLeaf (childAt s s.dnode bit) s)
    else feedBits bits (moveTo (childAt s s.dnode bit) s)

/-- How many non-sentinel leaves the walk from node `n` reaches within the bits (R226). -/
def leavesReached (s : State) : List Bool → NodeId → Nat
  | [], _ => 0
  | bit :: bits, n =>
    if isLeaf (childAt s n bit) then
      if childAt s n bit = 256#10 then 0 else leavesReached s bits s.root + 1
    else leavesReached s bits (childAt s n bit)

/-- Decoding with a tree whose root is a leaf: the one-bit code is 0, a 1 is INVALID_CODE (R224). -/
def feedDegenerate (b : Byte) (s : State) : State :=
  if b.getLsbD 7 then raise .invalidCode (encode (.decFeed b)) s else { s with phase := .done }

/-- DEC_FEED's rule (R222, R223, R224). -/
def feedByte (b : Byte) (s : State) : State :=
  if s.phase = .done then { s with trailing := true }
  else if isLeaf s.root then feedDegenerate b s
  else feedBits (byteBits b) { s with phase := .decoding }

/-- DEC_FEED: decode the bits of one input byte (R222). -/
def execDecFeed (b : Byte) (s : State) : Host.Outcome State Fault Refusal := .next (command (.decFeed b) s (feedByte b))

/-- DEC_EOI's rule: no effect in DONE, else the stream is truncated (R225). -/
def endOfInput (s : State) : State :=
  if s.phase = .done then s else raise .truncatedStream (encode .decEoi) s

/-- DEC_EOI: the host's input is exhausted (R225). -/
def execDecEoi (s : State) : Host.Outcome State Fault Refusal := .next (command .decEoi s endOfInput)

end Sys2Proof.Machine
end

