-- ==== Sys2Proof/Machine/Encoder.lean ====
section
/-! DEFINITION. The bit writer and the encoder commands ENC_BYTE and ENC_END (44_encoder.md). -/

namespace Sys2Proof.Machine

open Sys2Proof

/-- `emit_bit(b)`: the bit writer's one-bit step (R201). -/
def emitBit (b : Bool) (s : State) : State :=
  if s.wcnt = 7#3 then { pushOut (s.wbuf ++ BitVec.ofBool b) s with wbuf := 0#7, wcnt := 0#3 }
  else { s with wbuf := s.wbuf.extractLsb' 0 6 ++ BitVec.ofBool b, wcnt := s.wcnt + 1#3 }

/-- The bits of a code, emitted in order (R203, R204). -/
def emitBits : List Bool → State → State
  | [], s => s
  | b :: bs, s => emitBits bs (emitBit b s)

/-- The byte that completes the pending bits with 0s on the right (R202). -/
def paddedByte (s : State) : Byte := (s.wbuf.setWidth 8) <<< (8 - s.wcnt.toNat)

/-- `close_writer()`: the padding flush; nothing is pushed when no bit is pending (R202). -/
def closeWriter (s : State) : State :=
  if s.wcnt = 0#3 then s else { pushOut (paddedByte s) s with wbuf := 0#7, wcnt := 0#3 }

/-- A symbol's code goes to the bit writer and ENC_BITS counts it (R203, R204, R34). -/
def emitCode (e : CodeEntry) (s : State) : State :=
  { emitBits (codeBits e) s with encBits := s.encBits + BitVec.ofNat 32 e.len.toNat }

/-- ENC_BYTE's rule: SYMBOL_NOT_IN_TREE for an absent code, else its bits (R203). -/
def encodeByte (b : Byte) (s : State) : State :=
  if (codeAt s b.toNat).len = 0#9 then raise .symbolNotInTree (encode (.encByte b)) s
  else { emitCode (codeAt s b.toNat) s with phase := .encoding }

/-- ENC_BYTE: encode one input byte (R203). -/
def execEncByte (b : Byte) (s : State) : Host.Outcome State Fault Refusal := .next (command (.encByte b) s (encodeByte b))

/-- ENC_END's rule: the sentinel's bits, then the padding flush (R204). -/
def encodeEnd (s : State) : State :=
  if (codeAt s 256).len = 0#9 then raise .symbolNotInTree (encode .encEnd) s
  else { closeWriter (emitCode (codeAt s 256) s) with phase := .closed }

/-- ENC_END: encode the sentinel and close the writer (R204). -/
def execEncEnd (s : State) : Host.Outcome State Fault Refusal := .next (command .encEnd s encodeEnd)

end Sys2Proof.Machine
end

