-- ==== Sys2Proof/Machine/Frequency.lean ====
section
/-! DEFINITION. The frequency-table commands COUNT, LOAD_FREQ and READ_FREQ (41_frequency.md). -/

namespace Sys2Proof.Machine

open Sys2Proof

/-- COUNT's rule: FREQ_OVERFLOW at FREQ_MAX, else one more (R141). -/
def countByte (b : Byte) (s : State) : State :=
  if (freqAt s b.toNat).toNat = s.cfg.freqMax then raise .freqOverflow (encode (.count b)) s
  else setFreq b.toNat (freqAt s b.toNat + 1#32) s

/-- COUNT: count one input byte (R141). -/
def execCount (b : Byte) (s : State) : Host.Outcome State Fault Refusal := .next (command (.count b) s (countByte b))

/-- LOAD_FREQ's rule: HEADER_CORRUPT for a 258th value or one that does not fit, else ARG at index HDR_CNT (R142). -/
def loadHeader (s : State) : State :=
  if s.hdrCnt.toNat = 257 then raise .headerCorrupt (encode .loadFreq) s
  else if s.cfg.freqMax < s.arg.toNat then raise .headerCorrupt (encode .loadFreq) s
  else { setFreq s.hdrCnt.toNat s.arg s with hdrCnt := s.hdrCnt + 1#9 }

/-- LOAD_FREQ: load the next header value from ARG (R142). -/
def execLoadFreq (s : State) : Host.Outcome State Fault Refusal := .next (command .loadFreq s loadHeader)

/-- READ_FREQ: RESULT <- FREQ[SYM] (R143). -/
def execReadFreq (sym : Sym) (s : State) : Host.Outcome State Fault Refusal :=
  .next (command (.readFreq sym) s fun s => { s with result := freqAt s sym.toNat })

end Sys2Proof.Machine
end

