-- ==== Sys2Proof/Machine/Tree.lean ====
section
/-! DEFINITION. The tree-builder commands BUILD_TREE and READ_NODE (42_tree_builder.md). -/

namespace Sys2Proof.Machine

open Sys2Proof

/-! ## The priority queue -/

/-- The removal order: least key first, among equal keys the least seq (R162). -/
def QEntry.before (a b : QEntry) : Bool := decide (a.key < b.key) || (decide (a.key = b.key) && decide (a.seq < b.seq))

/-- The entry of `m :: q` that is removed first (R162). -/
def firstOut (m : QEntry) : List QEntry → QEntry
  | [] => m
  | e :: q => firstOut (if QEntry.before e m then e else m) q

/-- `Q.removeMin()`: the entry removed and the queue without it, none for an empty queue (R162). -/
def removeMin : List QEntry → Option (QEntry × List QEntry)
  | [] => none
  | e :: q => some (firstOut e q, (e :: q).erase (firstOut e q))

/-! ## The merge engine -/

/-- What BUILD_TREE works on: the queue, the NODE memory and the next internal id (R161). -/
structure Builder where
  q : List QEntry
  node : Vector NodeEntry 256
  next : Nat
deriving DecidableEq, Repr

/-- The symbols of nonzero frequency, ascending (R161). -/
def leafSyms (s : State) : List Nat := (List.range 257).filter fun n => decide (freqAt s n ≠ 0#32)

/-- The queue of leaves: seq numbers 0..L-1 in ascending symbol order, keyed by frequency (R161, R162). -/
def leafQueue (s : State) : List QEntry :=
  (leafSyms s).zipIdx.map fun p => ⟨(freqAt s p.1).setWidth 41, p.2, BitVec.ofNat 10 p.1⟩

/-- One merge: the two first entries become the children, left then right, of the next internal node, which is put back
keyed by the sum of their keys, with the next seq number; nothing while fewer than two entries remain (R161). -/
def mergeOnce (numLeaves : Nat) (b : Builder) : Builder :=
  match removeMin b.q with
  | none => b
  | some (e1, q1) =>
    match removeMin q1 with
    | none => b
    | some (e2, q2) =>
      { q := q2 ++ [⟨e1.key + e2.key, numLeaves + (b.next - 257), BitVec.ofNat 10 b.next⟩]
        node := setNodeIn b.node b.next ⟨e1.key + e2.key, e1.id, e2.id⟩
        next := b.next + 1 }

/-- Merges until one entry remains: every merge leaves one entry fewer, so `numLeaves` of them are enough (R161). -/
def mergeAll (numLeaves : Nat) : Nat → Builder → Builder
  | 0, b => b
  | k + 1, b => mergeAll numLeaves k (mergeOnce numLeaves b)

/-- The tree of a frequency table: the builder when one entry remains (R161). -/
def builtFrom (s : State) : Builder :=
  mergeAll (leafSyms s).length (leafSyms s).length ⟨leafQueue s, s.node, 257⟩

/-- The writes of BUILD_TREE once its checks have passed (R161). The queue ends empty (R44). -/
def plantTree (s : State) : State :=
  match removeMin (builtFrom s).q with
  | none => s
  | some (e, rest) =>
    { s with
      node := (builtFrom s).node
      pq := rest
      root := e.id
      leaves := BitVec.ofNat 9 (leafSyms s).length
      treeValid := true
      dnode := e.id
      result := BitVec.ofNat 32 (leafSyms s).length
      phase := .tree }

/-- BUILD_TREE's rule: HEADER_CORRUPT for a header of wrong length or without a sentinel, else the tree (R161). -/
def buildTree (s : State) : State :=
  if ¬(s.hdrCnt.toNat = 0 ∨ s.hdrCnt.toNat = 257) then raise .headerCorrupt (encode .buildTree) s
  else if freqAt s 256 = 0#32 then raise .headerCorrupt (encode .buildTree) s
  else plantTree s

/-- BUILD_TREE: build the Huffman tree of FREQ (R161). -/
def execBuildTree (s : State) : Host.Outcome State Fault Refusal := .next (command .buildTree s buildTree)

/-- READ_NODE: RESULT <- the selected word of a node, 0 for an absent one (R165). -/
def execReadNode (n : NodeId) (sel : BitVec 2) (s : State) : Host.Outcome State Fault Refusal :=
  .next (command (.readNode n sel) s fun s => { s with result := nodeWord s n sel })

end Sys2Proof.Machine
end

