-- ==== Sys2Proof/Machine/Dispatch.lean ====
section
/-! DEFINITION. One arm per command: which meaning it has. -/

namespace Sys2Proof.Machine

def exec (i : Instr) (s : State) : Host.Outcome State Fault Refusal :=
  match i with
  -- control (40_control.md)
  | .nop => Sys2Proof.Machine.execNop s
  | .clr => Sys2Proof.Machine.execClr s
  -- frequency table (41_frequency.md)
  | .count b => Sys2Proof.Machine.execCount b s
  | .loadFreq => Sys2Proof.Machine.execLoadFreq s
  | .readFreq sym => Sys2Proof.Machine.execReadFreq sym s
  -- tree builder (42_tree_builder.md)
  | .buildTree => Sys2Proof.Machine.execBuildTree s
  | .readNode n sel => Sys2Proof.Machine.execReadNode n sel s
  -- code table (43_code_table.md)
  | .genCodes => Sys2Proof.Machine.execGenCodes s
  | .readCodeLen sym => Sys2Proof.Machine.execReadCodeLen sym s
  | .readCodeWord sym k => Sys2Proof.Machine.execReadCodeWord sym k s
  -- encoder (44_encoder.md)
  | .encByte b => Sys2Proof.Machine.execEncByte b s
  | .encEnd => Sys2Proof.Machine.execEncEnd s
  -- decoder (45_decoder.md)
  | .decFeed b => Sys2Proof.Machine.execDecFeed b s
  | .decEoi => Sys2Proof.Machine.execDecEoi s

end Sys2Proof.Machine
end

