-- ==== Sys2Proof/Machine/Engine.lean ====
section
/-! DEFINITION. The engine: executing the pending command word (R82, R111), the room it needs in the output FIFO
(R82, R205, R226), and which agent moves (R20, R73, X7, X9). -/

namespace Sys2Proof.Machine

open Sys2Proof

/-- The error a word that is no command raises (R105, R106, R111). -/
def rejectError : Reject → ErrKind
  | .illegalOpcode => .illegalCmd
  | .reservedBits => .badOperand
  | .fieldRange => .badOperand

/-- `execute(w)` (R111): in phase ERROR only the exact word of CLR acts; a word that is no command raises its error; any
other word is its command. -/
def execute (w : Word) (s : State) : Host.Outcome State Fault Refusal :=
  if s.phase = .error then
    if w = encode .clr then exec .clr s else .next s
  else
    match decode w with
    | .error r => .next (raise (rejectError r) w s)
    | .ok i => exec i s

/-- How many bytes a legal command pushes (R205, R226). -/
def pushes (i : Instr) (s : State) : Nat :=
  match i with
  | .nop => 0
  | .clr => 0
  | .count _ => 0
  | .loadFreq => 0
  | .readFreq _ => 0
  | .buildTree => 0
  | .readNode _ _ => 0
  | .genCodes => 0
  | .readCodeLen _ => 0
  | .readCodeWord _ _ => 0
  | .encByte b =>
    if (codeAt s b.toNat).len = 0#9 then 0 else (s.wcnt.toNat + (codeAt s b.toNat).len.toNat) / 8
  | .encEnd => if (codeAt s 256).len = 0#9 then 0 else (s.wcnt.toNat + (codeAt s 256).len.toNat + 7) / 8
  | .decFeed b =>
    if s.phase = .done then 0 else if isLeaf s.root then 0 else leavesReached s (byteBits b) s.dnode
  | .decEoi => 0

/-- `need(w)`: the bytes `w` pushes when executed in this state, 0 for a word that raises an error or has no effect (R82). -/
def need (w : Word) (s : State) : Nat :=
  if s.phase = .error then 0
  else
    match decode w with
    | .error _ => 0
    | .ok i => if legality i s = .ok then pushes i s else 0

/-- The engine step is enabled: a command is pending and its whole output fits (R82). -/
def engineReady (s : State) : Bool :=
  match s.pend with
  | none => false
  | some w => decide (s.out.length + need w s ≤ s.cfg.outDepth)

/-- The engine step: `w <- PEND; PEND <- none; execute(w)` (R82). -/
def engineStep (s : State) : Host.Outcome State Fault Refusal :=
  match s.pend with
  | none => .next s
  | some w => execute w { s with pend := none }

/-- A command is held and the next access is held behind it: neither can ever move (R281, X7). -/
def hung (s : State) : Bool := s.pend.isSome && !s.inputs.isEmpty

/-- Both agents can move: the order is not fixed, so a free value says which does (R20, X9, log 2). -/
def race (s : State) : Host.Outcome State Fault Refusal :=
  match Config.firstAgent s.freeCount with
  | .engine => engineStep { s with freeCount := s.freeCount + 1 }
  | .host => .next (hostStep { s with freeCount := s.freeCount + 1 })

/-- One step of the whole machine: of the engine or of the outside world, whichever is enabled; where no agent is, the
hang of R281 stops, and a block that waits for its host stays as it is (R20, R271, R290, log 3). -/
def anyStep (s : State) : Host.Outcome State Fault Refusal :=
  if engineReady s then
    if hostReady s then race s else engineStep s
  else if hostReady s then .next (hostStep s)
  else if hung s then .fault .hang
  else .next s

/-- The state in which the next step executes the command word `w`: it is pending, as after the host's write to CMD, and no
input comes before it (R24, R39, log 8). -/
def withCommand (w : Word) (s : State) : State := { s with pend := some w, inputs := [] }

end Sys2Proof.Machine
end

