-- ==== Sys2Proof/Machine/Step.lean ====
section
/-! DEFINITION. The step of the machine, and how a command word comes to be executed next. -/

namespace Sys2Proof.Machine

open Sys2Proof

/-- One step (R20, R82). -/
def step (s : State) : Host.Outcome State Fault Refusal := anyStep s

/-- The word with these bits pending, so that the next step executes it (R24, R39, R93, log 8). -/
def State.withFetchWord (s : State) (nbits w : Nat) : State := withCommand (BitVec.ofNat 32 (w % 2 ^ nbits)) s

end Sys2Proof.Machine
end

