-- ==== Sys2Proof/Safety.lean ====
section
/-! DEFINITION. The terms claims are stated in: the end of an operation (R291), the canonical form of the internal memories,
the invariants of the machine and of the tree, paths in the tree, the bits of a stream, and running commands in a row. -/

namespace Sys2Proof.Machine

open Sys2Proof

/-! ## The end of an operation (R291) -/

/-- An encode operation has ended successfully. -/
def encodeEnded (s : State) : Bool := decide (s.phase = .closed) && decide (s.out = []) && decide (s.pend = none)

/-- A decode operation has ended successfully. -/
def decodeEnded (s : State) : Bool := decide (s.phase = .done) && decide (s.out = []) && decide (s.pend = none)

/-- An operation has failed. -/
def opFailed (s : State) : Bool := decide (s.phase = .error)

/-- An access the host has issued is held (R73). Every other access completes in one step (R74), so between steps no other access is
pending; the reset input is no access. -/
def accessHeld (s : State) : Bool := !s.inputs.isEmpty && !hostReady s

/-- No command is pending and no access is pending, that is held: DEDUCED, safe (log 14). What the host has yet to issue does not
matter. -/
def quiescent (s : State) : Bool := decide (s.pend = none) && !accessHeld s

/-- The operation has not ended yet: any quiescent state that is none of the three ends. -/
def notYetEnded (s : State) : Bool := quiescent s && !encodeEnded s && !decodeEnded s && !opFailed s

/-- How an operation stands (R291). -/
inductive OperationEnd where
  /-- An encode operation has ended successfully; its body is what the host has popped since the CLR that started it. -/
  | encoded (body : List Byte)
  /-- A decode operation has ended successfully; its output is what the host has popped since its CLR. -/
  | decoded (output : List Byte)
  /-- PHASE = ERROR; no byte popped is a valid result (R284). -/
  | failed
  /-- Quiescent, and not yet ended. -/
  | notYet
  /-- A command is pending, and no error: R291 speaks of no such state (log 14). -/
  | moving
deriving DecidableEq, Repr

/-- How the operation stands in a state (R291). -/
def operationEnd (s : State) : OperationEnd :=
  if opFailed s then .failed
  else if encodeEnded s then .encoded s.popped
  else if decodeEnded s then .decoded s.popped
  else if quiescent s then .notYet
  else .moving

/-- Every byte pushed since the last CLR or reset, first pushed first: those the host has popped, then those still in the FIFO. -/
def streamed (s : State) : List Byte := s.popped ++ s.out

/-! ## The canonical form of the internal memories -/

/-- A code-table entry is canonical: a length of at most 256, and every BITS bit outside the code 0 (R43). -/
def codeCanonical (e : CodeEntry) : Bool := decide (e.len.toNat ≤ 256) && decide (e.bits <<< e.len.toNat = 0#256)

/-- Every FREQ entry fits in `FREQ_WIDTH` bits (R40), and every CODE entry is canonical once CODES_VALID = 1 (R43; before
that its content is unspecified, X2). The memories have a fixed number of entries, so equal memories are equal data. -/
def Memory.wf (s : State) : Bool :=
  ((List.range 257).all fun n => decide ((freqAt s n).toNat ≤ s.cfg.freqMax))
    && (!s.codesValid || (List.range 257).all fun n => codeCanonical (codeAt s n))

/-! ## The invariant of the machine -/

/-- What every state a run reaches has, the shape of the tree left aside. -/
structure Inv (s : State) : Prop where
  /-- The parameters are in range (R6, R9). -/
  cfg_ok : s.cfg.ok = true
  /-- The internal memories are canonical (R40, R43). -/
  memory : Memory.wf s = true
  /-- HDR_CNT is 0..257 (R47). -/
  hdr_le : s.hdrCnt.toNat ≤ 257
  /-- The priority queue is empty before and after every command (R44). -/
  queue_empty : s.pq = []
  /-- The FIFO never holds more than OUT_DEPTH bytes (R49, R82). -/
  fifo_fits : s.out.length ≤ s.cfg.outDepth
  /-- WBUF bits at and above WCNT are 0 (R45). -/
  writer_clean : s.wbuf.toNat < 2 ^ s.wcnt.toNat
  /-- Bits are pending in the writer only while the encoder is open, or after an error. -/
  writer_idle : s.phase = .encoding ∨ s.phase = .error ∨ s.wcnt = 0#3
  /-- An error is recorded exactly in phase ERROR (R29, R249). -/
  error_iff : s.phase = .error ↔ s.errKind ≠ .none
  /-- Without an error the error registers read 0 (R29, R30). -/
  no_error : s.errKind = .none → s.prevPhase = .freq ∧ s.errCmd = 0#32
  /-- An error is raised in a phase other than ERROR (R247). -/
  prev_phase : s.prevPhase ≠ .error
  /-- CODES_VALID implies TREE_VALID (R42). -/
  codes_need_tree : s.codesValid = true → s.treeValid = true
  /-- Without a tree ROOT, LEAVES and DNODE are 0 and the phase is FREQ, or ERROR (R27, R50). -/
  without_tree : s.treeValid = false →
    s.root = 0#10 ∧ s.leaves = 0#9 ∧ s.dnode = 0#10 ∧ (s.phase = .freq ∨ s.phase = .error)
  /-- With a tree the phase is not FREQ (R42). -/
  with_tree : s.treeValid = true → s.phase ≠ .freq
  /-- In phases FREQ and TREE there are no codes (R110). -/
  no_codes : s.phase = .freq ∨ s.phase = .tree → s.codesValid = false
  /-- In phases CODES, ENCODING and CLOSED there are codes (R110). -/
  with_codes : s.phase = .codes ∨ s.phase = .encoding ∨ s.phase = .closed → s.codesValid = true

/-! ## The tree -/

/-- The internal nodes present: ids 257..255+LEAVES, ascending (R41, R163). -/
def internalIds (s : State) : List NodeId := (List.range (s.leaves.toNat - 1)).map fun k => BitVec.ofNat 10 (257 + k)

/-- The leaves present: the symbols of nonzero frequency, ascending (R41). -/
def leafIds (s : State) : List NodeId := (leafSyms s).map fun n => BitVec.ofNat 10 n

/-- The children of the internal nodes, left before right. -/
def childIds (s : State) : List NodeId := (internalIds s).flatMap fun n => [(nodeAt s n).left, (nodeAt s n).right]

/-- ROOT, LEAVES and NODE are a full binary tree over the symbols of nonzero frequency, weighted by FREQ (R163, R166). -/
structure TreeOk (s : State) : Prop where
  /-- LEAVES counts the symbols of nonzero frequency (R42). -/
  leaves_eq : s.leaves.toNat = (leafSyms s).length
  /-- The sentinel is always a leaf (R167). -/
  sentinel : freqAt s 256 ≠ 0#32
  /-- The root is the sole leaf, or the last node made (R163, R167). -/
  root_eq : s.root.toNat = if s.leaves.toNat = 1 then 256 else 255 + s.leaves.toNat
  /-- Every internal node has two children, both present and made before it (R161). -/
  children : ∀ n ∈ internalIds s, present s (nodeAt s n).left = true ∧ present s (nodeAt s n).right = true ∧
    (nodeAt s n).left.toNat < n.toNat ∧ (nodeAt s n).right.toNat < n.toNat
  /-- An internal node's weight is the sum of its children's, with no overflow (R7, R166). -/
  weights : ∀ n ∈ internalIds s, (weightOf s n).toNat =
    (weightOf s (nodeAt s n).left).toNat + (weightOf s (nodeAt s n).right).toNat
  /-- No node has two parents. -/
  one_parent : (childIds s).Nodup
  /-- Every node present but the root has a parent. -/
  has_parent : ∀ n ∈ leafIds s ++ internalIds s, n ≠ s.root → n ∈ childIds s

/-- The bits lead from one node to another, "0 = left, 1 = right", through internal nodes only (R11, R180). -/
def leadsTo (s : State) : NodeId → List Bool → NodeId → Bool
  | n, [], m => decide (n = m)
  | n, b :: bs, m => !isLeaf n && leadsTo s (childAt s n b) bs m

/-- The decoder's walk from a node over bits (R220, R222): the bytes of the leaves it reaches, and the node it ends at. A leaf sends it
back to the root, but the sentinel: there it ends, and the bits left are not read. -/
def walkFrom (s : State) : NodeId → List Bool → List Byte × NodeId
  | n, [] => ([], n)
  | n, b :: bs =>
    if 256 < (childAt s n b).toNat then walkFrom s (childAt s n b) bs
    else if (childAt s n b).toNat = 256 then ([], 256#10)
    else (BitVec.ofNat 8 (childAt s n b).toNat :: (walkFrom s s.root bs).1, (walkFrom s s.root bs).2)

/-- The code table is that of the tree: every present leaf has the path to it, or the one-bit code 0 when it is the
root; every other symbol is absent (R181, R182). -/
def CodesOk (s : State) : Prop :=
  ∀ n, n ≤ 256 →
    if freqAt s n = 0#32 then codeOfSym s n = []
    else if isLeaf s.root then codeOfSym s n = [false]
    else leadsTo s s.root (codeOfSym s n) (BitVec.ofNat 10 n) = true

/-- While TREE_VALID = 1 there is a tree, and DNODE stands on it: at the root until decoding starts, at an internal node
while decoding, at the sentinel when done (R41, R46, R222). While CODES_VALID = 1 the code table is the tree's (R181). -/
structure TreeInv (s : State) : Prop where
  tree : s.treeValid = true → TreeOk s
  at_root : s.phase = .tree ∨ s.phase = .codes ∨ s.phase = .encoding ∨ s.phase = .closed → s.dnode = s.root
  in_tree : s.phase = .decoding → s.dnode ∈ internalIds s
  at_sentinel : s.phase = .done → s.dnode = 256#10
  codes : s.codesValid = true → CodesOk s

/-! ## Streams of bits -/

/-- The pending bits of the writer, earliest first: `WBUF[WCNT-1:0]` (R45). -/
def pendingBits (s : State) : List Bool := (List.range s.wcnt.toNat).map fun k => s.wbuf.getLsbD (s.wcnt.toNat - 1 - k)

/-- The bits of bytes in the order they travel: byte after byte, each most significant bit first (R84, R85). -/
def bytesBits (bs : List Byte) : List Bool := bs.flatMap byteBits

/-- Everything written so far: the bytes in the FIFO, then the pending bits. -/
def writtenBits (s : State) : List Bool := bytesBits s.out ++ pendingBits s

/-- The code bits of bytes in input order, then the sentinel's code (R200, R206). -/
def messageBits (s : State) (bytes : List Byte) : List Bool :=
  bytes.flatMap (fun b => codeOfSym s b.toNat) ++ codeOfSym s 256

/-! ## Running commands in a row -/

/-- Commands executed one after another, each as the engine does (R90). -/
def execAll : List Instr → State → Host.Outcome State Fault Refusal
  | [], s => .next s
  | i :: is, s =>
    match exec i s with
    | .next t => execAll is t
    | .fault r => .fault r
    | .refused r => .refused r

/-- `LOADF v` for each value: ARG written, then LOAD_FREQ executed (R113). -/
def loadAll : List Word → State → Host.Outcome State Fault Refusal
  | [], s => .next s
  | v :: vs, s =>
    match exec .loadFreq { s with arg := v } with
    | .next t => loadAll vs t
    | .fault r => .fault r
    | .refused r => .refused r

/-- The header a state gives: FREQ[0..256] in ascending symbol order (R86). -/
def headerOf (s : State) : List Word := (List.range 257).map (freqAt s)

end Sys2Proof.Machine
end

