-- ==== Sys2Proof/Certificates/Slice0/Obligations.lean ====
section
/-! DEFINITION. The statements for the provers: what the commands and the machine do, rule by rule of the spec. -/

open Sys2Proof Sys2Proof.Machine

/-! ## Encoding -/

/-- One word of every row of the opcode map, written out from R104 and R112, decodes to its command. -/
def Obligations.WrittenWordsDecode : Prop :=
  decode 0x00000000#32 = .ok .nop ∧ decode 0x01000000#32 = .ok .clr ∧ decode 0x02000041#32 = .ok (.count 0x41#8)
  ∧ decode 0x03000000#32 = .ok .loadFreq ∧ decode 0x04000100#32 = .ok (.readFreq 256#9)
  ∧ decode 0x10000000#32 = .ok .buildTree ∧ decode 0x11020101#32 = .ok (.readNode 257#10 2#2)
  ∧ decode 0x20000000#32 = .ok .genCodes ∧ decode 0x21000041#32 = .ok (.readCodeLen 65#9)
  ∧ decode 0x22010041#32 = .ok (.readCodeWord 65#9 1#3) ∧ decode 0x30000041#32 = .ok (.encByte 0x41#8)
  ∧ decode 0x31000000#32 = .ok .encEnd ∧ decode 0x4000002C#32 = .ok (.decFeed 0x2C#8)
  ∧ decode 0x41000000#32 = .ok .decEoi

/-- Decoding the word of a well-formed command gives the command back, every field at every value. -/
def Obligations.DecodeUndoesEncode : Prop :=
  ∀ i : Instr, i.wellFormed = true → decode (encode i) = .ok i

/-- R106: each defined command has exactly one legal word per value of its fields. -/
def Obligations.OneLegalWordPerCommand : Prop :=
  ∀ (w : Word) (i : Instr), decode w = .ok i → i.wellFormed = true ∧ encode i = w

/-- R105: the words rejected for their opcode are exactly those whose OPC is not one of the fourteen. -/
def Obligations.UndefinedOpcodesRejected : Prop :=
  ∀ w : Word, decode w = .error .illegalOpcode ↔
    w.toNat / 2 ^ 24 ∉
      [0x00, 0x01, 0x02, 0x03, 0x04, 0x10, 0x11, 0x20, 0x21, 0x22, 0x30, 0x31, 0x40, 0x41]

/-- R101, R103, R106: which words are commands, by their operand. Format N has an operand of 0; B a byte; S a symbol;
SW a symbol and a word index; NS a node and a selector. -/
def Obligations.LegalWordsByFormat : Prop :=
  ∀ w : Word, (∃ i, decode w = .ok i) ↔
    (w.toNat / 2 ^ 24 ∈ [0x00, 0x01, 0x03, 0x10, 0x20, 0x31, 0x41] ∧ w.toNat % 2 ^ 24 = 0)
    ∨ (w.toNat / 2 ^ 24 ∈ [0x02, 0x30, 0x40] ∧ w.toNat % 2 ^ 24 ≤ 255)
    ∨ (w.toNat / 2 ^ 24 ∈ [0x04, 0x21] ∧ w.toNat % 2 ^ 24 ≤ 256)
    ∨ (w.toNat / 2 ^ 24 = 0x22 ∧ w.toNat % 2 ^ 24 / 2 ^ 16 ≤ 7 ∧ w.toNat % 2 ^ 16 ≤ 256)
    ∨ (w.toNat / 2 ^ 24 = 0x11 ∧ w.toNat % 2 ^ 24 / 2 ^ 16 ≤ 2 ∧ w.toNat % 2 ^ 16 ≤ 512)

/-! ## The step -/

/-- R82, R111: a pending word that is a command and whose output fits is executed by the next step as `exec` says, PEND
cleared, when no input can move; and so is a word placed by `withFetchWord`. -/
def Obligations.StepExecutesThePendingCommand : Prop :=
  (∀ (s : State) (w : Word) (i : Instr), s.pend = some w → s.phase ≠ .error → decode w = .ok i →
    s.out.length + need w s ≤ s.cfg.outDepth → hostReady s = false → step s = exec i { s with pend := none })
  ∧ (∀ (s : State) (w : Word) (i : Instr), s.phase ≠ .error → decode w = .ok i →
    s.out.length + need w s ≤ s.cfg.outDepth →
    step (s.withFetchWord 32 w.toNat) = exec i { s with pend := none, inputs := [] })

/-- R105, R106, R111, R245: a pending word that is no command takes the error entry with the word: ILLEGAL_CMD for its
opcode, BAD_OPERAND for a reserved bit or a field out of range. -/
def Obligations.StepRaisesOnWordsThatAreNoCommand : Prop :=
  ∀ (s : State) (w : Word), s.pend = some w → s.phase ≠ .error → s.out.length ≤ s.cfg.outDepth → hostReady s = false →
    (decode w = .error .illegalOpcode →
      step s = .next { s with pend := none, errKind := .illegalCmd, prevPhase := s.phase, errCmd := w, phase := .error })
    ∧ (decode w = .error .reservedBits ∨ decode w = .error .fieldRange →
      step s = .next { s with pend := none, errKind := .badOperand, prevPhase := s.phase, errCmd := w, phase := .error })

/-- R111, R247, R248: in phase ERROR every word but that of CLR is executed with no effect, and does not overwrite the error; and so
every command but CLR. The word of CLR executes CLR there. -/
def Obligations.ErrorPhaseIgnoresCommands : Prop :=
  (∀ (s : State) (w : Word), s.phase = .error → s.pend = some w → s.out.length ≤ s.cfg.outDepth → hostReady s = false →
    w ≠ 0x01000000#32 → step s = .next { s with pend := none })
  ∧ (∀ (s : State) (i : Instr), s.phase = .error → i ≠ .clr → exec i s = .next s)
  ∧ ∀ s : State, s.phase = .error → s.pend = some 0x01000000#32 → s.out.length ≤ s.cfg.outDepth → hostReady s = false →
    step s = exec .clr { s with pend := none }

/-- R248: only CLR or a hardware reset leaves phase ERROR, and both start from phase FREQ with no error. -/
def Obligations.OnlyClrOrResetLeavesError : Prop :=
  ∀ s t : State, s.phase = .error → step s = .next t →
    t.phase = .error ∧ t.errKind = s.errKind ∧ t.prevPhase = s.prevPhase ∧ t.errCmd = s.errCmd
    ∨ ((s.pend = some 0x01000000#32 ∨ ∃ rest, s.inputs = .reset :: rest) ∧ t.phase = .freq ∧ t.errKind = .none
      ∧ t.prevPhase = .freq ∧ t.errCmd = 0#32)

/-- R73: while a command is pending, a write and a read of any register but OUT_DATA are held: the access does not complete
and the host takes no further step. -/
def Obligations.AccessesAreHeldWhilePending : Prop :=
  ∀ (s t : State) (i : Input) (rest : List Input), s.pend ≠ none → s.inputs = i :: rest →
    ((∃ off : Offset, i = .read off ∧ off.toNat / 4 ≠ 12) ∨ ∃ off v, i = .write off v) →
    step s = .next t → t.inputs = s.inputs ∧ t.hostReads = s.hostReads

/-- R82: while the output of the pending command does not fit, the engine has no step; the command stays pending unless
the reset input discards it. -/
def Obligations.CommandWaitsForRoom : Prop :=
  ∀ (s t : State) (w : Word), s.pend = some w → s.cfg.outDepth < s.out.length + need w s → step s = .next t →
    t.pend = some w ∧ t.phase = s.phase ∧ t.out.length ≤ s.out.length ∨ ∃ rest, s.inputs = .reset :: rest

/-- X9, R73, R280: an OUT_DATA read issued while an enabled command is pending is served before or after the command's step,
and nothing says which; and so is a read of DRAIN's pop loop (R113, log 1), which goes on while its read returned VALID = 1. -/
def Obligations.OutDataReadRacesTheCommand : Prop :=
  (∀ (s : State) (w : Word) (off : Offset) (rest : List Input), s.pend = some w → s.inputs = .read off :: rest →
    off.toNat / 4 = 12 → s.out.length + need w s ≤ s.cfg.outDepth →
    step s = execute w { s with pend := none, freeCount := s.freeCount + 1 }
    ∨ step s = .next { s with
        out := s.out.tail, inputs := rest, hostReads := s.hostReads ++ [busWord off s], popped := s.popped ++ s.out.take 1
        freeCount := s.freeCount + 1 })
  ∧ ∀ (s : State) (w : Word) (rest : List Input), s.pend = some w → s.inputs = .popAll :: rest →
    s.out.length + need w s ≤ s.cfg.outDepth →
    step s = execute w { s with pend := none, freeCount := s.freeCount + 1 }
    ∨ step s = .next { s with
        out := s.out.tail, popped := s.popped ++ s.out.take 1, inputs := if 0 < s.out.length then s.inputs else rest
        hostReads := s.hostReads ++ [busWord 0x30#8 s], freeCount := s.freeCount + 1 }

/-- R281, X7: the machine stops only in the hang, a command held for room with a held access behind it; and there it stops. -/
def Obligations.OnlyTheHangStops : Prop :=
  (∀ s : State, (∃ t, step s = .next t) ∨
    (step s = .fault .hang ∧ ∃ w i rest, s.pend = some w ∧ s.cfg.outDepth < s.out.length + need w s ∧
      s.inputs = i :: rest ∧ ((∃ off : Offset, i = .read off ∧ off.toNat / 4 ≠ 12) ∨ ∃ off v, i = .write off v)))
  ∧ ∀ (s : State) (w : Word) (i : Input) (rest : List Input), s.pend = some w →
    s.cfg.outDepth < s.out.length + need w s → s.inputs = i :: rest →
    ((∃ off : Offset, i = .read off ∧ off.toNat / 4 ≠ 12) ∨ ∃ off v, i = .write off v) → step s = .fault .hang

/-- R80, R82, R205, R226: a command only appends to the output FIFO, and appends exactly `need` bytes; CLR empties it. R49, R291:
so the bytes popped since the last CLR or reset, then those in the FIFO, are the bytes pushed since, in order: a step appends to
them what its command pushes, moves the first of the FIFO over, or starts again with none. -/
def Obligations.CommandsPushTheirNeed : Prop :=
  (∀ (s t : State) (w : Word), execute w s = .next t → w ≠ 0x01000000#32 →
    ∃ bytes, t.out = s.out ++ bytes ∧ bytes.length = need w s)
  ∧ ∀ s t : State, step s = .next t →
    (∃ bytes, streamed t = streamed s ++ bytes ∧ (bytes = [] ∨ ∃ w, s.pend = some w ∧ bytes.length = need w s))
    ∨ (streamed t = [] ∧ (s.pend = some 0x01000000#32 ∨ ∃ rest, s.inputs = .reset :: rest))

/-- R83: `need(w) ≤ 33` for every word, so a pending command is enabled once the host has popped every byte: under the machine's
invariant, and in every other state in which no code is longer than 256 bits. -/
def Obligations.NeedIsAtMost33 : Prop :=
  ∀ (s : State) (w : Word), Inv s ∨ (∀ n ≤ 256, (codeAt s n).len.toNat ≤ 256) →
    need w s ≤ 33 ∧ (s.cfg.ok = true → s.pend = some w → s.out = [] → engineReady s = true)

/-! ## The register space -/

/-- R35, R81: a read of OUT_DATA returns VALID and the head byte and removes it, or 0 with no effect when the FIFO is empty;
while a command is held for room as well as with none pending. R113: a read of DRAIN's pop loop does the same, and the loop stays
the next input exactly while its read returned VALID = 1. That the loop is one input, and the lists of what the host has read and
popped, are the model's choice (log 1, log 13). -/
def Obligations.OutDataReadPops : Prop :=
  (∀ (s : State) (off : Offset) (rest : List Input), s.inputs = .read off :: rest → engineReady s = false →
    off.toNat / 4 = 12 →
    (∀ b bs, s.out = b :: bs → step s = .next { s with
      out := bs, popped := s.popped ++ [b], inputs := rest
      hostReads := s.hostReads ++ [BitVec.ofNat 32 (256 + b.toNat)] })
    ∧ (s.out = [] → step s = .next { s with inputs := rest, hostReads := s.hostReads ++ [0#32] }))
  ∧ ∀ (s : State) (rest : List Input), s.inputs = .popAll :: rest → engineReady s = false →
    (∀ b bs, s.out = b :: bs → step s = .next { s with
      out := bs, popped := s.popped ++ [b], hostReads := s.hostReads ++ [BitVec.ofNat 32 (256 + b.toNat)] })
    ∧ (s.out = [] → step s = .next { s with inputs := rest, hostReads := s.hostReads ++ [0#32] })

/-- R88: a read of any other register or offset returns its word and has no side effect. -/
def Obligations.OtherReadsHaveNoEffect : Prop :=
  ∀ (s : State) (off : Offset) (rest : List Input), s.inputs = .read off :: rest → s.pend = none → off.toNat / 4 ≠ 12 →
    step s = .next { s with inputs := rest, hostReads := s.hostReads ++ [busWord off s] }

/-- R24, R25, R36, R37, R38, R71, R88: a write stores into CMD (as PEND), ARG or the three bits of IRQ_EN, the offset's low two
bits ignored; every other write is ignored. -/
def Obligations.WritesStoreOrAreIgnored : Prop :=
  ∀ (s : State) (off : Offset) (v : Word) (rest : List Input), s.inputs = .write off v :: rest → s.pend = none →
    step s = .next
      (if off.toNat / 4 = 1 then { s with pend := some v, inputs := rest }
       else if off.toNat / 4 = 2 then { s with arg := v, inputs := rest }
       else if off.toNat / 4 = 13 then { s with irqEn := BitVec.ofNat 3 (v.toNat % 8), inputs := rest }
       else { s with inputs := rest })

/-- R27, R28, R71: the fields of STATUS, each at its place, every other bit 0, with the numbers of the phases; at every offset of its
word. -/
def Obligations.StatusFields : Prop :=
  ∀ (s : State) (off : Offset) (phase : Nat), off.toNat / 4 = 4 →
    (s.phase, phase) ∈
      [(Phase.freq, 0), (.tree, 1), (.codes, 2), (.encoding, 3), (.closed, 4), (.decoding, 5), (.done, 6), (.error, 7)] →
    (busWord off s).toNat =
    phase + 8 * s.treeValid.toNat + 16 * s.codesValid.toNat + 32 * (decide (0 < s.out.length)).toNat
    + 64 * (decide (s.out.length = s.cfg.outDepth)).toNat + 128 * s.trailing.toNat
    + 256 * (decide (s.phase = .error)).toNat + 512 * (irq s).toNat + 65536 * s.hdrCnt.toNat

/-- R22, R23, R24, R25, R26, R29 to R37: the word every other register reads as, the reserved offsets among them, with the numbers of
the phases (R27) and of the errors (R240). -/
def Obligations.RegisterWords : Prop :=
  ∀ (s : State) (off : Offset) (code prev : Nat),
    (s.errKind, code) ∈ [(ErrKind.none, 0), (.illegalCmd, 1), (.badOperand, 2), (.sequence, 3), (.writeAfterClose, 4),
      (.headerCorrupt, 5), (.freqOverflow, 6), (.symbolNotInTree, 7), (.invalidCode, 8), (.truncatedStream, 9)] →
    (s.prevPhase, prev) ∈
      [(Phase.freq, 0), (.tree, 1), (.codes, 2), (.encoding, 3), (.closed, 4), (.decoding, 5), (.done, 6), (.error, 7)] →
    (off.toNat / 4 = 0 → (busWord off s).toNat = 0x48554601)
    ∧ (off.toNat / 4 = 1 → busWord off s = 0#32)
    ∧ (off.toNat / 4 = 2 → busWord off s = s.arg)
    ∧ (off.toNat / 4 = 3 → busWord off s = s.result)
    ∧ (off.toNat / 4 = 5 → (busWord off s).toNat = code + 256 * prev)
    ∧ (off.toNat / 4 = 6 → busWord off s = s.errCmd)
    ∧ (off.toNat / 4 = 7 → (busWord off s).toNat = if s.treeValid then s.root.toNat + 65536 * s.leaves.toNat else 0)
    ∧ (off.toNat / 4 = 8 → (busWord off s).toNat = s.wbuf.toNat + 256 * s.wcnt.toNat)
    ∧ (off.toNat / 4 = 9 → (busWord off s).toNat = s.dnode.toNat)
    ∧ (off.toNat / 4 = 10 → busWord off s = s.encBits)
    ∧ (off.toNat / 4 = 11 → busWord off s = s.decBytes)
    ∧ (off.toNat / 4 = 13 → (busWord off s).toNat = s.irqEn.toNat)
    ∧ (14 ≤ off.toNat / 4 → busWord off s = 0#32)

/-- R250: the irq output, read as STATUS bit 9 at every offset of its word, is a function of the state. -/
def Obligations.IrqLevel : Prop :=
  ∀ (s : State) (off : Offset), off.toNat / 4 = 4 → ((busWord off s).getLsbD 9 = true ↔
    (s.irqEn.getLsbD 0 = true ∧ s.phase = .error)
    ∨ (s.irqEn.getLsbD 1 = true ∧ (s.phase = .closed ∨ s.phase = .done))
    ∨ (s.irqEn.getLsbD 2 = true ∧ 0 < s.out.length))

/-! ## Reset -/

/-- R50, R271: the values the spec gives the state after reset; an idle block then waits for its host. -/
def Obligations.ResetValues : Prop :=
  let s := State.reset
  s.pend = none ∧ s.arg = 0#32 ∧ s.irqEn = 0#3 ∧ s.result = 0#32 ∧ s.phase = .freq ∧ s.errKind = .none
  ∧ s.prevPhase = .freq ∧ s.errCmd = 0#32 ∧ (∀ n < 256, freqAt s n = 0#32) ∧ freqAt s 256 = 1#32 ∧ s.hdrCnt = 0#9
  ∧ s.treeValid = false ∧ s.codesValid = false ∧ s.root = 0#10 ∧ s.leaves = 0#9 ∧ s.pq = [] ∧ s.wbuf = 0#7 ∧ s.wcnt = 0#3
  ∧ s.dnode = 0#10 ∧ s.encBits = 0#32 ∧ s.decBytes = 0#32 ∧ s.trailing = false ∧ s.out = [] ∧ irq s = false
  ∧ s.cfg.freqWidth = 32 ∧ s.cfg.outDepth = 64 ∧ step s = .next s

/-- R270: the reset step discards a pending command without executing it and gives every piece of state its reset value; what
NODE and CODE hold then is not said. That it also empties the model's own list of the bytes popped, as R291 says of CLR alone, is
the model's choice (log 13). Asserted while the engine cannot move, it is the step; asserted while a command that fits is
pending, it is taken before or after the command's step, and nothing says which. -/
def Obligations.HardwareReset : Prop :=
  ∀ (s : State) (rest : List Input), s.inputs = .reset :: rest →
    (engineReady s = false → ∃ node code, step s = .next { State.resetWith s.cfg with
      node := node, code := code, inputs := rest, hostReads := s.hostReads, freeCount := s.freeCount + 1 })
    ∧ ∀ w, s.pend = some w → s.out.length + need w s ≤ s.cfg.outDepth →
      step s = execute w { s with pend := none, freeCount := s.freeCount + 1 }
      ∨ ∃ node code, step s = .next { State.resetWith s.cfg with
          node := node, code := code, inputs := rest, hostReads := s.hostReads, freeCount := s.freeCount + 2 }

/-! ## Invariants -/

/-- The invariants hold at reset. -/
def Obligations.ResetMeetsTheInvariants : Prop :=
  Inv State.reset ∧ TreeInv State.reset

/-- Every step keeps the invariant: canonical memories, a bounded FIFO, a clean writer, an error recorded exactly in phase
ERROR, and the valid bits and phases as the phase machine allows them. -/
def Obligations.StepKeepsTheInvariant : Prop :=
  ∀ s t : State, Inv s → step s = .next t → Inv t

/-- Every step keeps the tree: while TREE_VALID = 1 NODE, ROOT and LEAVES are a full binary tree weighted by FREQ, and the
decoder stands on it; while CODES_VALID = 1 the code table is the tree's. -/
def Obligations.StepKeepsTheTree : Prop :=
  ∀ s t : State, Inv s → TreeInv s → step s = .next t → TreeInv t

/-! ## Whole-machine rules -/

/-- R245: an error is precise. Whatever command raises it makes exactly the four writes of the error entry; a command that
finds phase ERROR leaves it. -/
def Obligations.ErrorsArePrecise : Prop :=
  ∀ (i : Instr) (s t : State), exec i s = .next t → t.phase = .error →
    (s.phase = .error ∧ t = s)
    ∨ (s.phase ≠ .error ∧ ∃ e, e ≠ .none ∧
        t = { s with errKind := e, prevPhase := s.phase, errCmd := encode i, phase := .error })

/-- R26: RESULT is written only by CLR, READ_FREQ, BUILD_TREE, READ_NODE, GEN_CODES, READ_CODE_LEN and READ_CODE_WORD, and
by none of them when it raises an error. -/
def Obligations.ResultWriters : Prop :=
  ∀ (i : Instr) (s t : State), exec i s = .next t →
    (t.phase = .error ∨ i = .nop ∨ (∃ b, i = .count b) ∨ i = .loadFreq ∨ (∃ b, i = .encByte b) ∨ i = .encEnd
      ∨ (∃ b, i = .decFeed b) ∨ i = .decEoi) → t.result = s.result

/-- R25, R36, R87: which command writes which internal memory; no command writes ARG, IRQ_EN, PEND or the parameters. -/
def Obligations.MemoryWriters : Prop :=
  ∀ (i : Instr) (s t : State), exec i s = .next t →
    (t.freq ≠ s.freq → i = .clr ∨ (∃ b, i = .count b) ∨ i = .loadFreq)
    ∧ (t.node ≠ s.node → i = .buildTree)
    ∧ (t.code ≠ s.code → i = .genCodes)
    ∧ (t.out ≠ s.out → i = .clr ∨ (∃ b, i = .encByte b) ∨ i = .encEnd ∨ ∃ b, i = .decFeed b)
    ∧ t.arg = s.arg ∧ t.irqEn = s.irqEn ∧ t.pend = s.pend ∧ t.cfg = s.cfg ∧ t.inputs = s.inputs
    ∧ t.hostReads = s.hostReads ∧ t.freeCount = s.freeCount ∧ (t.popped ≠ s.popped → i = .clr)

/-- R110: the entries SEQ and WAC of the legality table, each ending in the error entry. -/
def Obligations.PhaseTable : Prop :=
  ∀ (i : Instr) (s : State), i.wellFormed = true → s.phase ≠ .error →
    ((((∃ b, i = .count b) ∨ i = .loadFreq ∨ i = .buildTree) ∧ s.phase ≠ .freq)
      ∨ ((∃ n sel, i = .readNode n sel) ∧ s.phase = .freq)
      ∨ (i = .genCodes ∧ s.phase ≠ .tree)
      ∨ (((∃ n, i = .readCodeLen n) ∨ ∃ n k, i = .readCodeWord n k) ∧ s.codesValid = false)
      ∨ (((∃ b, i = .encByte b) ∨ i = .encEnd) ∧ s.phase ∈ [.freq, .tree, .decoding, .done])
      ∨ (((∃ b, i = .decFeed b) ∨ i = .decEoi) ∧ s.phase ∈ [.freq, .encoding, .closed]) →
      exec i s = .next { s with errKind := .sequence, prevPhase := s.phase, errCmd := encode i, phase := .error })
    ∧ (((∃ b, i = .encByte b) ∨ i = .encEnd) ∧ s.phase = .closed →
      exec i s = .next { s with errKind := .writeAfterClose, prevPhase := s.phase, errCmd := encode i, phase := .error })

/-! ## Control -/

/-- R130: NOP has no effect, in any phase. -/
def Obligations.NopHasNoEffect : Prop :=
  ∀ s : State, exec .nop s = .next s

/-- R131: CLR, in every phase: these writes and no other; STATUS then reads 0. The model's own list of the bytes popped since the CLR
(R291, log 13) starts again. -/
def Obligations.ClrClears : Prop :=
  ∀ s : State, ∃ freq, exec .clr s = .next { s with
      freq := freq, hdrCnt := 0#9, treeValid := false, codesValid := false, root := 0#10, leaves := 0#9, pq := []
      wbuf := 0#7, wcnt := 0#3, dnode := 0#10, encBits := 0#32, decBytes := 0#32, trailing := false, out := []
      popped := [], result := 0#32, errKind := .none, prevPhase := .freq, errCmd := 0#32, phase := .freq }
    ∧ (∀ n < 256, freqAt { s with freq := freq } n = 0#32) ∧ freqAt { s with freq := freq } 256 = 1#32
    ∧ (s.cfg.ok = true → ∀ t, exec .clr s = .next t → statusWord t = 0#32)

/-! ## Frequency table -/

/-- R141: COUNT below FREQ_MAX adds one to its entry and changes nothing else; at FREQ_MAX it raises FREQ_OVERFLOW and leaves the
table. -/
def Obligations.CountAddsOneOrOverflows : Prop :=
  ∀ (s : State) (b : Byte), s.phase = .freq → s.cfg.ok = true →
    ((freqAt s b.toNat).toNat < s.cfg.freqMax →
      ∃ freq, exec (.count b) s = .next { s with freq := freq }
      ∧ ∀ n, (freqAt { s with freq := freq } n).toNat = (freqAt s n).toNat + if n = b.toNat then 1 else 0)
    ∧ ((freqAt s b.toNat).toNat = s.cfg.freqMax →
      exec (.count b) s = .next { s with
        errKind := .freqOverflow, prevPhase := .freq, errCmd := encode (.count b), phase := .error })

/-- R140: counting a sequence of bytes, with no count passing FREQ_MAX, adds to each entry how often its byte occurs, in any
order, and leaves the sentinel's. -/
def Obligations.CountsAccumulate : Prop :=
  ∀ (bytes : List Byte) (s : State), s.phase = .freq → s.cfg.ok = true →
    (∀ b : Byte, (freqAt s b.toNat).toNat + bytes.count b ≤ s.cfg.freqMax) →
    ∃ freq, execAll (bytes.map fun b => .count b) s = .next { s with freq := freq }
    ∧ (∀ b : Byte, (freqAt { s with freq := freq } b.toNat).toNat = (freqAt s b.toNat).toNat + bytes.count b)
    ∧ freqAt { s with freq := freq } 256 = freqAt s 256

/-- R142: LOAD_FREQ writes ARG at index HDR_CNT and counts it; a 258th value or one above FREQ_MAX is HEADER_CORRUPT. -/
def Obligations.LoadFreqLoads : Prop :=
  ∀ s : State, s.phase = .freq →
    (s.hdrCnt.toNat ≤ 256 → s.arg.toNat ≤ s.cfg.freqMax →
      ∃ freq, exec .loadFreq s = .next { s with freq := freq, hdrCnt := s.hdrCnt + 1#9 }
      ∧ ∀ n, freqAt { s with freq := freq } n = if n = s.hdrCnt.toNat then s.arg else freqAt s n)
    ∧ (s.hdrCnt.toNat = 257 ∨ s.cfg.freqMax < s.arg.toNat →
      exec .loadFreq s = .next { s with
        errKind := .headerCorrupt, prevPhase := .freq, errCmd := 0x03000000#32, phase := .error })

/-- R143: READ_FREQ answers with its entry, in every phase but ERROR; a symbol above 256 is BAD_OPERAND. -/
def Obligations.ReadFreqAnswers : Prop :=
  ∀ (s : State) (sym : Sym), s.phase ≠ .error →
    (sym.toNat ≤ 256 → exec (.readFreq sym) s = .next { s with result := freqAt s sym.toNat })
    ∧ (256 < sym.toNat → exec (.readFreq sym) s = .next { s with
        errKind := .badOperand, prevPhase := s.phase, errCmd := encode (.readFreq sym), phase := .error })

/-- R144: the header read from one table and loaded into a cleared one gives the same table, HDR_CNT = 257. -/
def Obligations.HeaderRoundTrip : Prop :=
  ∀ s u : State, (∀ n ≤ 256, (freqAt s n).toNat ≤ u.cfg.freqMax) → u.phase = .freq → u.hdrCnt = 0#9 →
    ∃ arg, loadAll (headerOf s) u = .next { u with freq := s.freq, hdrCnt := 257#9, arg := arg }

/-! ## Tree builder -/

/-- R161, R163: BUILD_TREE of a legal table completes: LEAVES counts the nonzero entries, ROOT is the last node made or the
sole leaf, DNODE stands on it, RESULT is LEAVES, and beside these only TREE_VALID, PHASE and the NODE entries of the nodes made
change. -/
def Obligations.BuildTreeCompletes : Prop :=
  ∀ s : State, s.phase = .freq → s.hdrCnt.toNat = 0 ∨ s.hdrCnt.toNat = 257 → freqAt s 256 ≠ 0#32 → s.pq = [] →
    ∃ node, ∃ root : NodeId, exec .buildTree s = .next { s with
      node := node, root := root, leaves := BitVec.ofNat 9 (leafSyms s).length, treeValid := true, dnode := root
      result := BitVec.ofNat 32 (leafSyms s).length, phase := .tree }
    ∧ root.toNat = (if (leafSyms s).length = 1 then 256 else 255 + (leafSyms s).length)
    ∧ ∀ n : NodeId, n.toNat ≤ 256 ∨ 255 + (leafSyms s).length < n.toNat → nodeIn node n = nodeAt s n

/-- R160, R161, R163, R166, R167: what BUILD_TREE builds is a full binary tree over the nonzero symbols: every internal node
has two children made before it and the sum of their weights, every other node but the root has exactly one parent. -/
def Obligations.BuildTreeMakesATree : Prop :=
  ∀ s t : State, s.phase = .freq → exec .buildTree s = .next t → t.phase = .tree → TreeOk t

/-- R161, R162: every merge takes the two first entries of the queue, the lesser to the left. Read in the order the nodes were
made, left before right, the children ascend by weight, and among equal weights by node id, which is their order of insertion. -/
def Obligations.BuildTreeMergesTheLeast : Prop :=
  ∀ s t : State, s.phase = .freq → exec .buildTree s = .next t → t.phase = .tree →
    (childIds t).Pairwise fun a b =>
      (weightOf t a).toNat < (weightOf t b).toNat ∨ (weightOf t a = weightOf t b ∧ a.toNat < b.toNat)

/-- R164: BUILD_TREE on equal FREQ tables writes equal NODE entries, ROOT and LEAVES. -/
def Obligations.BuildTreeDeterministic : Prop :=
  ∀ s s' t t' : State, s.freq = s'.freq → s.phase = .freq → s'.phase = .freq →
    exec .buildTree s = .next t → exec .buildTree s' = .next t' → t.phase = .tree → t'.phase = .tree →
    t.root = t'.root ∧ t.leaves = t'.leaves
    ∧ ∀ n : NodeId, 257 ≤ n.toNat → n.toNat ≤ 255 + t.leaves.toNat → nodeAt t n = nodeAt t' n

/-- R161: a header of wrong length, or a table without a sentinel, is HEADER_CORRUPT. -/
def Obligations.BuildTreeHeaderCorrupt : Prop :=
  ∀ s : State, s.phase = .freq → (s.hdrCnt.toNat ≠ 0 ∧ s.hdrCnt.toNat ≠ 257) ∨ freqAt s 256 = 0#32 →
    exec .buildTree s = .next { s with
      errKind := .headerCorrupt, prevPhase := .freq, errCmd := 0x10000000#32, phase := .error }

/-- R165: READ_NODE answers 0 for an absent node, else PRESENT, LEAF and the symbol, or the children, or the low or high part
of the weight; nothing but RESULT changes. A node above 512 or SEL = 3 is BAD_OPERAND. -/
def Obligations.ReadNodeAnswers : Prop :=
  ∀ (s : State) (n : NodeId) (sel : BitVec 2), s.phase ≠ .freq → s.phase ≠ .error →
    (n.toNat ≤ 512 → sel.toNat ≤ 2 →
      ∃ r : Word, exec (.readNode n sel) s = .next { s with result := r }
      ∧ r.toNat =
        if n.toNat ≤ 256 then
          if freqAt s n.toNat = 0#32 then 0
          else if sel.toNat = 0 then 2 ^ 31 + 2 ^ 30 + n.toNat
          else if sel.toNat = 1 then (freqAt s n.toNat).toNat
          else 0
        else if 255 + s.leaves.toNat < n.toNat then 0
        else if sel.toNat = 0 then 2 ^ 31 + 2 ^ 16 * (nodeAt s n).right.toNat + (nodeAt s n).left.toNat
        else if sel.toNat = 1 then (nodeAt s n).weight.toNat % 2 ^ 32
        else (nodeAt s n).weight.toNat / 2 ^ 32)
    ∧ (512 < n.toNat ∨ 2 < sel.toNat → exec (.readNode n sel) s = .next { s with
        errKind := .badOperand, prevPhase := s.phase, errCmd := encode (.readNode n sel), phase := .error })

/-- X1, R41: what NODE holds beyond the nodes present is not seen by any command: two states with the invariants that differ in
nothing else answer every command with states that differ in nothing else. READ_NODE does so in every state. -/
def Obligations.AbsentNodesUnseen : Prop :=
  ∀ (s : State) (m : Vector NodeEntry 256),
    (∀ k : NodeId, 257 ≤ k.toNat → k.toNat ≤ 255 + s.leaves.toNat → nodeIn m k = nodeAt s k) →
    (∀ (n : NodeId) (sel : BitVec 2) (t u : State),
      exec (.readNode n sel) s = .next t → exec (.readNode n sel) { s with node := m } = .next u → u = { t with node := m })
    ∧ (Inv s → TreeInv s → ∀ (i : Instr) (t u : State),
      exec i s = .next t → exec i { s with node := m } = .next u → u = { t with node := u.node }
      ∧ ∀ k : NodeId, 257 ≤ k.toNat → k.toNat ≤ 255 + t.leaves.toNat → nodeAt u k = nodeAt t k)

/-! ## Code table -/

/-- R181: GEN_CODES in phase TREE completes: CODE, CODES_VALID, PHASE and RESULT change, RESULT being the longest length. -/
def Obligations.GenCodesCompletes : Prop :=
  ∀ s : State, s.phase = .tree →
    ∃ code, ∃ r : Word, exec .genCodes s = .next { s with code := code, codesValid := true, result := r, phase := .codes }
    ∧ (∀ n ≤ 256, (codeIn code n).len.toNat ≤ r.toNat) ∧ ∃ n ≤ 256, (codeIn code n).len.toNat = r.toNat

/-- R181, R182: the code of every leaf of the tree is the path from the root to it, the one-bit code 0 when the leaf is the
root; every other symbol is absent. -/
def Obligations.GenCodesArePaths : Prop :=
  ∀ s t : State, TreeOk s → s.phase = .tree → exec .genCodes s = .next t → CodesOk t

/-- R182: the degenerate code table is CODE[256] = "0", every other entry absent. -/
def Obligations.DegenerateCode : Prop :=
  ∀ s t : State, s.phase = .tree → s.root = 256#10 → exec .genCodes s = .next t →
    codeOfSym t 256 = [false] ∧ ∀ n < 256, codeOfSym t n = []

/-- R183: every present leaf has a code of length at least 1, and no code is a prefix of another symbol's. -/
def Obligations.PrefixFree : Prop :=
  ∀ s : State, TreeOk s → CodesOk s →
    (∀ n ≤ 256, freqAt s n ≠ 0#32 → codeOfSym s n ≠ [])
    ∧ ∀ n m, n ≤ 256 → m ≤ 256 → n ≠ m → codeOfSym s n ≠ [] → codeOfSym s m ≠ [] → ¬ codeOfSym s n <+: codeOfSym s m

/-- R184: READ_CODE_LEN answers with the length of the code; nothing but RESULT changes. A symbol above 256 is BAD_OPERAND,
whether or not there are codes. -/
def Obligations.ReadCodeLenAnswers : Prop :=
  ∀ (s : State) (sym : Sym), s.phase ≠ .error →
    (s.codesValid = true → sym.toNat ≤ 256 →
      exec (.readCodeLen sym) s = .next { s with result := BitVec.ofNat 32 (codeOfSym s sym.toNat).length })
    ∧ (256 < sym.toNat → exec (.readCodeLen sym) s = .next { s with
        errKind := .badOperand, prevPhase := s.phase, errCmd := encode (.readCodeLen sym), phase := .error })

/-- R185: READ_CODE_WORD answers with bits 32k to 32k+31 of the code, the first in bit 31, 0 past the end of the code;
nothing but RESULT changes. A symbol above 256 is BAD_OPERAND, whether or not there are codes. -/
def Obligations.ReadCodeWordAnswers : Prop :=
  ∀ (s : State) (sym : Sym) (k : BitVec 3), s.phase ≠ .error →
    (s.codesValid = true → sym.toNat ≤ 256 → codeCanonical (codeAt s sym.toNat) = true →
      ∃ r : Word, exec (.readCodeWord sym k) s = .next { s with result := r }
      ∧ ∀ j < 32, r.getLsbD (31 - j) = (codeOfSym s sym.toNat).getD (32 * k.toNat + j) false)
    ∧ (256 < sym.toNat → exec (.readCodeWord sym k) s = .next { s with
        errKind := .badOperand, prevPhase := s.phase, errCmd := encode (.readCodeWord sym k), phase := .error })

/-! ## Encoder -/

/-- R203: ENC_BYTE writes the code of its byte after everything written so far; ENC_BITS counts it; the writer, OUT and PHASE
change beside. -/
def Obligations.EncByteWritesTheCode : Prop :=
  ∀ (s : State) (b : Byte), s.phase = .codes ∨ s.phase = .encoding → s.wbuf.toNat < 2 ^ s.wcnt.toNat →
    codeOfSym s b.toNat ≠ [] →
    ∃ wbuf wcnt out, exec (.encByte b) s = .next { s with
        wbuf := wbuf, wcnt := wcnt, out := out, phase := .encoding
        encBits := s.encBits + BitVec.ofNat 32 (codeOfSym s b.toNat).length }
    ∧ writtenBits { s with wbuf := wbuf, wcnt := wcnt, out := out } = writtenBits s ++ codeOfSym s b.toNat
    ∧ s.out <+: out

/-- R203: ENC_BYTE of a byte without a code is SYMBOL_NOT_IN_TREE and changes no writer state. -/
def Obligations.EncByteOfAbsentSymbol : Prop :=
  ∀ (s : State) (b : Byte), s.phase = .codes ∨ s.phase = .encoding → codeOfSym s b.toNat = [] →
    exec (.encByte b) s = .next { s with
      errKind := .symbolNotInTree, prevPhase := s.phase, errCmd := encode (.encByte b), phase := .error }

/-- R202, R204: ENC_END writes the sentinel's code and closes the writer: what was pending is completed with fewer than eight
0 bits, and no bit stays pending. -/
def Obligations.EncEndClosesTheWriter : Prop :=
  ∀ s : State, s.phase = .codes ∨ s.phase = .encoding → s.wbuf.toNat < 2 ^ s.wcnt.toNat → codeOfSym s 256 ≠ [] →
    ∃ out pad, exec .encEnd s = .next { s with
        wbuf := 0#7, wcnt := 0#3, out := out, phase := .closed
        encBits := s.encBits + BitVec.ofNat 32 (codeOfSym s 256).length }
    ∧ bytesBits out = writtenBits s ++ codeOfSym s 256 ++ pad ∧ pad.length < 8 ∧ (∀ x ∈ pad, x = false)

/-- R206, R207: encoding bytes that all have codes and ending gives their codes in input order, then the sentinel's, once, then
fewer than eight 0 bits. -/
def Obligations.EncodedBody : Prop :=
  ∀ (bytes : List Byte) (s : State), s.phase = .codes → s.wcnt = 0#3 → s.wbuf = 0#7 →
    (∀ b ∈ bytes, codeOfSym s b.toNat ≠ []) → codeOfSym s 256 ≠ [] →
    ∃ t pad, execAll (bytes.map (fun b => .encByte b) ++ [.encEnd]) s = .next t ∧ t.phase = .closed ∧ t.wcnt = 0#3
    ∧ bytesBits t.out = bytesBits s.out ++ messageBits s bytes ++ pad ∧ pad.length < 8 ∧ (∀ x ∈ pad, x = false)
    ∧ t.encBits = s.encBits + BitVec.ofNat 32 (messageBits s bytes).length ∧ t.popped = s.popped

/-! ## Decoder -/

/-- R222: DEC_FEED of a tree that is not degenerate completes, wherever DNODE stands: the walk takes the byte's bits from the most
significant down, the bytes of the leaves it reaches are pushed and counted, DNODE is where it ends, inside a code, at the root or at
the sentinel, and PHASE is DONE at the sentinel and DECODING elsewhere. Nothing else changes. -/
def Obligations.DecFeedCompletes : Prop :=
  ∀ (s : State) (b : Byte), s.phase = .tree ∨ s.phase = .codes ∨ s.phase = .decoding → 256 < s.root.toNat →
    ∃ bytes n, walkFrom s s.dnode ((List.range 8).map fun k => b.getLsbD (7 - k)) = (bytes, n)
    ∧ exec (.decFeed b) s = .next { s with
        dnode := n, phase := if n = 256#10 then .done else .decoding, out := s.out ++ bytes
        decBytes := s.decBytes + BitVec.ofNat 32 bytes.length }
    ∧ bytes.length ≤ 8 ∧ 256 ≤ n.toNat

/-- R223: DEC_FEED in phase DONE discards the byte and sets TRAILING, nothing else. -/
def Obligations.DecFeedAfterDone : Prop :=
  ∀ (s : State) (b : Byte), s.phase = .done → exec (.decFeed b) s = .next { s with trailing := true }

/-- R224: the degenerate tree. A first bit 1 is INVALID_CODE; a first bit 0 is the sentinel's code, and the other bits are
padding. -/
def Obligations.DecFeedDegenerate : Prop :=
  ∀ (s : State) (b : Byte), s.phase = .tree ∨ s.phase = .codes → s.root = 256#10 →
    (b.toNat < 128 → exec (.decFeed b) s = .next { s with phase := .done })
    ∧ (128 ≤ b.toNat → exec (.decFeed b) s = .next { s with
        errKind := .invalidCode, prevPhase := s.phase, errCmd := encode (.decFeed b), phase := .error })

/-- R225: DEC_EOI has no effect in DONE; before the sentinel it is TRUNCATED_STREAM. -/
def Obligations.DecEoiChecksTheEnd : Prop :=
  ∀ s : State, (s.phase = .done → exec .decEoi s = .next s)
    ∧ (s.phase = .tree ∨ s.phase = .codes ∨ s.phase = .decoding → exec .decEoi s = .next { s with
        errKind := .truncatedStream, prevPhase := s.phase, errCmd := 0x41000000#32, phase := .error })

/-- R222, R228: feeding a body whose bits are the paths to some byte leaves, then the path to the sentinel, then fewer than eight
bits of padding, emits exactly those bytes in order and ends in DONE at the sentinel; the padding is never read. -/
def Obligations.DecodedBody : Prop :=
  ∀ (s : State) (code : Nat → List Bool) (bytes body : List Byte) (pad : List Bool),
    s.phase = .tree ∨ s.phase = .codes ∨ s.phase = .decoding → 256 < s.root.toNat → s.dnode = s.root →
    (∀ b ∈ bytes, leadsTo s s.root (code b.toNat) (BitVec.ofNat 10 b.toNat) = true) →
    leadsTo s s.root (code 256) 256#10 = true →
    pad.length < 8 → bytesBits body = bytes.flatMap (fun b => code b.toNat) ++ code 256 ++ pad →
    execAll (body.map fun d => .decFeed d) s = .next { s with
      dnode := 256#10, phase := .done, out := s.out ++ bytes
      decBytes := s.decBytes + BitVec.ofNat 32 bytes.length }

/-! ## The round trip -/

/-- R227: encode any bytes from any state, carry the header across, decode the body from any other state: the decoder reaches DONE
within the last body byte having emitted exactly the bytes, and no command raises an error. Nothing has been popped on either side
since the CLR, so the FIFOs hold the whole body and the whole output (R291). -/
def Obligations.DecodeUndoesEncodeOfBytes : Prop :=
  ∀ (bytes : List Byte) (s u : State), s.cfg.ok = true → u.cfg = s.cfg → (∀ b : Byte, bytes.count b ≤ s.cfg.freqMax) →
    ∃ e, execAll (.clr :: (bytes.map (fun b => .count b) ++ [.buildTree, .genCodes] ++ bytes.map (fun b => .encByte b)
        ++ [.encEnd])) s = .next e ∧ e.phase = .closed
    ∧ ∃ c, exec .clr u = .next c
    ∧ ∃ h, loadAll (headerOf e) c = .next h
    ∧ ∃ d, execAll (.buildTree :: (e.out.map (fun b => .decFeed b) ++ [.decEoi])) h = .next d
    ∧ d.phase = .done ∧ d.out = bytes ∧ d.trailing = false ∧ e.popped = [] ∧ d.popped = []
end

