-- ==== Sys2Proof/Laws/State.lean ====
section
/-! SUPPORT. One lemma per field of State per update of the shared operations, each true by unfolding, so that no later proof
unfolds a record update. -/

namespace Sys2Proof.Machine

open Sys2Proof

/-! ### `raise`: four writes (R245) -/

@[simp] theorem raise_cfg (e : ErrKind) (w : Word) (s : State) : (raise e w s).cfg = s.cfg := rfl
@[simp] theorem raise_pend (e : ErrKind) (w : Word) (s : State) : (raise e w s).pend = s.pend := rfl
@[simp] theorem raise_arg (e : ErrKind) (w : Word) (s : State) : (raise e w s).arg = s.arg := rfl
@[simp] theorem raise_irqEn (e : ErrKind) (w : Word) (s : State) : (raise e w s).irqEn = s.irqEn := rfl
@[simp] theorem raise_result (e : ErrKind) (w : Word) (s : State) : (raise e w s).result = s.result := rfl
@[simp] theorem raise_phase (e : ErrKind) (w : Word) (s : State) : (raise e w s).phase = .error := rfl
@[simp] theorem raise_errKind (e : ErrKind) (w : Word) (s : State) : (raise e w s).errKind = e := rfl
@[simp] theorem raise_prevPhase (e : ErrKind) (w : Word) (s : State) : (raise e w s).prevPhase = s.phase := rfl
@[simp] theorem raise_errCmd (e : ErrKind) (w : Word) (s : State) : (raise e w s).errCmd = w := rfl
@[simp] theorem raise_freq (e : ErrKind) (w : Word) (s : State) : (raise e w s).freq = s.freq := rfl
@[simp] theorem raise_hdrCnt (e : ErrKind) (w : Word) (s : State) : (raise e w s).hdrCnt = s.hdrCnt := rfl
@[simp] theorem raise_treeValid (e : ErrKind) (w : Word) (s : State) : (raise e w s).treeValid = s.treeValid := rfl
@[simp] theorem raise_codesValid (e : ErrKind) (w : Word) (s : State) : (raise e w s).codesValid = s.codesValid := rfl
@[simp] theorem raise_root (e : ErrKind) (w : Word) (s : State) : (raise e w s).root = s.root := rfl
@[simp] theorem raise_leaves (e : ErrKind) (w : Word) (s : State) : (raise e w s).leaves = s.leaves := rfl
@[simp] theorem raise_node (e : ErrKind) (w : Word) (s : State) : (raise e w s).node = s.node := rfl
@[simp] theorem raise_code (e : ErrKind) (w : Word) (s : State) : (raise e w s).code = s.code := rfl
@[simp] theorem raise_pq (e : ErrKind) (w : Word) (s : State) : (raise e w s).pq = s.pq := rfl
@[simp] theorem raise_wbuf (e : ErrKind) (w : Word) (s : State) : (raise e w s).wbuf = s.wbuf := rfl
@[simp] theorem raise_wcnt (e : ErrKind) (w : Word) (s : State) : (raise e w s).wcnt = s.wcnt := rfl
@[simp] theorem raise_dnode (e : ErrKind) (w : Word) (s : State) : (raise e w s).dnode = s.dnode := rfl
@[simp] theorem raise_encBits (e : ErrKind) (w : Word) (s : State) : (raise e w s).encBits = s.encBits := rfl
@[simp] theorem raise_decBytes (e : ErrKind) (w : Word) (s : State) : (raise e w s).decBytes = s.decBytes := rfl
@[simp] theorem raise_trailing (e : ErrKind) (w : Word) (s : State) : (raise e w s).trailing = s.trailing := rfl
@[simp] theorem raise_out (e : ErrKind) (w : Word) (s : State) : (raise e w s).out = s.out := rfl
@[simp] theorem raise_inputs (e : ErrKind) (w : Word) (s : State) : (raise e w s).inputs = s.inputs := rfl
@[simp] theorem raise_hostReads (e : ErrKind) (w : Word) (s : State) : (raise e w s).hostReads = s.hostReads := rfl
@[simp] theorem raise_popped (e : ErrKind) (w : Word) (s : State) : (raise e w s).popped = s.popped := rfl
@[simp] theorem raise_freeCount (e : ErrKind) (w : Word) (s : State) : (raise e w s).freeCount = s.freeCount := rfl

/-! ### `pushOut`: the tail of OUT (R80) -/

@[simp] theorem pushOut_cfg (b : Byte) (s : State) : (pushOut b s).cfg = s.cfg := rfl
@[simp] theorem pushOut_pend (b : Byte) (s : State) : (pushOut b s).pend = s.pend := rfl
@[simp] theorem pushOut_arg (b : Byte) (s : State) : (pushOut b s).arg = s.arg := rfl
@[simp] theorem pushOut_irqEn (b : Byte) (s : State) : (pushOut b s).irqEn = s.irqEn := rfl
@[simp] theorem pushOut_result (b : Byte) (s : State) : (pushOut b s).result = s.result := rfl
@[simp] theorem pushOut_phase (b : Byte) (s : State) : (pushOut b s).phase = s.phase := rfl
@[simp] theorem pushOut_errKind (b : Byte) (s : State) : (pushOut b s).errKind = s.errKind := rfl
@[simp] theorem pushOut_prevPhase (b : Byte) (s : State) : (pushOut b s).prevPhase = s.prevPhase := rfl
@[simp] theorem pushOut_errCmd (b : Byte) (s : State) : (pushOut b s).errCmd = s.errCmd := rfl
@[simp] theorem pushOut_freq (b : Byte) (s : State) : (pushOut b s).freq = s.freq := rfl
@[simp] theorem pushOut_hdrCnt (b : Byte) (s : State) : (pushOut b s).hdrCnt = s.hdrCnt := rfl
@[simp] theorem pushOut_treeValid (b : Byte) (s : State) : (pushOut b s).treeValid = s.treeValid := rfl
@[simp] theorem pushOut_codesValid (b : Byte) (s : State) : (pushOut b s).codesValid = s.codesValid := rfl
@[simp] theorem pushOut_root (b : Byte) (s : State) : (pushOut b s).root = s.root := rfl
@[simp] theorem pushOut_leaves (b : Byte) (s : State) : (pushOut b s).leaves = s.leaves := rfl
@[simp] theorem pushOut_node (b : Byte) (s : State) : (pushOut b s).node = s.node := rfl
@[simp] theorem pushOut_code (b : Byte) (s : State) : (pushOut b s).code = s.code := rfl
@[simp] theorem pushOut_pq (b : Byte) (s : State) : (pushOut b s).pq = s.pq := rfl
@[simp] theorem pushOut_wbuf (b : Byte) (s : State) : (pushOut b s).wbuf = s.wbuf := rfl
@[simp] theorem pushOut_wcnt (b : Byte) (s : State) : (pushOut b s).wcnt = s.wcnt := rfl
@[simp] theorem pushOut_dnode (b : Byte) (s : State) : (pushOut b s).dnode = s.dnode := rfl
@[simp] theorem pushOut_encBits (b : Byte) (s : State) : (pushOut b s).encBits = s.encBits := rfl
@[simp] theorem pushOut_decBytes (b : Byte) (s : State) : (pushOut b s).decBytes = s.decBytes := rfl
@[simp] theorem pushOut_trailing (b : Byte) (s : State) : (pushOut b s).trailing = s.trailing := rfl
@[simp] theorem pushOut_out (b : Byte) (s : State) : (pushOut b s).out = s.out ++ [b] := rfl
@[simp] theorem pushOut_inputs (b : Byte) (s : State) : (pushOut b s).inputs = s.inputs := rfl
@[simp] theorem pushOut_hostReads (b : Byte) (s : State) : (pushOut b s).hostReads = s.hostReads := rfl
@[simp] theorem pushOut_popped (b : Byte) (s : State) : (pushOut b s).popped = s.popped := rfl
@[simp] theorem pushOut_freeCount (b : Byte) (s : State) : (pushOut b s).freeCount = s.freeCount := rfl

/-! ### `popOut`: the head of OUT (R81), recorded as popped (R291) -/

@[simp] theorem popOut_cfg (s : State) : (popOut s).cfg = s.cfg := rfl
@[simp] theorem popOut_pend (s : State) : (popOut s).pend = s.pend := rfl
@[simp] theorem popOut_arg (s : State) : (popOut s).arg = s.arg := rfl
@[simp] theorem popOut_irqEn (s : State) : (popOut s).irqEn = s.irqEn := rfl
@[simp] theorem popOut_result (s : State) : (popOut s).result = s.result := rfl
@[simp] theorem popOut_phase (s : State) : (popOut s).phase = s.phase := rfl
@[simp] theorem popOut_errKind (s : State) : (popOut s).errKind = s.errKind := rfl
@[simp] theorem popOut_prevPhase (s : State) : (popOut s).prevPhase = s.prevPhase := rfl
@[simp] theorem popOut_errCmd (s : State) : (popOut s).errCmd = s.errCmd := rfl
@[simp] theorem popOut_freq (s : State) : (popOut s).freq = s.freq := rfl
@[simp] theorem popOut_hdrCnt (s : State) : (popOut s).hdrCnt = s.hdrCnt := rfl
@[simp] theorem popOut_treeValid (s : State) : (popOut s).treeValid = s.treeValid := rfl
@[simp] theorem popOut_codesValid (s : State) : (popOut s).codesValid = s.codesValid := rfl
@[simp] theorem popOut_root (s : State) : (popOut s).root = s.root := rfl
@[simp] theorem popOut_leaves (s : State) : (popOut s).leaves = s.leaves := rfl
@[simp] theorem popOut_node (s : State) : (popOut s).node = s.node := rfl
@[simp] theorem popOut_code (s : State) : (popOut s).code = s.code := rfl
@[simp] theorem popOut_pq (s : State) : (popOut s).pq = s.pq := rfl
@[simp] theorem popOut_wbuf (s : State) : (popOut s).wbuf = s.wbuf := rfl
@[simp] theorem popOut_wcnt (s : State) : (popOut s).wcnt = s.wcnt := rfl
@[simp] theorem popOut_dnode (s : State) : (popOut s).dnode = s.dnode := rfl
@[simp] theorem popOut_encBits (s : State) : (popOut s).encBits = s.encBits := rfl
@[simp] theorem popOut_decBytes (s : State) : (popOut s).decBytes = s.decBytes := rfl
@[simp] theorem popOut_trailing (s : State) : (popOut s).trailing = s.trailing := rfl
@[simp] theorem popOut_out (s : State) : (popOut s).out = s.out.tail := rfl
@[simp] theorem popOut_inputs (s : State) : (popOut s).inputs = s.inputs := rfl
@[simp] theorem popOut_hostReads (s : State) : (popOut s).hostReads = s.hostReads := rfl
@[simp] theorem popOut_popped (s : State) : (popOut s).popped = s.popped ++ s.out.take 1 := rfl
@[simp] theorem popOut_freeCount (s : State) : (popOut s).freeCount = s.freeCount := rfl

/-! ### `setFreq`: one entry of FREQ (R40) -/

@[simp] theorem setFreq_cfg (n : Nat) (v : Word) (s : State) : (setFreq n v s).cfg = s.cfg := rfl
@[simp] theorem setFreq_pend (n : Nat) (v : Word) (s : State) : (setFreq n v s).pend = s.pend := rfl
@[simp] theorem setFreq_arg (n : Nat) (v : Word) (s : State) : (setFreq n v s).arg = s.arg := rfl
@[simp] theorem setFreq_irqEn (n : Nat) (v : Word) (s : State) : (setFreq n v s).irqEn = s.irqEn := rfl
@[simp] theorem setFreq_result (n : Nat) (v : Word) (s : State) : (setFreq n v s).result = s.result := rfl
@[simp] theorem setFreq_phase (n : Nat) (v : Word) (s : State) : (setFreq n v s).phase = s.phase := rfl
@[simp] theorem setFreq_errKind (n : Nat) (v : Word) (s : State) : (setFreq n v s).errKind = s.errKind := rfl
@[simp] theorem setFreq_prevPhase (n : Nat) (v : Word) (s : State) : (setFreq n v s).prevPhase = s.prevPhase := rfl
@[simp] theorem setFreq_errCmd (n : Nat) (v : Word) (s : State) : (setFreq n v s).errCmd = s.errCmd := rfl
@[simp] theorem setFreq_freq (n : Nat) (v : Word) (s : State) : (setFreq n v s).freq = if h : n < 257 then s.freq.set n v else s.freq := rfl
@[simp] theorem setFreq_hdrCnt (n : Nat) (v : Word) (s : State) : (setFreq n v s).hdrCnt = s.hdrCnt := rfl
@[simp] theorem setFreq_treeValid (n : Nat) (v : Word) (s : State) : (setFreq n v s).treeValid = s.treeValid := rfl
@[simp] theorem setFreq_codesValid (n : Nat) (v : Word) (s : State) : (setFreq n v s).codesValid = s.codesValid := rfl
@[simp] theorem setFreq_root (n : Nat) (v : Word) (s : State) : (setFreq n v s).root = s.root := rfl
@[simp] theorem setFreq_leaves (n : Nat) (v : Word) (s : State) : (setFreq n v s).leaves = s.leaves := rfl
@[simp] theorem setFreq_node (n : Nat) (v : Word) (s : State) : (setFreq n v s).node = s.node := rfl
@[simp] theorem setFreq_code (n : Nat) (v : Word) (s : State) : (setFreq n v s).code = s.code := rfl
@[simp] theorem setFreq_pq (n : Nat) (v : Word) (s : State) : (setFreq n v s).pq = s.pq := rfl
@[simp] theorem setFreq_wbuf (n : Nat) (v : Word) (s : State) : (setFreq n v s).wbuf = s.wbuf := rfl
@[simp] theorem setFreq_wcnt (n : Nat) (v : Word) (s : State) : (setFreq n v s).wcnt = s.wcnt := rfl
@[simp] theorem setFreq_dnode (n : Nat) (v : Word) (s : State) : (setFreq n v s).dnode = s.dnode := rfl
@[simp] theorem setFreq_encBits (n : Nat) (v : Word) (s : State) : (setFreq n v s).encBits = s.encBits := rfl
@[simp] theorem setFreq_decBytes (n : Nat) (v : Word) (s : State) : (setFreq n v s).decBytes = s.decBytes := rfl
@[simp] theorem setFreq_trailing (n : Nat) (v : Word) (s : State) : (setFreq n v s).trailing = s.trailing := rfl
@[simp] theorem setFreq_out (n : Nat) (v : Word) (s : State) : (setFreq n v s).out = s.out := rfl
@[simp] theorem setFreq_inputs (n : Nat) (v : Word) (s : State) : (setFreq n v s).inputs = s.inputs := rfl
@[simp] theorem setFreq_hostReads (n : Nat) (v : Word) (s : State) : (setFreq n v s).hostReads = s.hostReads := rfl
@[simp] theorem setFreq_popped (n : Nat) (v : Word) (s : State) : (setFreq n v s).popped = s.popped := rfl
@[simp] theorem setFreq_freeCount (n : Nat) (v : Word) (s : State) : (setFreq n v s).freeCount = s.freeCount := rfl

/-! ### `clear`: what CLR writes (R131) -/

@[simp] theorem clear_cfg (s : State) : (clear s).cfg = s.cfg := rfl
@[simp] theorem clear_pend (s : State) : (clear s).pend = s.pend := rfl
@[simp] theorem clear_arg (s : State) : (clear s).arg = s.arg := rfl
@[simp] theorem clear_irqEn (s : State) : (clear s).irqEn = s.irqEn := rfl
@[simp] theorem clear_result (s : State) : (clear s).result = 0#32 := rfl
@[simp] theorem clear_phase (s : State) : (clear s).phase = .freq := rfl
@[simp] theorem clear_errKind (s : State) : (clear s).errKind = .none := rfl
@[simp] theorem clear_prevPhase (s : State) : (clear s).prevPhase = .freq := rfl
@[simp] theorem clear_errCmd (s : State) : (clear s).errCmd = 0#32 := rfl
@[simp] theorem clear_freq (s : State) : (clear s).freq = State.emptyFreq := rfl
@[simp] theorem clear_hdrCnt (s : State) : (clear s).hdrCnt = 0#9 := rfl
@[simp] theorem clear_treeValid (s : State) : (clear s).treeValid = false := rfl
@[simp] theorem clear_codesValid (s : State) : (clear s).codesValid = false := rfl
@[simp] theorem clear_root (s : State) : (clear s).root = 0#10 := rfl
@[simp] theorem clear_leaves (s : State) : (clear s).leaves = 0#9 := rfl
@[simp] theorem clear_node (s : State) : (clear s).node = s.node := rfl
@[simp] theorem clear_code (s : State) : (clear s).code = s.code := rfl
@[simp] theorem clear_pq (s : State) : (clear s).pq = [] := rfl
@[simp] theorem clear_wbuf (s : State) : (clear s).wbuf = 0#7 := rfl
@[simp] theorem clear_wcnt (s : State) : (clear s).wcnt = 0#3 := rfl
@[simp] theorem clear_dnode (s : State) : (clear s).dnode = 0#10 := rfl
@[simp] theorem clear_encBits (s : State) : (clear s).encBits = 0#32 := rfl
@[simp] theorem clear_decBytes (s : State) : (clear s).decBytes = 0#32 := rfl
@[simp] theorem clear_trailing (s : State) : (clear s).trailing = false := rfl
@[simp] theorem clear_out (s : State) : (clear s).out = [] := rfl
@[simp] theorem clear_inputs (s : State) : (clear s).inputs = s.inputs := rfl
@[simp] theorem clear_hostReads (s : State) : (clear s).hostReads = s.hostReads := rfl
@[simp] theorem clear_popped (s : State) : (clear s).popped = [] := rfl
@[simp] theorem clear_freeCount (s : State) : (clear s).freeCount = s.freeCount := rfl

/-! ### `hardReset`: the reset column (R270, R50) -/

@[simp] theorem hardReset_cfg (s : State) : (hardReset s).cfg = s.cfg := rfl
@[simp] theorem hardReset_pend (s : State) : (hardReset s).pend = none := rfl
@[simp] theorem hardReset_arg (s : State) : (hardReset s).arg = 0#32 := rfl
@[simp] theorem hardReset_irqEn (s : State) : (hardReset s).irqEn = 0#3 := rfl
@[simp] theorem hardReset_result (s : State) : (hardReset s).result = 0#32 := rfl
@[simp] theorem hardReset_phase (s : State) : (hardReset s).phase = .freq := rfl
@[simp] theorem hardReset_errKind (s : State) : (hardReset s).errKind = .none := rfl
@[simp] theorem hardReset_prevPhase (s : State) : (hardReset s).prevPhase = .freq := rfl
@[simp] theorem hardReset_errCmd (s : State) : (hardReset s).errCmd = 0#32 := rfl
@[simp] theorem hardReset_freq (s : State) : (hardReset s).freq = State.emptyFreq := rfl
@[simp] theorem hardReset_hdrCnt (s : State) : (hardReset s).hdrCnt = 0#9 := rfl
@[simp] theorem hardReset_treeValid (s : State) : (hardReset s).treeValid = false := rfl
@[simp] theorem hardReset_codesValid (s : State) : (hardReset s).codesValid = false := rfl
@[simp] theorem hardReset_root (s : State) : (hardReset s).root = 0#10 := rfl
@[simp] theorem hardReset_leaves (s : State) : (hardReset s).leaves = 0#9 := rfl
@[simp] theorem hardReset_node (s : State) : (hardReset s).node = Config.nodeAfterReset s.freeCount := rfl
@[simp] theorem hardReset_code (s : State) : (hardReset s).code = Config.codeAfterReset s.freeCount := rfl
@[simp] theorem hardReset_pq (s : State) : (hardReset s).pq = [] := rfl
@[simp] theorem hardReset_wbuf (s : State) : (hardReset s).wbuf = 0#7 := rfl
@[simp] theorem hardReset_wcnt (s : State) : (hardReset s).wcnt = 0#3 := rfl
@[simp] theorem hardReset_dnode (s : State) : (hardReset s).dnode = 0#10 := rfl
@[simp] theorem hardReset_encBits (s : State) : (hardReset s).encBits = 0#32 := rfl
@[simp] theorem hardReset_decBytes (s : State) : (hardReset s).decBytes = 0#32 := rfl
@[simp] theorem hardReset_trailing (s : State) : (hardReset s).trailing = false := rfl
@[simp] theorem hardReset_out (s : State) : (hardReset s).out = [] := rfl
@[simp] theorem hardReset_inputs (s : State) : (hardReset s).inputs = s.inputs := rfl
@[simp] theorem hardReset_hostReads (s : State) : (hardReset s).hostReads = s.hostReads := rfl
@[simp] theorem hardReset_popped (s : State) : (hardReset s).popped = [] := rfl
@[simp] theorem hardReset_freeCount (s : State) : (hardReset s).freeCount = s.freeCount + 1 := rfl

/-! ### `moveTo`: DNODE (R222) -/

@[simp] theorem moveTo_cfg (n : NodeId) (s : State) : (moveTo n s).cfg = s.cfg := rfl
@[simp] theorem moveTo_pend (n : NodeId) (s : State) : (moveTo n s).pend = s.pend := rfl
@[simp] theorem moveTo_arg (n : NodeId) (s : State) : (moveTo n s).arg = s.arg := rfl
@[simp] theorem moveTo_irqEn (n : NodeId) (s : State) : (moveTo n s).irqEn = s.irqEn := rfl
@[simp] theorem moveTo_result (n : NodeId) (s : State) : (moveTo n s).result = s.result := rfl
@[simp] theorem moveTo_phase (n : NodeId) (s : State) : (moveTo n s).phase = s.phase := rfl
@[simp] theorem moveTo_errKind (n : NodeId) (s : State) : (moveTo n s).errKind = s.errKind := rfl
@[simp] theorem moveTo_prevPhase (n : NodeId) (s : State) : (moveTo n s).prevPhase = s.prevPhase := rfl
@[simp] theorem moveTo_errCmd (n : NodeId) (s : State) : (moveTo n s).errCmd = s.errCmd := rfl
@[simp] theorem moveTo_freq (n : NodeId) (s : State) : (moveTo n s).freq = s.freq := rfl
@[simp] theorem moveTo_hdrCnt (n : NodeId) (s : State) : (moveTo n s).hdrCnt = s.hdrCnt := rfl
@[simp] theorem moveTo_treeValid (n : NodeId) (s : State) : (moveTo n s).treeValid = s.treeValid := rfl
@[simp] theorem moveTo_codesValid (n : NodeId) (s : State) : (moveTo n s).codesValid = s.codesValid := rfl
@[simp] theorem moveTo_root (n : NodeId) (s : State) : (moveTo n s).root = s.root := rfl
@[simp] theorem moveTo_leaves (n : NodeId) (s : State) : (moveTo n s).leaves = s.leaves := rfl
@[simp] theorem moveTo_node (n : NodeId) (s : State) : (moveTo n s).node = s.node := rfl
@[simp] theorem moveTo_code (n : NodeId) (s : State) : (moveTo n s).code = s.code := rfl
@[simp] theorem moveTo_pq (n : NodeId) (s : State) : (moveTo n s).pq = s.pq := rfl
@[simp] theorem moveTo_wbuf (n : NodeId) (s : State) : (moveTo n s).wbuf = s.wbuf := rfl
@[simp] theorem moveTo_wcnt (n : NodeId) (s : State) : (moveTo n s).wcnt = s.wcnt := rfl
@[simp] theorem moveTo_dnode (n : NodeId) (s : State) : (moveTo n s).dnode = n := rfl
@[simp] theorem moveTo_encBits (n : NodeId) (s : State) : (moveTo n s).encBits = s.encBits := rfl
@[simp] theorem moveTo_decBytes (n : NodeId) (s : State) : (moveTo n s).decBytes = s.decBytes := rfl
@[simp] theorem moveTo_trailing (n : NodeId) (s : State) : (moveTo n s).trailing = s.trailing := rfl
@[simp] theorem moveTo_out (n : NodeId) (s : State) : (moveTo n s).out = s.out := rfl
@[simp] theorem moveTo_inputs (n : NodeId) (s : State) : (moveTo n s).inputs = s.inputs := rfl
@[simp] theorem moveTo_hostReads (n : NodeId) (s : State) : (moveTo n s).hostReads = s.hostReads := rfl
@[simp] theorem moveTo_popped (n : NodeId) (s : State) : (moveTo n s).popped = s.popped := rfl
@[simp] theorem moveTo_freeCount (n : NodeId) (s : State) : (moveTo n s).freeCount = s.freeCount := rfl

/-! ### `emitLeaf`: a byte, its count, back to the root (R222) -/

@[simp] theorem emitLeaf_cfg (n : NodeId) (s : State) : (emitLeaf n s).cfg = s.cfg := rfl
@[simp] theorem emitLeaf_pend (n : NodeId) (s : State) : (emitLeaf n s).pend = s.pend := rfl
@[simp] theorem emitLeaf_arg (n : NodeId) (s : State) : (emitLeaf n s).arg = s.arg := rfl
@[simp] theorem emitLeaf_irqEn (n : NodeId) (s : State) : (emitLeaf n s).irqEn = s.irqEn := rfl
@[simp] theorem emitLeaf_result (n : NodeId) (s : State) : (emitLeaf n s).result = s.result := rfl
@[simp] theorem emitLeaf_phase (n : NodeId) (s : State) : (emitLeaf n s).phase = s.phase := rfl
@[simp] theorem emitLeaf_errKind (n : NodeId) (s : State) : (emitLeaf n s).errKind = s.errKind := rfl
@[simp] theorem emitLeaf_prevPhase (n : NodeId) (s : State) : (emitLeaf n s).prevPhase = s.prevPhase := rfl
@[simp] theorem emitLeaf_errCmd (n : NodeId) (s : State) : (emitLeaf n s).errCmd = s.errCmd := rfl
@[simp] theorem emitLeaf_freq (n : NodeId) (s : State) : (emitLeaf n s).freq = s.freq := rfl
@[simp] theorem emitLeaf_hdrCnt (n : NodeId) (s : State) : (emitLeaf n s).hdrCnt = s.hdrCnt := rfl
@[simp] theorem emitLeaf_treeValid (n : NodeId) (s : State) : (emitLeaf n s).treeValid = s.treeValid := rfl
@[simp] theorem emitLeaf_codesValid (n : NodeId) (s : State) : (emitLeaf n s).codesValid = s.codesValid := rfl
@[simp] theorem emitLeaf_root (n : NodeId) (s : State) : (emitLeaf n s).root = s.root := rfl
@[simp] theorem emitLeaf_leaves (n : NodeId) (s : State) : (emitLeaf n s).leaves = s.leaves := rfl
@[simp] theorem emitLeaf_node (n : NodeId) (s : State) : (emitLeaf n s).node = s.node := rfl
@[simp] theorem emitLeaf_code (n : NodeId) (s : State) : (emitLeaf n s).code = s.code := rfl
@[simp] theorem emitLeaf_pq (n : NodeId) (s : State) : (emitLeaf n s).pq = s.pq := rfl
@[simp] theorem emitLeaf_wbuf (n : NodeId) (s : State) : (emitLeaf n s).wbuf = s.wbuf := rfl
@[simp] theorem emitLeaf_wcnt (n : NodeId) (s : State) : (emitLeaf n s).wcnt = s.wcnt := rfl
@[simp] theorem emitLeaf_dnode (n : NodeId) (s : State) : (emitLeaf n s).dnode = s.root := rfl
@[simp] theorem emitLeaf_encBits (n : NodeId) (s : State) : (emitLeaf n s).encBits = s.encBits := rfl
@[simp] theorem emitLeaf_decBytes (n : NodeId) (s : State) : (emitLeaf n s).decBytes = s.decBytes + 1#32 := rfl
@[simp] theorem emitLeaf_trailing (n : NodeId) (s : State) : (emitLeaf n s).trailing = s.trailing := rfl
@[simp] theorem emitLeaf_out (n : NodeId) (s : State) : (emitLeaf n s).out = s.out ++ [n.setWidth 8] := rfl
@[simp] theorem emitLeaf_inputs (n : NodeId) (s : State) : (emitLeaf n s).inputs = s.inputs := rfl
@[simp] theorem emitLeaf_hostReads (n : NodeId) (s : State) : (emitLeaf n s).hostReads = s.hostReads := rfl
@[simp] theorem emitLeaf_popped (n : NodeId) (s : State) : (emitLeaf n s).popped = s.popped := rfl
@[simp] theorem emitLeaf_freeCount (n : NodeId) (s : State) : (emitLeaf n s).freeCount = s.freeCount := rfl

/-! ### `stopAtSentinel`: the terminal state (R222) -/

@[simp] theorem stopAtSentinel_cfg (s : State) : (stopAtSentinel s).cfg = s.cfg := rfl
@[simp] theorem stopAtSentinel_pend (s : State) : (stopAtSentinel s).pend = s.pend := rfl
@[simp] theorem stopAtSentinel_arg (s : State) : (stopAtSentinel s).arg = s.arg := rfl
@[simp] theorem stopAtSentinel_irqEn (s : State) : (stopAtSentinel s).irqEn = s.irqEn := rfl
@[simp] theorem stopAtSentinel_result (s : State) : (stopAtSentinel s).result = s.result := rfl
@[simp] theorem stopAtSentinel_phase (s : State) : (stopAtSentinel s).phase = .done := rfl
@[simp] theorem stopAtSentinel_errKind (s : State) : (stopAtSentinel s).errKind = s.errKind := rfl
@[simp] theorem stopAtSentinel_prevPhase (s : State) : (stopAtSentinel s).prevPhase = s.prevPhase := rfl
@[simp] theorem stopAtSentinel_errCmd (s : State) : (stopAtSentinel s).errCmd = s.errCmd := rfl
@[simp] theorem stopAtSentinel_freq (s : State) : (stopAtSentinel s).freq = s.freq := rfl
@[simp] theorem stopAtSentinel_hdrCnt (s : State) : (stopAtSentinel s).hdrCnt = s.hdrCnt := rfl
@[simp] theorem stopAtSentinel_treeValid (s : State) : (stopAtSentinel s).treeValid = s.treeValid := rfl
@[simp] theorem stopAtSentinel_codesValid (s : State) : (stopAtSentinel s).codesValid = s.codesValid := rfl
@[simp] theorem stopAtSentinel_root (s : State) : (stopAtSentinel s).root = s.root := rfl
@[simp] theorem stopAtSentinel_leaves (s : State) : (stopAtSentinel s).leaves = s.leaves := rfl
@[simp] theorem stopAtSentinel_node (s : State) : (stopAtSentinel s).node = s.node := rfl
@[simp] theorem stopAtSentinel_code (s : State) : (stopAtSentinel s).code = s.code := rfl
@[simp] theorem stopAtSentinel_pq (s : State) : (stopAtSentinel s).pq = s.pq := rfl
@[simp] theorem stopAtSentinel_wbuf (s : State) : (stopAtSentinel s).wbuf = s.wbuf := rfl
@[simp] theorem stopAtSentinel_wcnt (s : State) : (stopAtSentinel s).wcnt = s.wcnt := rfl
@[simp] theorem stopAtSentinel_dnode (s : State) : (stopAtSentinel s).dnode = 256#10 := rfl
@[simp] theorem stopAtSentinel_encBits (s : State) : (stopAtSentinel s).encBits = s.encBits := rfl
@[simp] theorem stopAtSentinel_decBytes (s : State) : (stopAtSentinel s).decBytes = s.decBytes := rfl
@[simp] theorem stopAtSentinel_trailing (s : State) : (stopAtSentinel s).trailing = s.trailing := rfl
@[simp] theorem stopAtSentinel_out (s : State) : (stopAtSentinel s).out = s.out := rfl
@[simp] theorem stopAtSentinel_inputs (s : State) : (stopAtSentinel s).inputs = s.inputs := rfl
@[simp] theorem stopAtSentinel_hostReads (s : State) : (stopAtSentinel s).hostReads = s.hostReads := rfl
@[simp] theorem stopAtSentinel_popped (s : State) : (stopAtSentinel s).popped = s.popped := rfl
@[simp] theorem stopAtSentinel_freeCount (s : State) : (stopAtSentinel s).freeCount = s.freeCount := rfl

/-! ### `withCommand`: a pending word (R24) -/

@[simp] theorem withCommand_cfg (w : Word) (s : State) : (withCommand w s).cfg = s.cfg := rfl
@[simp] theorem withCommand_pend (w : Word) (s : State) : (withCommand w s).pend = some w := rfl
@[simp] theorem withCommand_arg (w : Word) (s : State) : (withCommand w s).arg = s.arg := rfl
@[simp] theorem withCommand_irqEn (w : Word) (s : State) : (withCommand w s).irqEn = s.irqEn := rfl
@[simp] theorem withCommand_result (w : Word) (s : State) : (withCommand w s).result = s.result := rfl
@[simp] theorem withCommand_phase (w : Word) (s : State) : (withCommand w s).phase = s.phase := rfl
@[simp] theorem withCommand_errKind (w : Word) (s : State) : (withCommand w s).errKind = s.errKind := rfl
@[simp] theorem withCommand_prevPhase (w : Word) (s : State) : (withCommand w s).prevPhase = s.prevPhase := rfl
@[simp] theorem withCommand_errCmd (w : Word) (s : State) : (withCommand w s).errCmd = s.errCmd := rfl
@[simp] theorem withCommand_freq (w : Word) (s : State) : (withCommand w s).freq = s.freq := rfl
@[simp] theorem withCommand_hdrCnt (w : Word) (s : State) : (withCommand w s).hdrCnt = s.hdrCnt := rfl
@[simp] theorem withCommand_treeValid (w : Word) (s : State) : (withCommand w s).treeValid = s.treeValid := rfl
@[simp] theorem withCommand_codesValid (w : Word) (s : State) : (withCommand w s).codesValid = s.codesValid := rfl
@[simp] theorem withCommand_root (w : Word) (s : State) : (withCommand w s).root = s.root := rfl
@[simp] theorem withCommand_leaves (w : Word) (s : State) : (withCommand w s).leaves = s.leaves := rfl
@[simp] theorem withCommand_node (w : Word) (s : State) : (withCommand w s).node = s.node := rfl
@[simp] theorem withCommand_code (w : Word) (s : State) : (withCommand w s).code = s.code := rfl
@[simp] theorem withCommand_pq (w : Word) (s : State) : (withCommand w s).pq = s.pq := rfl
@[simp] theorem withCommand_wbuf (w : Word) (s : State) : (withCommand w s).wbuf = s.wbuf := rfl
@[simp] theorem withCommand_wcnt (w : Word) (s : State) : (withCommand w s).wcnt = s.wcnt := rfl
@[simp] theorem withCommand_dnode (w : Word) (s : State) : (withCommand w s).dnode = s.dnode := rfl
@[simp] theorem withCommand_encBits (w : Word) (s : State) : (withCommand w s).encBits = s.encBits := rfl
@[simp] theorem withCommand_decBytes (w : Word) (s : State) : (withCommand w s).decBytes = s.decBytes := rfl
@[simp] theorem withCommand_trailing (w : Word) (s : State) : (withCommand w s).trailing = s.trailing := rfl
@[simp] theorem withCommand_out (w : Word) (s : State) : (withCommand w s).out = s.out := rfl
@[simp] theorem withCommand_inputs (w : Word) (s : State) : (withCommand w s).inputs = [] := rfl
@[simp] theorem withCommand_hostReads (w : Word) (s : State) : (withCommand w s).hostReads = s.hostReads := rfl
@[simp] theorem withCommand_popped (w : Word) (s : State) : (withCommand w s).popped = s.popped := rfl
@[simp] theorem withCommand_freeCount (w : Word) (s : State) : (withCommand w s).freeCount = s.freeCount := rfl

end Sys2Proof.Machine
end

