-- ==== Sys2Proof/Laws/Ops.lean ====
section
/-! SUPPORT. What the shared operations can do, once: reads after writes of the internal memories, reads that depend on one
memory only, and the cases of the check order. -/

namespace Sys2Proof.Machine

open Sys2Proof

/-! ## FREQ -/

theorem freqAt_congr {s t : State} (h : t.freq = s.freq) (n : Nat) : freqAt t n = freqAt s n := by
  simp [freqAt, h]

theorem freqAt_of_le {s : State} {n : Nat} (h : n ≤ 256) : freqAt s n = s.freq[n]'(by omega) :=
  dif_pos (by omega)

/-- Reading FREQ after a write of one of its 257 entries. -/
theorem freqAt_setFreq (n m : Nat) (v : Word) (s : State) (h : n ≤ 256) :
    freqAt (setFreq n v s) m = if m = n then v else freqAt s m := by
  have hn : n < 257 := by omega
  unfold freqAt
  rw [setFreq_freq, dif_pos hn]
  by_cases hm : m < 257
  · rw [dif_pos hm, dif_pos hm, Vector.getElem_set]
    by_cases e : m = n
    · subst e; simp
    · rw [if_neg e, if_neg (Ne.symm e)]
  · rw [dif_neg hm, dif_neg hm, if_neg (by omega)]

/-- The table of an empty input: FREQ[256] = 1, every other entry 0 (R271). -/
theorem freqAt_empty (s : State) (h : s.freq = State.emptyFreq) (n : Nat) :
    freqAt s n = if n = 256 then 1#32 else 0#32 := by
  unfold freqAt
  by_cases hn : n < 257
  · rw [dif_pos hn]
    simp only [h, State.emptyFreq, Vector.getElem_set, Vector.getElem_replicate]
    by_cases e : n = 256
    · subst e; simp
    · rw [if_neg e, if_neg (Ne.symm e)]
  · rw [dif_neg hn, if_neg (by omega)]

/-! ## NODE -/

theorem nodeAt_congr {s t : State} (h : t.node = s.node) (n : NodeId) : nodeAt t n = nodeAt s n := by
  simp [nodeAt, h]

theorem childAt_congr {s t : State} (h : t.node = s.node) (n : NodeId) (b : Bool) : childAt t n b = childAt s n b := by
  simp [childAt, nodeAt, h]

/-- Reading NODE after a write of an entry of 257..512. -/
theorem nodeIn_setNodeIn (m : Vector NodeEntry 256) (k : Nat) (e : NodeEntry) (n : NodeId) (hk : 257 ≤ k ∧ k ≤ 512) :
    nodeIn (setNodeIn m k e) n = if n.toNat = k then e else nodeIn m n := by
  have hk' : k - 257 < 256 := by omega
  unfold nodeIn setNodeIn
  rw [dif_pos hk']
  by_cases hn : 257 ≤ n.toNat ∧ n.toNat ≤ 512
  · rw [dif_pos hn, dif_pos hn, Vector.getElem_set]
    by_cases e' : n.toNat = k
    · rw [if_pos (by omega), if_pos e']
    · rw [if_neg (by omega), if_neg e']
  · rw [dif_neg hn, dif_neg hn, if_neg (by omega)]

/-! ## CODE -/

theorem codeAt_congr {s t : State} (h : t.code = s.code) (n : Nat) : codeAt t n = codeAt s n := by
  simp [codeAt, h]

/-- Reading CODE after a write of one of its 257 entries. -/
theorem codeIn_setCodeIn (m : Vector CodeEntry 257) (n k : Nat) (e : CodeEntry) (h : n ≤ 256) :
    codeIn (setCodeIn m n e) k = if k = n then e else codeIn m k := by
  have hn : n < 257 := by omega
  unfold codeIn setCodeIn
  rw [dif_pos hn]
  by_cases hk : k < 257
  · rw [dif_pos hk, dif_pos hk, Vector.getElem_set]
    by_cases e' : k = n
    · subst e'; simp
    · rw [if_neg e', if_neg (Ne.symm e')]
  · rw [dif_neg hk, dif_neg hk, if_neg (by omega)]

/-! ## The output FIFO -/

/-- A pop moves the head byte from the FIFO to the bytes popped: together they stay the same bytes (R49, R291). -/
@[simp] theorem streamed_popOut (s : State) : streamed (popOut s) = streamed s := by
  simp only [streamed, popOut_popped, popOut_out, List.append_assoc]
  cases s.out <;> rfl

@[simp] theorem streamed_pushOut (b : Byte) (s : State) : streamed (pushOut b s) = streamed s ++ [b] := by simp [streamed]

@[simp] theorem streamed_clear (s : State) : streamed (clear s) = [] := rfl

@[simp] theorem streamed_hardReset (s : State) : streamed (hardReset s) = [] := rfl

/-- While no command is pending every input may move (R73). -/
theorem inputEnabled_none (i : Input) : inputEnabled i none = true := by cases i <;> rfl

/-- A state is quiescent exactly while no command is pending: no access is held then (R73, R291). -/
theorem quiescent_iff (s : State) : quiescent s = true ↔ s.pend = none := by
  constructor
  · intro h
    simp only [quiescent, Bool.and_eq_true, decide_eq_true_eq] at h
    exact h.1
  · intro h
    cases hi : s.inputs <;> simp [quiescent, accessHeld, hostReady, h, hi, inputEnabled_none]

/-! ## The check order (R111) -/

theorem command_in_error {i : Instr} {s : State} {body : State → State} (h : s.phase = .error) :
    command i s body = s := if_pos h

theorem command_ill_formed {i : Instr} {s : State} {body : State → State} (h : s.phase ≠ .error)
    (hi : i.wellFormed = false) : command i s body = raise .badOperand (encode i) s := by
  simp [command, h, hi]

theorem command_seq {i : Instr} {s : State} {body : State → State} (h : s.phase ≠ .error)
    (hi : i.wellFormed = true) (hl : legality i s = .seq) : command i s body = raise .sequence (encode i) s := by
  simp [command, h, hi, hl]

theorem command_wac {i : Instr} {s : State} {body : State → State} (h : s.phase ≠ .error)
    (hi : i.wellFormed = true) (hl : legality i s = .wac) : command i s body = raise .writeAfterClose (encode i) s := by
  simp [command, h, hi, hl]

theorem command_ok {i : Instr} {s : State} {body : State → State} (h : s.phase ≠ .error)
    (hi : i.wellFormed = true) (hl : legality i s = .ok) : command i s body = body s := by
  simp [command, h, hi, hl]

/-- Everything the check order can do. -/
theorem command_cases (i : Instr) (s : State) (body : State → State) :
    (s.phase = .error ∧ command i s body = s)
    ∨ (s.phase ≠ .error ∧ ∃ e, (e = .badOperand ∨ e = .sequence ∨ e = .writeAfterClose) ∧
        command i s body = raise e (encode i) s)
    ∨ (s.phase ≠ .error ∧ i.wellFormed = true ∧ legality i s = .ok ∧ command i s body = body s) := by
  by_cases h : s.phase = .error
  · exact .inl ⟨h, command_in_error h⟩
  cases hi : i.wellFormed with
  | false => exact .inr (.inl ⟨h, .badOperand, by simp, command_ill_formed h hi⟩)
  | true =>
    cases hl : legality i s with
    | ok => exact .inr (.inr ⟨h, rfl, rfl, command_ok h hi hl⟩)
    | seq => exact .inr (.inl ⟨h, .sequence, by simp, command_seq h hi hl⟩)
    | wac => exact .inr (.inl ⟨h, .writeAfterClose, by simp, command_wac h hi hl⟩)

/-! ## Every command ends in a next state -/

/-- What `exec` of a command does, as a function of the state: its rule behind the check order; CLR acts in every phase. -/
def effect (i : Instr) (s : State) : State :=
  match i with
  | .nop => command .nop s fun s => s
  | .clr => clear s
  | .count b => command (.count b) s (countByte b)
  | .loadFreq => command .loadFreq s loadHeader
  | .readFreq sym => command (.readFreq sym) s fun s => { s with result := freqAt s sym.toNat }
  | .buildTree => command .buildTree s buildTree
  | .readNode n sel => command (.readNode n sel) s fun s => { s with result := nodeWord s n sel }
  | .genCodes => command .genCodes s genCodes
  | .readCodeLen sym => command (.readCodeLen sym) s fun s => { s with result := (codeAt s sym.toNat).len.setWidth 32 }
  | .readCodeWord sym k => command (.readCodeWord sym k) s fun s => { s with result := codeWord (codeAt s sym.toNat) k }
  | .encByte b => command (.encByte b) s (encodeByte b)
  | .encEnd => command .encEnd s encodeEnd
  | .decFeed b => command (.decFeed b) s (feedByte b)
  | .decEoi => command .decEoi s endOfInput

/-- No command faults and none is refused. -/
theorem exec_eq_next (i : Instr) (s : State) : exec i s = .next (effect i s) := by
  cases i <;> rfl

theorem exec_next_iff {i : Instr} {s t : State} : exec i s = .next t ↔ effect i s = t := by
  rw [exec_eq_next]
  exact ⟨fun h => by injection h, fun h => by rw [h]⟩

end Sys2Proof.Machine
end

