-- ==== Sys2Proof/Laws/Operands.lean ====
section
/-! SUPPORT. Codes packed into code-table entries and read back (R43), and the bits of bytes (R84). -/

namespace Sys2Proof.Machine

open Sys2Proof

/-! ## Codes -/

@[simp] theorem codeBits_length (e : CodeEntry) : (codeBits e).length = e.len.toNat := by simp [codeBits]

theorem packHead_bit (b : Bool) (k j : Nat) (hj : j < 256) :
    (if b && decide (k < 256) then BitVec.twoPow 256 (255 - k) else 0#256).getLsbD (255 - j) = (decide (j = k) && b) := by
  by_cases hb : (b && decide (k < 256)) = true
  · rw [if_pos hb, BitVec.getLsbD_twoPow]
    simp only [Bool.and_eq_true, decide_eq_true_eq] at hb
    rw [hb.1, Bool.and_true, Bool.eq_iff_iff]
    simp only [Bool.and_eq_true, decide_eq_true_eq]
    omega
  · rw [if_neg hb]
    by_cases e : j = k
    · subst e; cases b <;> simp_all
    · simp [e]

/-- Bit `255 - j` of the BITS field of a code that starts at position `k` (R43). -/
theorem packFrom_bit (c : List Bool) (k j : Nat) (hj : j < 256) :
    (packFrom k c).getLsbD (255 - j) = if k ≤ j then c.getD (j - k) false else false := by
  induction c generalizing k with
  | nil => simp [packFrom]
  | cons b c ih =>
    rw [packFrom, BitVec.getLsbD_or, ih, packHead_bit b k j hj]
    rcases Nat.lt_trichotomy j k with h | h | h
    · simp [show ¬ k ≤ j by omega, show ¬ k + 1 ≤ j by omega, show ¬ j = k by omega]
    · subst h; simp
    · obtain ⟨d, rfl⟩ : ∃ d, j = k + 1 + d := ⟨j - (k + 1), by omega⟩
      have e2 : k + 1 + d - k = d + 1 := by omega
      simp [e2, show k ≤ k + 1 + d by omega, show ¬ k + 1 + d = k by omega]

/-- A code of at most 256 bits is read back as it was stored (R8, R43). -/
theorem codeBits_codeOf (c : List Bool) (h : c.length ≤ 256) : codeBits (codeOf c) = c := by
  have hl : (codeOf c).len.toNat = c.length := by
    simp only [codeOf, BitVec.toNat_ofNat]; omega
  apply List.ext_getElem
  · rw [codeBits_length, hl]
  · intro k h1 h2
    have hk : k < 256 := by omega
    simp only [codeBits, List.getElem_map, List.getElem_range, codeBit, hk, decide_true, Bool.true_and, codeOf]
    rw [packFrom_bit c 0 k hk]
    simp [h2]

theorem codeOf_len (c : List Bool) (h : c.length ≤ 256) : (codeOf c).len.toNat = c.length := by
  simp only [codeOf, BitVec.toNat_ofNat]; omega

/-- The entry of a code of at most 256 bits is canonical (R43). -/
theorem codeCanonical_codeOf (c : List Bool) (h : c.length ≤ 256) : codeCanonical (codeOf c) = true := by
  simp only [codeCanonical, Bool.and_eq_true, decide_eq_true_eq, codeOf_len c h]
  refine ⟨h, ?_⟩
  ext i hi
  simp only [BitVec.getElem_shiftLeft, BitVec.getElem_zero, codeOf]
  by_cases hc : i < c.length
  · simp [hc]
  · have := packFrom_bit c 0 (255 - (i - c.length)) (by omega)
    have e : 255 - (255 - (i - c.length)) = i - c.length := by omega
    rw [e, if_pos (by omega)] at this
    have hz : (packFrom 0 c)[i - c.length]'(by omega) = (packFrom 0 c).getLsbD (i - c.length) := by
      rw [BitVec.getLsbD_eq_getElem]
    simp only [hc, decide_false, Bool.not_false, Bool.true_and, hz, this]
    rw [List.getD_eq_default]
    omega

theorem codeBits_absent : codeBits ⟨0#9, 0#256⟩ = [] := by simp [codeBits]

theorem codeCanonical_absent : codeCanonical ⟨0#9, 0#256⟩ = true := by simp [codeCanonical]

/-! ## Bytes -/

@[simp] theorem byteBits_length (b : Byte) : (byteBits b).length = 8 := rfl

@[simp] theorem bytesBits_nil : bytesBits [] = [] := rfl

@[simp] theorem bytesBits_append (a b : List Byte) : bytesBits (a ++ b) = bytesBits a ++ bytesBits b :=
  List.flatMap_append

@[simp] theorem bytesBits_singleton (b : Byte) : bytesBits [b] = byteBits b := by simp [bytesBits]

@[simp] theorem bytesBits_length (bs : List Byte) : (bytesBits bs).length = 8 * bs.length := by
  induction bs with
  | nil => rfl
  | cons b bs ih =>
    have : bytesBits (b :: bs) = byteBits b ++ bytesBits bs := rfl
    rw [this, List.length_append, ih, byteBits_length, List.length_cons]; omega

end Sys2Proof.Machine
end

