-- ==== Sys2Proof/Laws/Decoder.lean ====
section
/-! SUPPORT. The tree walker: what it writes, how many bytes it pushes (R222, R226), and paths through the tree. -/

namespace Sys2Proof.Machine

open Sys2Proof

/-! ### `feedBits` writes DNODE, PHASE, OUT and DEC_BYTES only (R222) -/

@[simp] theorem feedBits_cfg (bits : List Bool) (s : State) : (feedBits bits s).cfg = s.cfg := by
  induction bits generalizing s with
  | nil => rfl
  | cons b bs ih => unfold feedBits; split_ifs <;> simp [ih]
@[simp] theorem feedBits_pend (bits : List Bool) (s : State) : (feedBits bits s).pend = s.pend := by
  induction bits generalizing s with
  | nil => rfl
  | cons b bs ih => unfold feedBits; split_ifs <;> simp [ih]
@[simp] theorem feedBits_arg (bits : List Bool) (s : State) : (feedBits bits s).arg = s.arg := by
  induction bits generalizing s with
  | nil => rfl
  | cons b bs ih => unfold feedBits; split_ifs <;> simp [ih]
@[simp] theorem feedBits_irqEn (bits : List Bool) (s : State) : (feedBits bits s).irqEn = s.irqEn := by
  induction bits generalizing s with
  | nil => rfl
  | cons b bs ih => unfold feedBits; split_ifs <;> simp [ih]
@[simp] theorem feedBits_result (bits : List Bool) (s : State) : (feedBits bits s).result = s.result := by
  induction bits generalizing s with
  | nil => rfl
  | cons b bs ih => unfold feedBits; split_ifs <;> simp [ih]
@[simp] theorem feedBits_errKind (bits : List Bool) (s : State) : (feedBits bits s).errKind = s.errKind := by
  induction bits generalizing s with
  | nil => rfl
  | cons b bs ih => unfold feedBits; split_ifs <;> simp [ih]
@[simp] theorem feedBits_prevPhase (bits : List Bool) (s : State) : (feedBits bits s).prevPhase = s.prevPhase := by
  induction bits generalizing s with
  | nil => rfl
  | cons b bs ih => unfold feedBits; split_ifs <;> simp [ih]
@[simp] theorem feedBits_errCmd (bits : List Bool) (s : State) : (feedBits bits s).errCmd = s.errCmd := by
  induction bits generalizing s with
  | nil => rfl
  | cons b bs ih => unfold feedBits; split_ifs <;> simp [ih]
@[simp] theorem feedBits_freq (bits : List Bool) (s : State) : (feedBits bits s).freq = s.freq := by
  induction bits generalizing s with
  | nil => rfl
  | cons b bs ih => unfold feedBits; split_ifs <;> simp [ih]
@[simp] theorem feedBits_hdrCnt (bits : List Bool) (s : State) : (feedBits bits s).hdrCnt = s.hdrCnt := by
  induction bits generalizing s with
  | nil => rfl
  | cons b bs ih => unfold feedBits; split_ifs <;> simp [ih]
@[simp] theorem feedBits_treeValid (bits : List Bool) (s : State) : (feedBits bits s).treeValid = s.treeValid := by
  induction bits generalizing s with
  | nil => rfl
  | cons b bs ih => unfold feedBits; split_ifs <;> simp [ih]
@[simp] theorem feedBits_codesValid (bits : List Bool) (s : State) : (feedBits bits s).codesValid = s.codesValid := by
  induction bits generalizing s with
  | nil => rfl
  | cons b bs ih => unfold feedBits; split_ifs <;> simp [ih]
@[simp] theorem feedBits_root (bits : List Bool) (s : State) : (feedBits bits s).root = s.root := by
  induction bits generalizing s with
  | nil => rfl
  | cons b bs ih => unfold feedBits; split_ifs <;> simp [ih]
@[simp] theorem feedBits_leaves (bits : List Bool) (s : State) : (feedBits bits s).leaves = s.leaves := by
  induction bits generalizing s with
  | nil => rfl
  | cons b bs ih => unfold feedBits; split_ifs <;> simp [ih]
@[simp] theorem feedBits_node (bits : List Bool) (s : State) : (feedBits bits s).node = s.node := by
  induction bits generalizing s with
  | nil => rfl
  | cons b bs ih => unfold feedBits; split_ifs <;> simp [ih]
@[simp] theorem feedBits_code (bits : List Bool) (s : State) : (feedBits bits s).code = s.code := by
  induction bits generalizing s with
  | nil => rfl
  | cons b bs ih => unfold feedBits; split_ifs <;> simp [ih]
@[simp] theorem feedBits_pq (bits : List Bool) (s : State) : (feedBits bits s).pq = s.pq := by
  induction bits generalizing s with
  | nil => rfl
  | cons b bs ih => unfold feedBits; split_ifs <;> simp [ih]
@[simp] theorem feedBits_wbuf (bits : List Bool) (s : State) : (feedBits bits s).wbuf = s.wbuf := by
  induction bits generalizing s with
  | nil => rfl
  | cons b bs ih => unfold feedBits; split_ifs <;> simp [ih]
@[simp] theorem feedBits_wcnt (bits : List Bool) (s : State) : (feedBits bits s).wcnt = s.wcnt := by
  induction bits generalizing s with
  | nil => rfl
  | cons b bs ih => unfold feedBits; split_ifs <;> simp [ih]
@[simp] theorem feedBits_encBits (bits : List Bool) (s : State) : (feedBits bits s).encBits = s.encBits := by
  induction bits generalizing s with
  | nil => rfl
  | cons b bs ih => unfold feedBits; split_ifs <;> simp [ih]
@[simp] theorem feedBits_trailing (bits : List Bool) (s : State) : (feedBits bits s).trailing = s.trailing := by
  induction bits generalizing s with
  | nil => rfl
  | cons b bs ih => unfold feedBits; split_ifs <;> simp [ih]
@[simp] theorem feedBits_inputs (bits : List Bool) (s : State) : (feedBits bits s).inputs = s.inputs := by
  induction bits generalizing s with
  | nil => rfl
  | cons b bs ih => unfold feedBits; split_ifs <;> simp [ih]
@[simp] theorem feedBits_hostReads (bits : List Bool) (s : State) : (feedBits bits s).hostReads = s.hostReads := by
  induction bits generalizing s with
  | nil => rfl
  | cons b bs ih => unfold feedBits; split_ifs <;> simp [ih]
@[simp] theorem feedBits_popped (bits : List Bool) (s : State) : (feedBits bits s).popped = s.popped := by
  induction bits generalizing s with
  | nil => rfl
  | cons b bs ih => unfold feedBits; split_ifs <;> simp [ih]
@[simp] theorem feedBits_freeCount (bits : List Bool) (s : State) : (feedBits bits s).freeCount = s.freeCount := by
  induction bits generalizing s with
  | nil => rfl
  | cons b bs ih => unfold feedBits; split_ifs <;> simp [ih]

/-! ## One bit of the walk -/

/-- At an internal child the walk stands on the child (R222). -/
theorem feedBits_internal (bit : Bool) (bits : List Bool) (s : State) (h : isLeaf (childAt s s.dnode bit) = false) :
    feedBits (bit :: bits) s = feedBits bits (moveTo (childAt s s.dnode bit) s) := by
  simp [feedBits, h]

/-- At the sentinel the walk ends, and the bits after it are never read (R222, R228). -/
theorem feedBits_sentinel (bit : Bool) (bits : List Bool) (s : State) (h : childAt s s.dnode bit = 256#10) :
    feedBits (bit :: bits) s = stopAtSentinel s := by
  simp [feedBits, h, isLeaf]

/-- At any other leaf its byte is emitted and the walk restarts at the root (R222). -/
theorem feedBits_leaf (bit : Bool) (bits : List Bool) (s : State) (h : isLeaf (childAt s s.dnode bit) = true)
    (h' : childAt s s.dnode bit ≠ 256#10) :
    feedBits (bit :: bits) s = feedBits bits (emitLeaf (childAt s s.dnode bit) s) := by
  simp [feedBits, h, h']

/-- The three cases of one bit of the walk. -/
theorem feedBits_cases (bit : Bool) (bits : List Bool) (s : State) :
    feedBits (bit :: bits) s = stopAtSentinel s
    ∨ feedBits (bit :: bits) s = feedBits bits (emitLeaf (childAt s s.dnode bit) s)
    ∨ feedBits (bit :: bits) s = feedBits bits (moveTo (childAt s s.dnode bit) s) := by
  cases h : isLeaf (childAt s s.dnode bit) with
  | false => exact .inr (.inr (feedBits_internal bit bits s h))
  | true =>
    by_cases h' : childAt s s.dnode bit = 256#10
    · exact .inl (feedBits_sentinel bit bits s h')
    · exact .inr (.inl (feedBits_leaf bit bits s h h'))

/-! ## What the walk pushes -/

theorem leavesReached_congr {s t : State} (hn : t.node = s.node) (hr : t.root = s.root) (bits : List Bool) (n : NodeId) :
    leavesReached t bits n = leavesReached s bits n := by
  induction bits generalizing n with
  | nil => rfl
  | cons b bits ih => simp [leavesReached, childAt_congr hn, hr, ih]

/-- The walk pushes one byte per non-sentinel leaf it reaches (R226). -/
theorem feedBits_length (bits : List Bool) (s : State) :
    (feedBits bits s).out.length = s.out.length + leavesReached s bits s.dnode := by
  induction bits generalizing s with
  | nil => rfl
  | cons b bits ih =>
    unfold leavesReached
    by_cases h : isLeaf (childAt s s.dnode b) = true
    · by_cases h' : childAt s s.dnode b = 256#10
      · rw [feedBits_sentinel b bits s h']; simp [h', isLeaf]
      · rw [feedBits_leaf b bits s h h', ih, if_pos h, if_neg h',
          leavesReached_congr (emitLeaf_node _ s) (emitLeaf_root _ s)]
        simp only [emitLeaf_out, emitLeaf_dnode, List.length_append, List.length_singleton]
        omega
    · simp only [Bool.not_eq_true] at h
      rw [feedBits_internal b bits s h, ih, leavesReached_congr (moveTo_node _ s) (moveTo_root _ s)]
      simp [h]

/-- At most one byte a bit (R226). -/
theorem leavesReached_le (s : State) (bits : List Bool) (n : NodeId) : leavesReached s bits n ≤ bits.length := by
  induction bits generalizing n with
  | nil => simp [leavesReached]
  | cons b bits ih =>
    unfold leavesReached
    split_ifs
    · simp
    · have := ih s.root; simp; omega
    · have := ih (childAt s n b); simp; omega

/-- The walk only appends to OUT. -/
theorem feedBits_prefix (bits : List Bool) (s : State) : s.out <+: (feedBits bits s).out := by
  induction bits generalizing s with
  | nil => exact List.prefix_rfl
  | cons b bits ih =>
    rcases feedBits_cases b bits s with h | h | h <;> rw [h]
    · exact List.prefix_rfl
    · exact List.IsPrefix.trans (by simp) (ih _)
    · exact List.IsPrefix.trans (by simp) (ih _)

/-- The walk ends in phase DONE, or in the phase it began in. -/
theorem feedBits_phase (bits : List Bool) (s : State) :
    (feedBits bits s).phase = .done ∨ (feedBits bits s).phase = s.phase := by
  induction bits generalizing s with
  | nil => exact .inr rfl
  | cons b bits ih =>
    rcases feedBits_cases b bits s with h | h | h <;> rw [h]
    · exact .inl rfl
    · exact ih (emitLeaf _ s)
    · exact ih (moveTo _ s)

/-! ## Where the walk goes -/

theorem walkFrom_congr {s t : State} (hn : t.node = s.node) (hr : t.root = s.root) (n : NodeId) (bits : List Bool) :
    walkFrom t n bits = walkFrom s n bits := by
  induction bits generalizing n with
  | nil => rfl
  | cons b bits ih => simp [walkFrom, childAt_congr hn, hr, ih]

/-- The walk of DEC_FEED pushes the bytes of the leaves it reaches, counts them and ends where the walk ends (R222). -/
theorem feedBits_walk (bits : List Bool) (s : State) :
    (feedBits bits s).out = s.out ++ (walkFrom s s.dnode bits).1
    ∧ (feedBits bits s).dnode = (walkFrom s s.dnode bits).2
    ∧ (feedBits bits s).decBytes = s.decBytes + BitVec.ofNat 32 (walkFrom s s.dnode bits).1.length := by
  induction bits generalizing s with
  | nil => simp [feedBits, walkFrom]
  | cons b bits ih =>
    unfold walkFrom
    by_cases h : 256 < (childAt s s.dnode b).toNat
    · rw [feedBits_internal b bits s (by simp [isLeaf]; omega), if_pos h, ← walkFrom_congr (moveTo_node _ s) (moveTo_root _ s)]
      exact ih (moveTo _ s)
    · rw [if_neg h]
      by_cases h' : (childAt s s.dnode b).toNat = 256
      · rw [feedBits_sentinel b bits s (BitVec.eq_of_toNat_eq h'), if_pos h']
        simp
      · have hb : (childAt s s.dnode b).setWidth 8 = BitVec.ofNat 8 (childAt s s.dnode b).toNat := by
          exact BitVec.eq_of_toNat_eq (by rw [BitVec.toNat_setWidth, BitVec.toNat_ofNat])
        rw [feedBits_leaf b bits s (by simp [isLeaf]; omega) (fun e => h' (by rw [e]; rfl)), if_neg h']
        obtain ⟨h1, h2, h3⟩ := ih (emitLeaf (childAt s s.dnode b) s)
        rw [emitLeaf_dnode, walkFrom_congr (emitLeaf_node _ s) (emitLeaf_root _ s)] at h1 h2 h3
        refine ⟨by rw [h1, emitLeaf_out, hb, List.append_assoc]; rfl, h2, ?_⟩
        rw [h3, emitLeaf_decBytes, List.length_cons, Nat.add_comm, BitVec.ofNat_add, BitVec.add_assoc]

/-! ## Paths -/

theorem leadsTo_congr {s t : State} (h : t.node = s.node) (n : NodeId) (bits : List Bool) (m : NodeId) :
    leadsTo t n bits m = leadsTo s n bits m := by
  induction bits generalizing n with
  | nil => rfl
  | cons b bits ih => simp [leadsTo, childAt_congr h, ih]

@[simp] theorem leadsTo_nil (s : State) (n m : NodeId) : leadsTo s n [] m = true ↔ n = m := by simp [leadsTo]

@[simp] theorem leadsTo_cons (s : State) (n m : NodeId) (b : Bool) (bits : List Bool) :
    leadsTo s n (b :: bits) m = true ↔ isLeaf n = false ∧ leadsTo s (childAt s n b) bits m = true := by simp [leadsTo]

theorem leadsTo_append (s : State) (n m k : NodeId) (a b : List Bool) (h : leadsTo s n a m = true)
    (h' : leadsTo s m b k = true) : leadsTo s n (a ++ b) k = true := by
  induction a generalizing n with
  | nil => rw [leadsTo_nil] at h; subst h; exact h'
  | cons x a ih =>
    rw [leadsTo_cons] at h
    rw [List.cons_append, leadsTo_cons]
    exact ⟨h.1, ih _ h.2⟩

/-- A path is determined by its bits. -/
theorem leadsTo_unique (s : State) (n m k : NodeId) (bits : List Bool) (h : leadsTo s n bits m = true)
    (h' : leadsTo s n bits k = true) : m = k := by
  induction bits generalizing n with
  | nil => rw [leadsTo_nil] at h h'; exact h.symm.trans h'
  | cons b bits ih => rw [leadsTo_cons] at h h'; exact ih _ h.2 h'.2

end Sys2Proof.Machine
end

