-- ==== Sys2Proof/Laws/Code.lean ====
section
/-! SUPPORT. The code table: what the walk writes, and that every entry it leaves is canonical (R43, R181). -/

namespace Sys2Proof.Machine

open Sys2Proof

@[simp] theorem codeIn_noCodes (n : Nat) : codeIn noCodes n = ⟨0#9, 0#256⟩ := by
  unfold codeIn noCodes
  split <;> simp

theorem isLeaf_iff (n : NodeId) : isLeaf n = true ↔ n.toNat ≤ 256 := by simp [isLeaf]

/-- An invariant of the entries of a code memory that holds of every stored path holds after the walk. -/
theorem walk_entries (P : CodeEntry → Prop) (node : Vector NodeEntry 256) (d : Nat) (n : NodeId) (p : List Bool)
    (c : Vector CodeEntry 257) (hp : ∀ q : List Bool, q.length ≤ p.length + d → P (codeOf q))
    (hc : ∀ k, P (codeIn c k)) : ∀ k, P (codeIn (walk node d n p c) k) := by
  induction d generalizing n p c with
  | zero =>
    intro k
    unfold walk
    split
    · rename_i h
      rw [codeIn_setCodeIn _ _ _ _ ((isLeaf_iff n).1 h)]
      split
      · exact hp p (by omega)
      · exact hc k
    · exact hc k
  | succ d ih =>
    intro k
    unfold walk
    split
    · rename_i h
      rw [codeIn_setCodeIn _ _ _ _ ((isLeaf_iff n).1 h)]
      split
      · exact hp p (by omega)
      · exact hc k
    · refine ih _ _ _ (fun q hq => hp q (by simp at hq; omega)) ?_ k
      exact ih _ _ _ (fun q hq => hp q (by simp at hq; omega)) hc

/-- Every entry of the code table of any tree is canonical (R8, R43). -/
theorem codeTable_canonical (s : State) (n : Nat) : codeCanonical (codeIn (codeTable s) n) = true := by
  unfold codeTable
  split
  · rename_i h
    rw [codeIn_setCodeIn _ _ _ _ ((isLeaf_iff s.root).1 h)]
    split
    · exact codeCanonical_codeOf _ (by simp)
    · rw [codeIn_noCodes]; exact codeCanonical_absent
  · refine walk_entries (fun e => codeCanonical e = true) s.node 256 s.root [] noCodes
      (fun q hq => codeCanonical_codeOf q (by simpa using hq)) (fun k => ?_) n
    rw [codeIn_noCodes]; exact codeCanonical_absent

end Sys2Proof.Machine
end

