-- ==== Sys2Proof/Laws/Encoder.lean ====
section
/-! SUPPORT. The bit writer: what it writes, how many bytes it pushes, and that it packs its bits in order (R201, R202, R205). -/

namespace Sys2Proof.Machine

open Sys2Proof

/-! ### `emitBit` writes WBUF, WCNT and OUT only (R201) -/

@[simp] theorem emitBit_cfg (b : Bool) (s : State) : (emitBit b s).cfg = s.cfg := by unfold emitBit; split <;> rfl
@[simp] theorem emitBit_pend (b : Bool) (s : State) : (emitBit b s).pend = s.pend := by unfold emitBit; split <;> rfl
@[simp] theorem emitBit_arg (b : Bool) (s : State) : (emitBit b s).arg = s.arg := by unfold emitBit; split <;> rfl
@[simp] theorem emitBit_irqEn (b : Bool) (s : State) : (emitBit b s).irqEn = s.irqEn := by unfold emitBit; split <;> rfl
@[simp] theorem emitBit_result (b : Bool) (s : State) : (emitBit b s).result = s.result := by unfold emitBit; split <;> rfl
@[simp] theorem emitBit_phase (b : Bool) (s : State) : (emitBit b s).phase = s.phase := by unfold emitBit; split <;> rfl
@[simp] theorem emitBit_errKind (b : Bool) (s : State) : (emitBit b s).errKind = s.errKind := by unfold emitBit; split <;> rfl
@[simp] theorem emitBit_prevPhase (b : Bool) (s : State) : (emitBit b s).prevPhase = s.prevPhase := by unfold emitBit; split <;> rfl
@[simp] theorem emitBit_errCmd (b : Bool) (s : State) : (emitBit b s).errCmd = s.errCmd := by unfold emitBit; split <;> rfl
@[simp] theorem emitBit_freq (b : Bool) (s : State) : (emitBit b s).freq = s.freq := by unfold emitBit; split <;> rfl
@[simp] theorem emitBit_hdrCnt (b : Bool) (s : State) : (emitBit b s).hdrCnt = s.hdrCnt := by unfold emitBit; split <;> rfl
@[simp] theorem emitBit_treeValid (b : Bool) (s : State) : (emitBit b s).treeValid = s.treeValid := by unfold emitBit; split <;> rfl
@[simp] theorem emitBit_codesValid (b : Bool) (s : State) : (emitBit b s).codesValid = s.codesValid := by unfold emitBit; split <;> rfl
@[simp] theorem emitBit_root (b : Bool) (s : State) : (emitBit b s).root = s.root := by unfold emitBit; split <;> rfl
@[simp] theorem emitBit_leaves (b : Bool) (s : State) : (emitBit b s).leaves = s.leaves := by unfold emitBit; split <;> rfl
@[simp] theorem emitBit_node (b : Bool) (s : State) : (emitBit b s).node = s.node := by unfold emitBit; split <;> rfl
@[simp] theorem emitBit_code (b : Bool) (s : State) : (emitBit b s).code = s.code := by unfold emitBit; split <;> rfl
@[simp] theorem emitBit_pq (b : Bool) (s : State) : (emitBit b s).pq = s.pq := by unfold emitBit; split <;> rfl
@[simp] theorem emitBit_dnode (b : Bool) (s : State) : (emitBit b s).dnode = s.dnode := by unfold emitBit; split <;> rfl
@[simp] theorem emitBit_encBits (b : Bool) (s : State) : (emitBit b s).encBits = s.encBits := by unfold emitBit; split <;> rfl
@[simp] theorem emitBit_decBytes (b : Bool) (s : State) : (emitBit b s).decBytes = s.decBytes := by unfold emitBit; split <;> rfl
@[simp] theorem emitBit_trailing (b : Bool) (s : State) : (emitBit b s).trailing = s.trailing := by unfold emitBit; split <;> rfl
@[simp] theorem emitBit_inputs (b : Bool) (s : State) : (emitBit b s).inputs = s.inputs := by unfold emitBit; split <;> rfl
@[simp] theorem emitBit_hostReads (b : Bool) (s : State) : (emitBit b s).hostReads = s.hostReads := by unfold emitBit; split <;> rfl
@[simp] theorem emitBit_popped (b : Bool) (s : State) : (emitBit b s).popped = s.popped := by unfold emitBit; split <;> rfl
@[simp] theorem emitBit_freeCount (b : Bool) (s : State) : (emitBit b s).freeCount = s.freeCount := by unfold emitBit; split <;> rfl

/-! ### `emitBits` writes WBUF, WCNT and OUT only -/

@[simp] theorem emitBits_cfg (bs : List Bool) (s : State) : (emitBits bs s).cfg = s.cfg := by
  induction bs generalizing s with
  | nil => rfl
  | cons b bs ih => simp [emitBits, ih]
@[simp] theorem emitBits_pend (bs : List Bool) (s : State) : (emitBits bs s).pend = s.pend := by
  induction bs generalizing s with
  | nil => rfl
  | cons b bs ih => simp [emitBits, ih]
@[simp] theorem emitBits_arg (bs : List Bool) (s : State) : (emitBits bs s).arg = s.arg := by
  induction bs generalizing s with
  | nil => rfl
  | cons b bs ih => simp [emitBits, ih]
@[simp] theorem emitBits_irqEn (bs : List Bool) (s : State) : (emitBits bs s).irqEn = s.irqEn := by
  induction bs generalizing s with
  | nil => rfl
  | cons b bs ih => simp [emitBits, ih]
@[simp] theorem emitBits_result (bs : List Bool) (s : State) : (emitBits bs s).result = s.result := by
  induction bs generalizing s with
  | nil => rfl
  | cons b bs ih => simp [emitBits, ih]
@[simp] theorem emitBits_phase (bs : List Bool) (s : State) : (emitBits bs s).phase = s.phase := by
  induction bs generalizing s with
  | nil => rfl
  | cons b bs ih => simp [emitBits, ih]
@[simp] theorem emitBits_errKind (bs : List Bool) (s : State) : (emitBits bs s).errKind = s.errKind := by
  induction bs generalizing s with
  | nil => rfl
  | cons b bs ih => simp [emitBits, ih]
@[simp] theorem emitBits_prevPhase (bs : List Bool) (s : State) : (emitBits bs s).prevPhase = s.prevPhase := by
  induction bs generalizing s with
  | nil => rfl
  | cons b bs ih => simp [emitBits, ih]
@[simp] theorem emitBits_errCmd (bs : List Bool) (s : State) : (emitBits bs s).errCmd = s.errCmd := by
  induction bs generalizing s with
  | nil => rfl
  | cons b bs ih => simp [emitBits, ih]
@[simp] theorem emitBits_freq (bs : List Bool) (s : State) : (emitBits bs s).freq = s.freq := by
  induction bs generalizing s with
  | nil => rfl
  | cons b bs ih => simp [emitBits, ih]
@[simp] theorem emitBits_hdrCnt (bs : List Bool) (s : State) : (emitBits bs s).hdrCnt = s.hdrCnt := by
  induction bs generalizing s with
  | nil => rfl
  | cons b bs ih => simp [emitBits, ih]
@[simp] theorem emitBits_treeValid (bs : List Bool) (s : State) : (emitBits bs s).treeValid = s.treeValid := by
  induction bs generalizing s with
  | nil => rfl
  | cons b bs ih => simp [emitBits, ih]
@[simp] theorem emitBits_codesValid (bs : List Bool) (s : State) : (emitBits bs s).codesValid = s.codesValid := by
  induction bs generalizing s with
  | nil => rfl
  | cons b bs ih => simp [emitBits, ih]
@[simp] theorem emitBits_root (bs : List Bool) (s : State) : (emitBits bs s).root = s.root := by
  induction bs generalizing s with
  | nil => rfl
  | cons b bs ih => simp [emitBits, ih]
@[simp] theorem emitBits_leaves (bs : List Bool) (s : State) : (emitBits bs s).leaves = s.leaves := by
  induction bs generalizing s with
  | nil => rfl
  | cons b bs ih => simp [emitBits, ih]
@[simp] theorem emitBits_node (bs : List Bool) (s : State) : (emitBits bs s).node = s.node := by
  induction bs generalizing s with
  | nil => rfl
  | cons b bs ih => simp [emitBits, ih]
@[simp] theorem emitBits_code (bs : List Bool) (s : State) : (emitBits bs s).code = s.code := by
  induction bs generalizing s with
  | nil => rfl
  | cons b bs ih => simp [emitBits, ih]
@[simp] theorem emitBits_pq (bs : List Bool) (s : State) : (emitBits bs s).pq = s.pq := by
  induction bs generalizing s with
  | nil => rfl
  | cons b bs ih => simp [emitBits, ih]
@[simp] theorem emitBits_dnode (bs : List Bool) (s : State) : (emitBits bs s).dnode = s.dnode := by
  induction bs generalizing s with
  | nil => rfl
  | cons b bs ih => simp [emitBits, ih]
@[simp] theorem emitBits_encBits (bs : List Bool) (s : State) : (emitBits bs s).encBits = s.encBits := by
  induction bs generalizing s with
  | nil => rfl
  | cons b bs ih => simp [emitBits, ih]
@[simp] theorem emitBits_decBytes (bs : List Bool) (s : State) : (emitBits bs s).decBytes = s.decBytes := by
  induction bs generalizing s with
  | nil => rfl
  | cons b bs ih => simp [emitBits, ih]
@[simp] theorem emitBits_trailing (bs : List Bool) (s : State) : (emitBits bs s).trailing = s.trailing := by
  induction bs generalizing s with
  | nil => rfl
  | cons b bs ih => simp [emitBits, ih]
@[simp] theorem emitBits_inputs (bs : List Bool) (s : State) : (emitBits bs s).inputs = s.inputs := by
  induction bs generalizing s with
  | nil => rfl
  | cons b bs ih => simp [emitBits, ih]
@[simp] theorem emitBits_hostReads (bs : List Bool) (s : State) : (emitBits bs s).hostReads = s.hostReads := by
  induction bs generalizing s with
  | nil => rfl
  | cons b bs ih => simp [emitBits, ih]
@[simp] theorem emitBits_popped (bs : List Bool) (s : State) : (emitBits bs s).popped = s.popped := by
  induction bs generalizing s with
  | nil => rfl
  | cons b bs ih => simp [emitBits, ih]
@[simp] theorem emitBits_freeCount (bs : List Bool) (s : State) : (emitBits bs s).freeCount = s.freeCount := by
  induction bs generalizing s with
  | nil => rfl
  | cons b bs ih => simp [emitBits, ih]

/-! ### `closeWriter` writes WBUF, WCNT and OUT only (R202) -/

@[simp] theorem closeWriter_cfg (s : State) : (closeWriter s).cfg = s.cfg := by unfold closeWriter; split <;> rfl
@[simp] theorem closeWriter_pend (s : State) : (closeWriter s).pend = s.pend := by unfold closeWriter; split <;> rfl
@[simp] theorem closeWriter_arg (s : State) : (closeWriter s).arg = s.arg := by unfold closeWriter; split <;> rfl
@[simp] theorem closeWriter_irqEn (s : State) : (closeWriter s).irqEn = s.irqEn := by unfold closeWriter; split <;> rfl
@[simp] theorem closeWriter_result (s : State) : (closeWriter s).result = s.result := by unfold closeWriter; split <;> rfl
@[simp] theorem closeWriter_phase (s : State) : (closeWriter s).phase = s.phase := by unfold closeWriter; split <;> rfl
@[simp] theorem closeWriter_errKind (s : State) : (closeWriter s).errKind = s.errKind := by unfold closeWriter; split <;> rfl
@[simp] theorem closeWriter_prevPhase (s : State) : (closeWriter s).prevPhase = s.prevPhase := by unfold closeWriter; split <;> rfl
@[simp] theorem closeWriter_errCmd (s : State) : (closeWriter s).errCmd = s.errCmd := by unfold closeWriter; split <;> rfl
@[simp] theorem closeWriter_freq (s : State) : (closeWriter s).freq = s.freq := by unfold closeWriter; split <;> rfl
@[simp] theorem closeWriter_hdrCnt (s : State) : (closeWriter s).hdrCnt = s.hdrCnt := by unfold closeWriter; split <;> rfl
@[simp] theorem closeWriter_treeValid (s : State) : (closeWriter s).treeValid = s.treeValid := by unfold closeWriter; split <;> rfl
@[simp] theorem closeWriter_codesValid (s : State) : (closeWriter s).codesValid = s.codesValid := by unfold closeWriter; split <;> rfl
@[simp] theorem closeWriter_root (s : State) : (closeWriter s).root = s.root := by unfold closeWriter; split <;> rfl
@[simp] theorem closeWriter_leaves (s : State) : (closeWriter s).leaves = s.leaves := by unfold closeWriter; split <;> rfl
@[simp] theorem closeWriter_node (s : State) : (closeWriter s).node = s.node := by unfold closeWriter; split <;> rfl
@[simp] theorem closeWriter_code (s : State) : (closeWriter s).code = s.code := by unfold closeWriter; split <;> rfl
@[simp] theorem closeWriter_pq (s : State) : (closeWriter s).pq = s.pq := by unfold closeWriter; split <;> rfl
@[simp] theorem closeWriter_dnode (s : State) : (closeWriter s).dnode = s.dnode := by unfold closeWriter; split <;> rfl
@[simp] theorem closeWriter_encBits (s : State) : (closeWriter s).encBits = s.encBits := by unfold closeWriter; split <;> rfl
@[simp] theorem closeWriter_decBytes (s : State) : (closeWriter s).decBytes = s.decBytes := by unfold closeWriter; split <;> rfl
@[simp] theorem closeWriter_trailing (s : State) : (closeWriter s).trailing = s.trailing := by unfold closeWriter; split <;> rfl
@[simp] theorem closeWriter_inputs (s : State) : (closeWriter s).inputs = s.inputs := by unfold closeWriter; split <;> rfl
@[simp] theorem closeWriter_hostReads (s : State) : (closeWriter s).hostReads = s.hostReads := by unfold closeWriter; split <;> rfl
@[simp] theorem closeWriter_popped (s : State) : (closeWriter s).popped = s.popped := by unfold closeWriter; split <;> rfl
@[simp] theorem closeWriter_freeCount (s : State) : (closeWriter s).freeCount = s.freeCount := by unfold closeWriter; split <;> rfl

/-! ### `emitCode` writes the writer, OUT and ENC_BITS only (R203) -/

@[simp] theorem emitCode_cfg (e : CodeEntry) (s : State) : (emitCode e s).cfg = s.cfg := by simp [emitCode]
@[simp] theorem emitCode_pend (e : CodeEntry) (s : State) : (emitCode e s).pend = s.pend := by simp [emitCode]
@[simp] theorem emitCode_arg (e : CodeEntry) (s : State) : (emitCode e s).arg = s.arg := by simp [emitCode]
@[simp] theorem emitCode_irqEn (e : CodeEntry) (s : State) : (emitCode e s).irqEn = s.irqEn := by simp [emitCode]
@[simp] theorem emitCode_result (e : CodeEntry) (s : State) : (emitCode e s).result = s.result := by simp [emitCode]
@[simp] theorem emitCode_phase (e : CodeEntry) (s : State) : (emitCode e s).phase = s.phase := by simp [emitCode]
@[simp] theorem emitCode_errKind (e : CodeEntry) (s : State) : (emitCode e s).errKind = s.errKind := by simp [emitCode]
@[simp] theorem emitCode_prevPhase (e : CodeEntry) (s : State) : (emitCode e s).prevPhase = s.prevPhase := by simp [emitCode]
@[simp] theorem emitCode_errCmd (e : CodeEntry) (s : State) : (emitCode e s).errCmd = s.errCmd := by simp [emitCode]
@[simp] theorem emitCode_freq (e : CodeEntry) (s : State) : (emitCode e s).freq = s.freq := by simp [emitCode]
@[simp] theorem emitCode_hdrCnt (e : CodeEntry) (s : State) : (emitCode e s).hdrCnt = s.hdrCnt := by simp [emitCode]
@[simp] theorem emitCode_treeValid (e : CodeEntry) (s : State) : (emitCode e s).treeValid = s.treeValid := by simp [emitCode]
@[simp] theorem emitCode_codesValid (e : CodeEntry) (s : State) : (emitCode e s).codesValid = s.codesValid := by simp [emitCode]
@[simp] theorem emitCode_root (e : CodeEntry) (s : State) : (emitCode e s).root = s.root := by simp [emitCode]
@[simp] theorem emitCode_leaves (e : CodeEntry) (s : State) : (emitCode e s).leaves = s.leaves := by simp [emitCode]
@[simp] theorem emitCode_node (e : CodeEntry) (s : State) : (emitCode e s).node = s.node := by simp [emitCode]
@[simp] theorem emitCode_code (e : CodeEntry) (s : State) : (emitCode e s).code = s.code := by simp [emitCode]
@[simp] theorem emitCode_pq (e : CodeEntry) (s : State) : (emitCode e s).pq = s.pq := by simp [emitCode]
@[simp] theorem emitCode_dnode (e : CodeEntry) (s : State) : (emitCode e s).dnode = s.dnode := by simp [emitCode]
@[simp] theorem emitCode_decBytes (e : CodeEntry) (s : State) : (emitCode e s).decBytes = s.decBytes := by simp [emitCode]
@[simp] theorem emitCode_trailing (e : CodeEntry) (s : State) : (emitCode e s).trailing = s.trailing := by simp [emitCode]
@[simp] theorem emitCode_inputs (e : CodeEntry) (s : State) : (emitCode e s).inputs = s.inputs := by simp [emitCode]
@[simp] theorem emitCode_hostReads (e : CodeEntry) (s : State) : (emitCode e s).hostReads = s.hostReads := by simp [emitCode]
@[simp] theorem emitCode_popped (e : CodeEntry) (s : State) : (emitCode e s).popped = s.popped := by simp [emitCode]
@[simp] theorem emitCode_freeCount (e : CodeEntry) (s : State) : (emitCode e s).freeCount = s.freeCount := by simp [emitCode]

/-! ## What the writer does to its own state -/

theorem emitBits_append (a b : List Bool) (s : State) : emitBits (a ++ b) s = emitBits b (emitBits a s) := by
  induction a generalizing s with
  | nil => rfl
  | cons x a ih => simp [emitBits, ih]

theorem emitBit_wcnt (b : Bool) (s : State) : (emitBit b s).wcnt = s.wcnt + 1#3 := by
  unfold emitBit
  split
  · rename_i h; rw [h]; rfl
  · rfl

/-- WCNT counts the bits modulo 8 (R201). -/
theorem emitBits_wcnt (bs : List Bool) (s : State) :
    (emitBits bs s).wcnt.toNat = (s.wcnt.toNat + bs.length) % 8 := by
  induction bs generalizing s with
  | nil => simp only [emitBits, List.length_nil, Nat.add_zero]; have := s.wcnt.isLt; omega
  | cons b bs ih =>
    rw [emitBits, ih, emitBit_wcnt, BitVec.toNat_add, List.length_cons]
    have : (1#3).toNat = 1 := rfl
    omega

theorem emitBit_length (b : Bool) (s : State) :
    (emitBit b s).out.length = s.out.length + (s.wcnt.toNat + 1) / 8 := by
  unfold emitBit
  split
  · rename_i h; simp [h]
  · rename_i h
    have : s.wcnt.toNat ≠ 7 := fun e => h (BitVec.eq_of_toNat_eq e)
    have := s.wcnt.isLt
    simp only [Nat.left_eq_add]
    omega

/-- `n` bits push `⌊(WCNT + n) / 8⌋` bytes (R203, R205). -/
theorem emitBits_length (bs : List Bool) (s : State) :
    (emitBits bs s).out.length = s.out.length + (s.wcnt.toNat + bs.length) / 8 := by
  induction bs generalizing s with
  | nil => simp only [emitBits, List.length_nil, Nat.add_zero]; have := s.wcnt.isLt; omega
  | cons b bs ih =>
    rw [emitBits, ih, emitBit_length, emitBit_wcnt, BitVec.toNat_add, List.length_cons]
    have : (1#3).toNat = 1 := rfl
    omega

/-- The writer only appends to OUT. -/
theorem emitBits_prefix (bs : List Bool) (s : State) : s.out <+: (emitBits bs s).out := by
  induction bs generalizing s with
  | nil => exact List.prefix_rfl
  | cons b bs ih =>
    refine List.IsPrefix.trans ?_ (ih (emitBit b s))
    unfold emitBit
    split
    · simp
    · exact List.prefix_rfl

/-- Closing pushes one byte when bits are pending, none otherwise (R202). -/
theorem closeWriter_length (s : State) :
    (closeWriter s).out.length = s.out.length + (s.wcnt.toNat + 7) / 8 := by
  unfold closeWriter
  split
  · rename_i h; simp [h]
  · rename_i h
    have : s.wcnt.toNat ≠ 0 := fun e => h (BitVec.eq_of_toNat_eq e)
    have := s.wcnt.isLt
    simp only [pushOut_out, List.length_append, List.length_singleton]
    omega

theorem closeWriter_wcnt (s : State) : (closeWriter s).wcnt = 0#3 := by
  unfold closeWriter
  split
  · assumption
  · rfl

theorem closeWriter_prefix (s : State) : s.out <+: (closeWriter s).out := by
  unfold closeWriter
  split
  · exact List.prefix_rfl
  · simp

/-! ## Clean pending bits stay clean -/

/-- WBUF bits at and above WCNT are 0 (R45). -/
def writerClean (s : State) : Prop := s.wbuf.toNat < 2 ^ s.wcnt.toNat

theorem emitBit_wbuf_toNat (b : Bool) (s : State) (h : s.wcnt ≠ 7#3) (hc : writerClean s) :
    (emitBit b s).wbuf.toNat = 2 * s.wbuf.toNat + b.toNat := by
  have hw : s.wcnt.toNat ≠ 7 := fun e => h (BitVec.eq_of_toNat_eq e)
  have hlt := s.wcnt.isLt
  have hb : s.wbuf.toNat < 64 := by
    have : 2 ^ s.wcnt.toNat ≤ 2 ^ 6 := Nat.pow_le_pow_right (by omega) (by omega)
    unfold writerClean at hc
    omega
  unfold emitBit
  rw [if_neg h]
  simp only [BitVec.toNat_append, BitVec.extractLsb'_toNat, Nat.shiftRight_zero, BitVec.toNat_ofBool]
  rw [Nat.mod_eq_of_lt (by omega : s.wbuf.toNat < 2 ^ 6), Nat.shiftLeft_eq]
  rw [Nat.mul_comm, ← Nat.two_pow_add_eq_or_of_lt (i := 1) (by cases b <;> decide)]

theorem emitBit_clean (b : Bool) (s : State) (hc : writerClean s) : writerClean (emitBit b s) := by
  by_cases h : s.wcnt = 7#3
  · unfold writerClean emitBit; rw [if_pos h]; simp
  · unfold writerClean
    rw [emitBit_wbuf_toNat b s h hc, emitBit_wcnt, BitVec.toNat_add]
    have hw : s.wcnt.toNat ≠ 7 := fun e => h (BitVec.eq_of_toNat_eq e)
    have := s.wcnt.isLt
    have e : (s.wcnt.toNat + (1#3).toNat) % 2 ^ 3 = s.wcnt.toNat + 1 := by
      have : (1#3).toNat = 1 := rfl
      omega
    rw [e, Nat.pow_succ]
    unfold writerClean at hc
    cases b <;> simp <;> omega

theorem emitBits_clean (bs : List Bool) (s : State) (hc : writerClean s) : writerClean (emitBits bs s) := by
  induction bs generalizing s with
  | nil => exact hc
  | cons b bs ih => exact ih _ (emitBit_clean b s hc)

theorem closeWriter_clean (s : State) (hc : writerClean s) : writerClean (closeWriter s) := by
  unfold closeWriter
  split
  · exact hc
  · simp [writerClean]

/-! ## The bits written, in order -/

/-- One more bit is written after all the others (R84, R201). -/
theorem emitBit_writtenBits (b : Bool) (s : State) (hc : writerClean s) :
    writtenBits (emitBit b s) = writtenBits s ++ [b] := by
  by_cases h : s.wcnt = 7#3
  · have e7 : s.wcnt.toNat = 7 := by rw [h]; rfl
    have hp : pendingBits s = [s.wbuf.getLsbD 6, s.wbuf.getLsbD 5, s.wbuf.getLsbD 4, s.wbuf.getLsbD 3,
        s.wbuf.getLsbD 2, s.wbuf.getLsbD 1, s.wbuf.getLsbD 0] := by
      rw [pendingBits, e7]; rfl
    have hb : byteBits (s.wbuf ++ BitVec.ofBool b : BitVec 8) = pendingBits s ++ [b] := by
      rw [hp]
      simp only [byteBits, BitVec.getLsbD_append]
      cases b <;> simp
    have ho : (emitBit b s).out = s.out ++ [(s.wbuf ++ BitVec.ofBool b : BitVec 8)] := by
      unfold emitBit; rw [if_pos h]; rfl
    have hq : pendingBits (emitBit b s) = [] := by
      unfold emitBit pendingBits; rw [if_pos h]; rfl
    rw [writtenBits, ho, hq, bytesBits_append, bytesBits_singleton, hb, writtenBits]
    simp
  · have hw : s.wcnt.toNat ≠ 7 := fun e => h (BitVec.eq_of_toNat_eq e)
    have hlt := s.wcnt.isLt
    have ho : (emitBit b s).out = s.out := by unfold emitBit; rw [if_neg h]
    have hcnt : (emitBit b s).wcnt.toNat = s.wcnt.toNat + 1 := by
      rw [emitBit_wcnt, BitVec.toNat_add]
      have : (1#3).toNat = 1 := rfl
      omega
    have hp : pendingBits (emitBit b s) = pendingBits s ++ [b] := by
      unfold pendingBits
      rw [hcnt, List.range_succ, List.map_append, List.map_singleton]
      have bit : ∀ j, (emitBit b s).wbuf.getLsbD j = (if j = 0 then b else s.wbuf.getLsbD (j - 1)) := by
        intro j
        rw [← BitVec.testBit_toNat, emitBit_wbuf_toNat b s h hc, ← BitVec.testBit_toNat]
        cases j with
        | zero => cases b <;> simp [Nat.testBit_zero, Nat.add_mod]
        | succ j =>
          rw [if_neg (by omega), Nat.testBit_succ]
          congr 1
          cases b <;> (simp; try omega)
      congr 1
      · apply List.map_congr_left
        intro k hk
        rw [List.mem_range] at hk
        rw [bit, if_neg (by omega)]
        congr 1
        omega
      · rw [bit, if_pos (by omega)]
    rw [writtenBits, ho, hp, writtenBits, List.append_assoc]

/-- A run of bits is written after all the others, in order. -/
theorem emitBits_writtenBits (bs : List Bool) (s : State) (hc : writerClean s) :
    writtenBits (emitBits bs s) = writtenBits s ++ bs := by
  induction bs generalizing s with
  | nil => simp [emitBits]
  | cons b bs ih =>
    rw [emitBits, ih _ (emitBit_clean b s hc), emitBit_writtenBits b s hc, List.append_assoc, List.singleton_append]

end Sys2Proof.Machine
end

