-- ==== Sys2Proof/Laws/Tree.lean ====
section
/-! SUPPORT. The priority queue and the merges: what `removeMin` removes (R162), what one merge does, and how many merges
leave one entry (R161, R163). -/

namespace Sys2Proof.Machine

open Sys2Proof

/-! ## The removal order -/

/-- `before` is the lexicographic order on `(key, seq)` (R162). -/
theorem before_iff (a b : QEntry) : QEntry.before a b = true ↔
    a.key.toNat < b.key.toNat ∨ (a.key.toNat = b.key.toNat ∧ a.seq < b.seq) := by
  simp [QEntry.before, BitVec.lt_def, BitVec.toNat_inj]

theorem before_false_iff (a b : QEntry) : QEntry.before a b = false ↔
    b.key.toNat < a.key.toNat ∨ (b.key.toNat = a.key.toNat ∧ b.seq ≤ a.seq) := by
  rw [← Bool.not_eq_true, before_iff]
  omega

theorem firstOut_mem (m : QEntry) (q : List QEntry) : firstOut m q ∈ m :: q := by
  induction q generalizing m with
  | nil => simp [firstOut]
  | cons e q ih =>
    have := ih (if QEntry.before e m then e else m)
    simp only [firstOut, List.mem_cons] at this ⊢
    rcases this with h | h
    · split at h <;> simp_all
    · exact .inr (.inr h)

/-- No entry is removed before the one `firstOut` gives. -/
theorem firstOut_least (m : QEntry) (q : List QEntry) : ∀ e ∈ m :: q, QEntry.before e (firstOut m q) = false := by
  induction q generalizing m with
  | nil => intro e he; simp at he; subst he; simp [firstOut, before_false_iff]
  | cons x q ih =>
    intro e he
    rw [firstOut]
    have key := ih (if QEntry.before x m then x else m)
    have hd := key _ (List.mem_cons_self)
    rcases List.mem_cons.1 he with rfl | he
    · by_cases hb : QEntry.before x e = true
      · rw [if_pos hb] at hd ⊢
        rw [before_iff] at hb
        rw [before_false_iff] at hd ⊢
        omega
      · rw [if_neg hb] at hd ⊢; exact hd
    · rcases List.mem_cons.1 he with rfl | he
      · by_cases hb : QEntry.before e m = true
        · rw [if_pos hb] at hd ⊢; exact hd
        · rw [if_neg hb] at hd ⊢
          rw [Bool.not_eq_true, before_false_iff] at hb
          rw [before_false_iff] at hd ⊢
          omega
      · exact key e (List.mem_cons_of_mem _ he)

theorem removeMin_eq_none (q : List QEntry) : removeMin q = none ↔ q = [] := by
  cases q <;> simp [removeMin]

/-- What `removeMin` removes and leaves (R162). -/
theorem removeMin_spec {q r : List QEntry} {e : QEntry} (h : removeMin q = some (e, r)) :
    q.Perm (e :: r) ∧ q.length = r.length + 1 ∧ ∀ x ∈ q, QEntry.before x e = false := by
  cases q with
  | nil => simp [removeMin] at h
  | cons x q =>
    simp only [removeMin, Option.some.injEq, Prod.mk.injEq] at h
    obtain ⟨rfl, rfl⟩ := h
    have hp := List.perm_cons_erase (firstOut_mem x q)
    exact ⟨hp, by simpa using hp.length_eq, firstOut_least x q⟩

theorem removeMin_some {q : List QEntry} (h : q ≠ []) : ∃ e r, removeMin q = some (e, r) := by
  cases q with
  | nil => exact absurd rfl h
  | cons x q => exact ⟨_, _, rfl⟩

/-! ## Merges -/

/-- With fewer than two entries there is no merge. -/
theorem mergeOnce_short (numLeaves : Nat) (b : Builder) (h : b.q.length < 2) : mergeOnce numLeaves b = b := by
  unfold mergeOnce
  split
  · rfl
  · rename_i e1 q1 h1
    have := (removeMin_spec h1).2.1
    have hq : q1 = [] := List.eq_nil_of_length_eq_zero (by omega)
    subst hq
    rfl

/-- Everything one merge does (R161). -/
theorem mergeOnce_cases (numLeaves : Nat) (b : Builder) (h : 2 ≤ b.q.length) :
    ∃ e1 q1 e2 q2, removeMin b.q = some (e1, q1) ∧ removeMin q1 = some (e2, q2) ∧
      mergeOnce numLeaves b =
        { q := q2 ++ [⟨e1.key + e2.key, numLeaves + (b.next - 257), BitVec.ofNat 10 b.next⟩]
          node := setNodeIn b.node b.next ⟨e1.key + e2.key, e1.id, e2.id⟩
          next := b.next + 1 } := by
  obtain ⟨e1, q1, h1⟩ := removeMin_some (q := b.q) (by rintro e; simp [e] at h)
  have l1 := (removeMin_spec h1).2.1
  obtain ⟨e2, q2, h2⟩ := removeMin_some (q := q1) (by rintro rfl; simp at l1; omega)
  exact ⟨e1, q1, e2, q2, h1, h2, by simp [mergeOnce, h1, h2]⟩

/-- `k` merges of `k + 1` entries leave one, and make `k` nodes (R161, R163). -/
theorem mergeAll_exact (numLeaves k : Nat) (b : Builder) (h : b.q.length = k + 1) :
    (mergeAll numLeaves k b).q.length = 1 ∧ (mergeAll numLeaves k b).next = b.next + k := by
  induction k generalizing b with
  | zero => exact ⟨h, rfl⟩
  | succ k ih =>
    obtain ⟨e1, q1, e2, q2, h1, h2, hm⟩ := mergeOnce_cases numLeaves b (by omega)
    have l1 := (removeMin_spec h1).2.1
    have l2 := (removeMin_spec h2).2.1
    have := ih (mergeOnce numLeaves b) (by rw [hm]; simp; omega)
    rw [mergeAll]
    refine ⟨this.1, ?_⟩
    rw [this.2, hm]
    show b.next + 1 + k = b.next + (k + 1)
    omega

/-- Merges beyond the last one change nothing. -/
theorem mergeAll_short (numLeaves k : Nat) (b : Builder) (h : b.q.length < 2) : mergeAll numLeaves k b = b := by
  induction k with
  | zero => rfl
  | succ k ih => rw [mergeAll, mergeOnce_short numLeaves b h, ih]

theorem mergeAll_add (numLeaves j k : Nat) (b : Builder) :
    mergeAll numLeaves (j + k) b = mergeAll numLeaves k (mergeAll numLeaves j b) := by
  induction j generalizing b with
  | zero => rw [Nat.zero_add]; rfl
  | succ j ih => rw [Nat.add_right_comm, mergeAll, mergeAll, ih]

/-! ## Leaves -/

theorem mem_leafSyms {s : State} {n : Nat} : n ∈ leafSyms s ↔ n ≤ 256 ∧ freqAt s n ≠ 0#32 := by
  simp [leafSyms]
  omega

theorem leafSyms_nodup (s : State) : (leafSyms s).Nodup := List.Nodup.filter _ List.nodup_range

theorem leafSyms_length_le (s : State) : (leafSyms s).length ≤ 257 := by
  have := List.length_filter_le (fun n => decide (freqAt s n ≠ 0#32)) (List.range 257)
  simpa [leafSyms] using this

theorem leafSyms_congr {s t : State} (h : t.freq = s.freq) : leafSyms t = leafSyms s := by
  simp [leafSyms, freqAt_congr h]

@[simp] theorem leafQueue_length (s : State) : (leafQueue s).length = (leafSyms s).length := by simp [leafQueue]

/-- A table with at least one leaf leaves one queue entry, after one merge fewer than leaves (R161, R163). -/
theorem builtFrom_one (s : State) (h : leafSyms s ≠ []) :
    (builtFrom s).q.length = 1 ∧ (builtFrom s).next = 256 + (leafSyms s).length := by
  obtain ⟨k, hk⟩ : ∃ k, (leafSyms s).length = k + 1 :=
    ⟨(leafSyms s).length - 1, by have := List.length_pos_iff.2 h; omega⟩
  have hx := mergeAll_exact (leafSyms s).length k ⟨leafQueue s, s.node, 257⟩ (by simp [hk])
  have e : builtFrom s = mergeAll (leafSyms s).length 1 (mergeAll (leafSyms s).length k ⟨leafQueue s, s.node, 257⟩) := by
    rw [← mergeAll_add, builtFrom, hk]
  rw [e, mergeAll_short _ _ _ (by omega)]
  exact ⟨hx.1, by rw [hx.2]; show 257 + k = _; omega⟩

end Sys2Proof.Machine
end

