-- ==== Sys2Proof/Laws/Memory.lean ====
section
/-! SUPPORT. Every operation over the internal memories keeps their canonical form, and they have it at reset. -/

namespace Sys2Proof.Machine

open Sys2Proof

theorem memory_wf_iff (s : State) : Memory.wf s = true ↔
    (∀ n ≤ 256, (freqAt s n).toNat ≤ s.cfg.freqMax) ∧
    (s.codesValid = true → ∀ n ≤ 256, codeCanonical (codeAt s n) = true) := by
  simp only [Memory.wf, Bool.and_eq_true, List.all_eq_true, List.mem_range, decide_eq_true_eq, Bool.or_eq_true,
    Bool.not_eq_true']
  constructor
  · rintro ⟨h, h'⟩
    exact ⟨fun n hn => h n (by omega), fun hc n hn => (h'.resolve_left (by simp [hc])) n (by omega)⟩
  · rintro ⟨h, h'⟩
    refine ⟨fun n hn => h n (by omega), ?_⟩
    cases hc : s.codesValid with
    | false => exact .inl rfl
    | true => exact .inr fun n hn => h' hc n (by omega)

/-- The canonical form depends on the parameters, FREQ, CODE and CODES_VALID only. -/
theorem memory_wf_congr {s t : State} (h0 : t.cfg = s.cfg) (h1 : t.freq = s.freq) (h2 : t.code = s.code)
    (h3 : t.codesValid = s.codesValid) : Memory.wf t = Memory.wf s := by
  simp only [Memory.wf, freqAt_congr h1, codeAt_congr h2, h0, h3]

theorem memory_wf_setFreq {s : State} (h : Memory.wf s = true) (n : Nat) (v : Word) (hn : n ≤ 256)
    (hv : v.toNat ≤ s.cfg.freqMax) : Memory.wf (setFreq n v s) = true := by
  rw [memory_wf_iff] at h ⊢
  refine ⟨fun m hm => ?_, fun hc m hm => ?_⟩
  · rw [freqAt_setFreq _ _ _ _ hn, setFreq_cfg]
    split
    · exact hv
    · exact h.1 m hm
  · rw [codeAt_congr (setFreq_code n v s)]
    exact h.2 (by simpa using hc) m hm

theorem one_le_freqMax (c : Config) (h : c.ok = true) : 1 ≤ c.freqMax := by
  simp only [Config.ok, Bool.and_eq_true, decide_eq_true_eq] at h
  have : 2 ^ 1 ≤ 2 ^ c.freqWidth := Nat.pow_le_pow_right (by omega) h.1.1
  unfold Config.freqMax
  omega

/-- The memories are canonical whenever FREQ is the empty table and there are no codes. -/
theorem memory_wf_empty {s : State} (hc : s.cfg.ok = true) (h : s.freq = State.emptyFreq) (h' : s.codesValid = false) :
    Memory.wf s = true := by
  rw [memory_wf_iff]
  refine ⟨fun n _ => ?_, fun e => by simp [h'] at e⟩
  rw [freqAt_empty s h]
  have := one_le_freqMax s.cfg hc
  split
  · exact this
  · exact Nat.zero_le _

theorem memory_wf_clear (s : State) (h : s.cfg.ok = true) : Memory.wf (clear s) = true :=
  memory_wf_empty h rfl rfl

theorem memory_wf_hardReset (s : State) (h : s.cfg.ok = true) : Memory.wf (hardReset s) = true :=
  memory_wf_empty h rfl rfl

theorem memory_wf_reset : Memory.wf State.reset = true := memory_wf_empty rfl rfl rfl

theorem memory_wf_genCodes {s : State} (h : Memory.wf s = true) : Memory.wf (genCodes s) = true := by
  rw [memory_wf_iff] at h ⊢
  refine ⟨fun n hn => ?_, fun _ n _ => ?_⟩
  · exact h.1 n hn
  · exact codeTable_canonical s n

end Sys2Proof.Machine
end

