-- ==== Sys2Proof/Laws/Engine.lean ====
section
/-! SUPPORT. Everything a step can do, said once: the cases of `step` and of `execute` (R20, R73, R82, R111). -/

namespace Sys2Proof.Machine

open Sys2Proof

/-- What executing a word does, as a function of the state (R111). -/
def wordEffect (w : Word) (s : State) : State :=
  if s.phase = .error then
    if w = encode .clr then clear s else s
  else
    match decode w with
    | .error r => raise (rejectError r) w s
    | .ok i => effect i s

/-- Executing a word never faults and is never refused. -/
theorem execute_eq_next (w : Word) (s : State) : execute w s = .next (wordEffect w s) := by
  unfold execute wordEffect
  split
  · split <;> rfl
  · cases decode w with
    | error r => rfl
    | ok i => exact exec_eq_next i s

/-- Everything a step that ends in a next state can be: the engine's, the outside world's, each with or without a draw of the
free order, or nothing while the block waits for its host. -/
theorem step_cases {s t : State} (h : step s = .next t) :
    (∃ w u, s.pend = some w ∧ engineReady s = true ∧ (u = s ∨ u = { s with freeCount := s.freeCount + 1 }) ∧
      t = wordEffect w { u with pend := none })
    ∨ (∃ u, hostReady s = true ∧ (u = s ∨ u = { s with freeCount := s.freeCount + 1 }) ∧ t = hostStep u)
    ∨ (engineReady s = false ∧ hostReady s = false ∧ hung s = false ∧ t = s) := by
  unfold step anyStep at h
  cases he : engineReady s with
  | true =>
    obtain ⟨w, hw⟩ : ∃ w, s.pend = some w := by
      cases hp : s.pend with
      | none => simp [engineReady, hp] at he
      | some w => exact ⟨w, rfl⟩
    cases hh : hostReady s with
    | true =>
      simp only [he, hh, if_true] at h
      unfold race at h
      split at h
      · simp only [engineStep, hw, execute_eq_next] at h
        injection h with h
        exact .inl ⟨w, _, hw, rfl, .inr rfl, h.symm⟩
      · injection h with h
        exact .inr (.inl ⟨_, rfl, .inr rfl, h.symm⟩)
    | false =>
      simp only [he, hh, if_true, Bool.false_eq_true, if_false] at h
      simp only [engineStep, hw, execute_eq_next] at h
      injection h with h
      exact .inl ⟨w, _, hw, rfl, .inl rfl, h.symm⟩
  | false =>
    cases hh : hostReady s with
    | true =>
      simp only [he, hh, if_true, Bool.false_eq_true, if_false] at h
      injection h with h
      exact .inr (.inl ⟨_, rfl, .inl rfl, h.symm⟩)
    | false =>
      simp only [he, hh, Bool.false_eq_true, if_false] at h
      cases hg : hung s with
      | true => simp [hg] at h
      | false =>
        simp only [hg, Bool.false_eq_true, if_false] at h
        injection h with h
        exact .inr (.inr ⟨rfl, rfl, rfl, h.symm⟩)

/-- The only way a step stops: a held command with a held access behind it (R281). -/
theorem step_stops {s : State} (h : ∀ t, step s ≠ .next t) :
    step s = .fault .hang ∧ engineReady s = false ∧ hostReady s = false ∧ s.pend ≠ none ∧ s.inputs ≠ [] := by
  unfold step anyStep at h ⊢
  cases he : engineReady s with
  | true =>
    obtain ⟨w, hw⟩ : ∃ w, s.pend = some w := by
      cases hp : s.pend with
      | none => simp [engineReady, hp] at he
      | some w => exact ⟨w, rfl⟩
    cases hh : hostReady s with
    | true =>
      simp only [he, hh, if_true] at h
      unfold race at h
      split at h
      · simp only [engineStep, hw, execute_eq_next] at h
        exact absurd rfl (h _)
      · exact absurd rfl (h _)
    | false =>
      simp only [he, hh, if_true, Bool.false_eq_true, if_false, engineStep, hw, execute_eq_next] at h
      exact absurd rfl (h _)
  | false =>
    cases hh : hostReady s with
    | true =>
      simp only [he, hh, if_true, Bool.false_eq_true, if_false] at h
      exact absurd rfl (h _)
    | false =>
      simp only [he, hh, Bool.false_eq_true, if_false] at h ⊢
      cases hg : hung s with
      | true =>
        refine ⟨by simp, trivial, trivial, ?_, ?_⟩
        · rintro e; simp [hung, e] at hg
        · rintro e; simp [hung, e] at hg
      | false =>
        simp only [hg, Bool.false_eq_true, if_false] at h
        exact absurd rfl (h _)

end Sys2Proof.Machine
end

