-- ==== Sys2Proof/Laws/PerInstr.lean ====
section
/-! SUPPORT. Facts about every command as syntax, one lemma per constructor: its word carries its opcode (R104), and its
reserved operand bits are 0 (R106). -/

namespace Sys2Proof.Laws

open Sys2Proof

/-- The opcode of a command (R104). -/
def opcodeName : Instr → Opcode
  | .nop => .nop
  | .clr => .clr
  | .count _ => .count
  | .loadFreq => .loadFreq
  | .readFreq _ => .readFreq
  | .buildTree => .buildTree
  | .readNode _ _ => .readNode
  | .genCodes => .genCodes
  | .readCodeLen _ => .readCodeLen
  | .readCodeWord _ _ => .readCodeWord
  | .encByte _ => .encByte
  | .encEnd => .encEnd
  | .decFeed _ => .decFeed
  | .decEoi => .decEoi

/-- OPC of a command's word is the opcode map's value, and the map gives the opcode back (R104). -/
def OpcodeByte.Statement (i : Instr) : Prop :=
  opcField (encode i) = opcByte (opcodeName i) ∧ opcodeOf (opcField (encode i)) = some (opcodeName i)

/-- Every reserved operand bit of a command's word is 0 (R106). -/
def ReservedZero.Statement (i : Instr) : Prop :=
  operandField (encode i) &&& rzMask (formatOf (opcodeName i)) = 0#24

theorem opcodeOf_opcByte (op : Opcode) : opcodeOf (opcByte op) = some op := by cases op <;> rfl

theorem OpcodeByte.nop : OpcodeByte.Statement .nop := by
  exact ⟨rfl, rfl⟩

theorem OpcodeByte.clr : OpcodeByte.Statement .clr := by
  exact ⟨rfl, rfl⟩

theorem OpcodeByte.count (b : Byte) : OpcodeByte.Statement (.count b) := by
  have h : opcField (encode (.count b)) = opcByte .count := by
    ext i h
    simp only [opcField, opcByte, encode, BitVec.getElem_extractLsb', BitVec.getLsbD_append]
    interval_cases i <;> simp
  exact ⟨h, by rw [h]; exact opcodeOf_opcByte .count⟩

theorem OpcodeByte.loadFreq : OpcodeByte.Statement .loadFreq := by
  exact ⟨rfl, rfl⟩

theorem OpcodeByte.readFreq (s : Sym) : OpcodeByte.Statement (.readFreq s) := by
  have h : opcField (encode (.readFreq s)) = opcByte .readFreq := by
    ext i h
    simp only [opcField, opcByte, encode, BitVec.getElem_extractLsb', BitVec.getLsbD_append]
    interval_cases i <;> simp
  exact ⟨h, by rw [h]; exact opcodeOf_opcByte .readFreq⟩

theorem OpcodeByte.buildTree : OpcodeByte.Statement .buildTree := by
  exact ⟨rfl, rfl⟩

theorem OpcodeByte.readNode (n : NodeId) (sel : BitVec 2) : OpcodeByte.Statement (.readNode n sel) := by
  have h : opcField (encode (.readNode n sel)) = opcByte .readNode := by
    ext i h
    simp only [opcField, opcByte, encode, BitVec.getElem_extractLsb', BitVec.getLsbD_append]
    interval_cases i <;> simp
  exact ⟨h, by rw [h]; exact opcodeOf_opcByte .readNode⟩

theorem OpcodeByte.genCodes : OpcodeByte.Statement .genCodes := by
  exact ⟨rfl, rfl⟩

theorem OpcodeByte.readCodeLen (s : Sym) : OpcodeByte.Statement (.readCodeLen s) := by
  have h : opcField (encode (.readCodeLen s)) = opcByte .readCodeLen := by
    ext i h
    simp only [opcField, opcByte, encode, BitVec.getElem_extractLsb', BitVec.getLsbD_append]
    interval_cases i <;> simp
  exact ⟨h, by rw [h]; exact opcodeOf_opcByte .readCodeLen⟩

theorem OpcodeByte.readCodeWord (s : Sym) (k : BitVec 3) : OpcodeByte.Statement (.readCodeWord s k) := by
  have h : opcField (encode (.readCodeWord s k)) = opcByte .readCodeWord := by
    ext i h
    simp only [opcField, opcByte, encode, BitVec.getElem_extractLsb', BitVec.getLsbD_append]
    interval_cases i <;> simp
  exact ⟨h, by rw [h]; exact opcodeOf_opcByte .readCodeWord⟩

theorem OpcodeByte.encByte (b : Byte) : OpcodeByte.Statement (.encByte b) := by
  have h : opcField (encode (.encByte b)) = opcByte .encByte := by
    ext i h
    simp only [opcField, opcByte, encode, BitVec.getElem_extractLsb', BitVec.getLsbD_append]
    interval_cases i <;> simp
  exact ⟨h, by rw [h]; exact opcodeOf_opcByte .encByte⟩

theorem OpcodeByte.encEnd : OpcodeByte.Statement .encEnd := by
  exact ⟨rfl, rfl⟩

theorem OpcodeByte.decFeed (b : Byte) : OpcodeByte.Statement (.decFeed b) := by
  have h : opcField (encode (.decFeed b)) = opcByte .decFeed := by
    ext i h
    simp only [opcField, opcByte, encode, BitVec.getElem_extractLsb', BitVec.getLsbD_append]
    interval_cases i <;> simp
  exact ⟨h, by rw [h]; exact opcodeOf_opcByte .decFeed⟩

theorem OpcodeByte.decEoi : OpcodeByte.Statement .decEoi := by
  exact ⟨rfl, rfl⟩

theorem ReservedZero.nop : ReservedZero.Statement .nop := by
  rfl

theorem ReservedZero.clr : ReservedZero.Statement .clr := by
  rfl

theorem ReservedZero.count (b : Byte) : ReservedZero.Statement (.count b) := by
  unfold ReservedZero.Statement
  ext i h
  simp only [operandField, encode, rzMask, formatOf, opcodeName, BitVec.getElem_and, BitVec.getElem_extractLsb',
    BitVec.getLsbD_append]
  interval_cases i <;> simp

theorem ReservedZero.loadFreq : ReservedZero.Statement .loadFreq := by
  rfl

theorem ReservedZero.readFreq (s : Sym) : ReservedZero.Statement (.readFreq s) := by
  unfold ReservedZero.Statement
  ext i h
  simp only [operandField, encode, rzMask, formatOf, opcodeName, BitVec.getElem_and, BitVec.getElem_extractLsb',
    BitVec.getLsbD_append]
  interval_cases i <;> simp

theorem ReservedZero.buildTree : ReservedZero.Statement .buildTree := by
  rfl

theorem ReservedZero.readNode (n : NodeId) (sel : BitVec 2) : ReservedZero.Statement (.readNode n sel) := by
  unfold ReservedZero.Statement
  ext i h
  simp only [operandField, encode, rzMask, formatOf, opcodeName, BitVec.getElem_and, BitVec.getElem_extractLsb',
    BitVec.getLsbD_append]
  interval_cases i <;> simp

theorem ReservedZero.genCodes : ReservedZero.Statement .genCodes := by
  rfl

theorem ReservedZero.readCodeLen (s : Sym) : ReservedZero.Statement (.readCodeLen s) := by
  unfold ReservedZero.Statement
  ext i h
  simp only [operandField, encode, rzMask, formatOf, opcodeName, BitVec.getElem_and, BitVec.getElem_extractLsb',
    BitVec.getLsbD_append]
  interval_cases i <;> simp

theorem ReservedZero.readCodeWord (s : Sym) (k : BitVec 3) : ReservedZero.Statement (.readCodeWord s k) := by
  unfold ReservedZero.Statement
  ext i h
  simp only [operandField, encode, rzMask, formatOf, opcodeName, BitVec.getElem_and, BitVec.getElem_extractLsb',
    BitVec.getLsbD_append]
  interval_cases i <;> simp

theorem ReservedZero.encByte (b : Byte) : ReservedZero.Statement (.encByte b) := by
  unfold ReservedZero.Statement
  ext i h
  simp only [operandField, encode, rzMask, formatOf, opcodeName, BitVec.getElem_and, BitVec.getElem_extractLsb',
    BitVec.getLsbD_append]
  interval_cases i <;> simp

theorem ReservedZero.encEnd : ReservedZero.Statement .encEnd := by
  rfl

theorem ReservedZero.decFeed (b : Byte) : ReservedZero.Statement (.decFeed b) := by
  unfold ReservedZero.Statement
  ext i h
  simp only [operandField, encode, rzMask, formatOf, opcodeName, BitVec.getElem_and, BitVec.getElem_extractLsb',
    BitVec.getLsbD_append]
  interval_cases i <;> simp

theorem ReservedZero.decEoi : ReservedZero.Statement .decEoi := by
  rfl

end Sys2Proof.Laws
end

