-- ==== Sys2Proof/Machine/HostProgram.lean ====
section
/-! DEFINITION. The host's side: its pseudo-instructions (R113) and the encode and decode operations (R273, R274), as lists
of inputs. -/

namespace Sys2Proof.Machine

open Sys2Proof

/-- The host's pseudo-instructions (R113). -/
inductive Pseudo where
  /-- `WR reg, v`. -/
  | wr (r : Reg) (v : Word)
  /-- `RD reg`. -/
  | rd (r : Reg)
  /-- `CMD m …`. -/
  | cmd (i : Instr)
  /-- `LOADF v`. -/
  | loadf (v : Word)
  /-- `SYNC`. -/
  | sync
  /-- `DRAIN`. -/
  | drain
deriving DecidableEq, Repr

/-- The bus accesses a pseudo-instruction stands for (R113). -/
def expand : Pseudo → List Input
  | .wr r v => [.write (regOffset r) v]
  | .rd r => [.read (regOffset r)]
  | .cmd i => [.write (regOffset .cmd) (encode i)]
  | .loadf v => [.write (regOffset .arg) v, .write (regOffset .cmd) (encode .loadFreq)]
  | .sync => [.read (regOffset .status)]
  | .drain => [.read (regOffset .status), .popAll]

/-- The bus accesses of a host program. -/
def expandAll (p : List Pseudo) : List Input := p.flatMap expand

/-- `CMD READ_FREQ s`, `RD RESULT`: one header value is read out (R273 step 3). -/
def readHeaderEntry (n : Nat) : List Pseudo := [Pseudo.cmd (.readFreq (BitVec.ofNat 9 n)), Pseudo.rd .result]

/-- `CMD ENC_BYTE b`, then `DRAIN` (R273 step 5). -/
def encodeEntry (b : Byte) : List Pseudo := [Pseudo.cmd (.encByte b), Pseudo.drain]

/-- `CMD DEC_FEED d`, then `DRAIN` (R274 step 4). -/
def decodeEntry (d : Byte) : List Pseudo := [Pseudo.cmd (.decFeed d), Pseudo.drain]

/-- The encode operation of an input, its seven parts in the order of R273. -/
def encodeOperation (bytes : List Byte) : List Pseudo :=
  List.flatten
    [[Pseudo.cmd .clr],
     bytes.map (fun b => Pseudo.cmd (.count b)),
     (List.range 257).flatMap readHeaderEntry,
     [Pseudo.cmd .buildTree, Pseudo.cmd .genCodes],
     bytes.flatMap encodeEntry,
     [Pseudo.cmd .encEnd, Pseudo.drain],
     [Pseudo.rd .status, Pseudo.rd .errCode]]

/-- The decode operation of a header and a body, its six parts in the order of R274. -/
def decodeOperation (header : List Word) (body : List Byte) : List Pseudo :=
  List.flatten
    [[Pseudo.cmd .clr],
     header.map Pseudo.loadf,
     [Pseudo.cmd .buildTree],
     body.flatMap decodeEntry,
     [Pseudo.cmd .decEoi],
     [Pseudo.rd .status, Pseudo.rd .errCode]]

/-- A host program waits at the interface: its accesses, in order, are what the outside world will do (log 1). -/
def State.withInputs (s : State) (p : List Pseudo) : State := { s with inputs := expandAll p }

end Sys2Proof.Machine
end

