-- ==== Sys2Proof/Tests/Slice0.lean ====
section
/-! SUPPORT. The model's own tests: expected results from the spec's encodings (30_encoding.md), its rules' examples and the vectors
of 95_test_vectors.md; and for every statement with hypotheses a state and operands that meet them all. -/

set_option Elab.async false

namespace Sys2Proof.Tests

open Sys2Proof Sys2Proof.Machine

/-! ## Small states -/

/-- The outcome is a next state that has the property. -/
def check (o : Host.Outcome State Fault Refusal) (p : State → Bool) : Bool :=
  match o with
  | .next t => p t
  | .fault _ => false
  | .refused _ => false

theorem check_mono {o : Host.Outcome State Fault Refusal} {p q : State → Bool} (h : check o p = true)
    (hpq : ∀ t, p t = true → q t = true) : check o q = true := by
  cases o with
  | next t => exact hpq t h
  | fault f => exact h
  | refused r => exact h

/-- The table of "AAB" (95_test_vectors.md): FREQ[65] = 2, FREQ[66] = 1, FREQ[256] = 1. -/
def counted : State := setFreq 65 2#32 (setFreq 66 1#32 State.reset)

/-- The tree of "AAB": 257 = (2, 66, 256), 258 = (4, 65, 257). -/
def planted : State :=
  { counted with
    node := setNodeIn (setNodeIn counted.node 257 ⟨2#41, 66#10, 256#10⟩) 258 ⟨4#41, 65#10, 257#10⟩
    root := 258#10, leaves := 3#9, treeValid := true, dnode := 258#10, result := 3#32, phase := .tree }

/-- The codes of "AAB": 65 = 0, 66 = 10, 256 = 11. -/
def coded : State :=
  { planted with
    code := setCodeIn (setCodeIn (setCodeIn planted.code 65 (codeOf [false])) 66 (codeOf [true, false])) 256
      (codeOf [true, true])
    codesValid := true, result := 2#32, phase := .codes }

/-- After ENC_BYTE 0x42: "10" pending. -/
def midway : State := { coded with wbuf := 2#7, wcnt := 2#3, encBits := 2#32, phase := .encoding }

/-- The encoder closed. -/
def shut : State := { coded with phase := .closed, out := [0xB0#8], encBits := 4#32 }

/-- The decoder at the root of the tree of "AAB". -/
def reading : State := { planted with phase := .decoding }

/-- The decoder at the sentinel. -/
def finished : State := { planted with phase := .done, dnode := 256#10 }

/-- The tree of the empty input: the single leaf 256. -/
def lone : State :=
  { State.reset with root := 256#10, leaves := 1#9, treeValid := true, dnode := 256#10, result := 1#32, phase := .tree }

/-- After a BAD_OPERAND. -/
def failed : State := raise .badOperand 0x00000001#32 State.reset

/-- A full FIFO and a pending ENC_BYTE 0x42 whose eighth bit completes a byte. -/
def held : State := { midway with wcnt := 7#3, wbuf := 0x55#7, out := List.replicate 64 0x3F#8, pend := some 0x30000042#32 }

/-! ## Well-formedness: an ill-formed term for each check, refused -/

theorem test_ill_formed_read_freq : (Instr.readFreq 257#9).wellFormed = false := by decide
theorem test_ill_formed_read_node : (Instr.readNode 513#10 0#2).wellFormed = false := by decide
theorem test_ill_formed_sel : (Instr.readNode 512#10 3#2).wellFormed = false := by decide
theorem test_ill_formed_code_len : (Instr.readCodeLen 511#9).wellFormed = false := by decide
theorem test_ill_formed_code_word : (Instr.readCodeWord 257#9 0#3).wellFormed = false := by decide

/-! ## Decoding: one word a row, its bits written out from the row's encoding -/

theorem test_decode_nop : decode 0b00000000000000000000000000000000#32 = .ok .nop := by decide
theorem test_decode_clr : decode 0b00000001000000000000000000000000#32 = .ok .clr := by decide
theorem test_decode_count : decode 0b00000010000000000000000010000001#32 = .ok (.count 0x81#8) := by decide
theorem test_decode_load_freq : decode 0b00000011000000000000000000000000#32 = .ok .loadFreq := by decide
theorem test_decode_read_freq : decode 0b00000100000000000000000100000000#32 = .ok (.readFreq 256#9) := by decide
theorem test_decode_build_tree : decode 0b00010000000000000000000000000000#32 = .ok .buildTree := by decide
theorem test_decode_read_node : decode 0b00010001000000100000001000000000#32 = .ok (.readNode 512#10 2#2) := by decide
theorem test_decode_gen_codes : decode 0b00100000000000000000000000000000#32 = .ok .genCodes := by decide
theorem test_decode_code_len : decode 0b00100001000000000000000001000001#32 = .ok (.readCodeLen 65#9) := by decide
theorem test_decode_code_word : decode 0b00100010000001010000000010000001#32 = .ok (.readCodeWord 129#9 5#3) := by decide
theorem test_decode_enc_byte : decode 0b00110000000000000000000001000001#32 = .ok (.encByte 0x41#8) := by decide
theorem test_decode_enc_end : decode 0b00110001000000000000000000000000#32 = .ok .encEnd := by decide
theorem test_decode_dec_feed : decode 0b01000000000000000000000000101100#32 = .ok (.decFeed 0x2C#8) := by decide
theorem test_decode_dec_eoi : decode 0b01000001000000000000000000000000#32 = .ok .decEoi := by decide
/-- X1 of V-ERR: an undefined opcode. -/
theorem test_decode_undefined : decode 0x7F000000#32 = .error .illegalOpcode := by decide
/-- T14: reserved bit 18 of READ_NODE. -/
theorem test_decode_reserved : decode 0x11040100#32 = .error .reservedBits := by decide
/-- F4: READ_FREQ 257. -/
theorem test_decode_range : decode 0x04000101#32 = .error .fieldRange := by decide
/-- R112's examples of the syntax. -/
theorem test_encode_read_node : encode (.readNode 257#10 2#2) = 0x11020101#32 := by decide
theorem test_encode_code_word : encode (.readCodeWord 65#9 1#3) = 0x22010041#32 := by decide
theorem test_asm : (Instr.readNode 257#10 1#2).asm = "READ_NODE 257, 1" := by decide +kernel

/-! ## Commands, one step each, on the spec's examples -/

/-- C1. -/
theorem test_nop : check (exec .nop coded) (fun t => decide (t = coded)) = true := by decide +kernel
/-- C8. -/
theorem test_clr : check (exec .clr held) (fun t => decide (t.out = [] ∧ writerWord t = 0#32 ∧ t.phase = .freq ∧
    freqAt t 65 = 0#32 ∧ freqAt t 256 = 1#32)) = true := by decide +kernel
/-- F3. -/
theorem test_count : check (exec (.count 0x41#8) counted) (fun t => decide (freqAt t 65 = 3#32 ∧ freqAt t 66 = 1#32)) = true := by
  decide +kernel
/-- F7. -/
theorem test_count_overflow : check (exec (.count 0x00#8) (setFreq 0 0xFFFFFFFF#32 State.reset)) (fun t =>
    decide (t.errKind = .freqOverflow ∧ t.errCmd = 0x02000000#32 ∧ freqAt t 0 = 0xFFFFFFFF#32)) = true := by decide +kernel
/-- R142's example. -/
theorem test_load_freq : check (exec .loadFreq { State.reset with arg := 7#32 }) (fun t =>
    decide (freqAt t 0 = 7#32 ∧ t.hdrCnt = 1#9 ∧ t.arg = 7#32)) = true := by decide +kernel
/-- F10. -/
theorem test_load_freq_long : check (exec .loadFreq { State.reset with hdrCnt := 257#9 }) (fun t =>
    decide (errCodeWord t = 0x00000005#32 ∧ statusWord t = 0x01010107#32)) = true := by decide +kernel
/-- R143's example. -/
theorem test_read_freq : check (exec (.readFreq 65#9) counted) (fun t => decide (t.result = 2#32)) = true := by decide +kernel
/-- T1: the tree of "AAB". -/
theorem test_build_tree : check (exec .buildTree counted) (fun t => decide (t.phase = .tree ∧ t.node ≠ counted.node ∧
    treeWord t = 0x00030102#32 ∧ t.result = 3#32 ∧
    statusWord t = 0x00000009#32 ∧ decoderWord t = 0x00000102#32 ∧
    nodeAt t 257#10 = ⟨2#41, 66#10, 256#10⟩ ∧ nodeAt t 258#10 = ⟨4#41, 65#10, 257#10⟩)) = true := by decide +kernel
/-- T17: the empty input. -/
theorem test_build_tree_empty : check (exec .buildTree State.reset) (fun t =>
    decide (treeWord t = 0x00010100#32 ∧ t.result = 1#32)) = true := by decide +kernel
/-- T2. -/
theorem test_read_node : check (exec (.readNode 258#10 0#2) planted) (fun t => decide (t.result = 0x81010041#32)) = true := by
  decide +kernel
/-- T9: an absent leaf. -/
theorem test_read_node_absent : check (exec (.readNode 67#10 0#2) planted) (fun t => decide (t.result = 0#32)) = true := by
  decide +kernel
/-- K1. -/
theorem test_gen_codes : check (exec .genCodes planted) (fun t => decide (statusWord t = 0x0000001A#32 ∧ t.result = 2#32 ∧
    codeOfSym t 65 = [false] ∧ codeOfSym t 66 = [true, false] ∧ codeOfSym t 256 = [true, true] ∧ codeOfSym t 67 = [])) = true := by
  decide +kernel
/-- K10: the degenerate tree. -/
theorem test_gen_codes_lone : check (exec .genCodes lone) (fun t =>
    decide (t.result = 1#32 ∧ codeOfSym t 256 = [false])) = true := by decide +kernel
/-- K2, K6. -/
theorem test_code_len : check (exec (.readCodeLen 66#9) coded) (fun t => decide (t.result = 2#32)) = true := by decide +kernel
/-- K4. -/
theorem test_code_word : check (exec (.readCodeWord 66#9 0#3) coded) (fun t => decide (t.result = 0x80000000#32)) = true := by
  decide +kernel
/-- R203's example. -/
theorem test_enc_byte : check (exec (.encByte 0x42#8) coded) (fun t =>
    decide (writerWord t = 0x00000202#32 ∧ t.out = [] ∧ t.encBits = 2#32 ∧ t.phase = .encoding)) = true := by decide +kernel
/-- E7. -/
theorem test_enc_byte_absent : check (exec (.encByte 0x43#8) coded) (fun t =>
    decide (errCodeWord t = 0x00000207#32 ∧ t.errCmd = 0x30000043#32)) = true := by decide +kernel
/-- R204's example, E11. -/
theorem test_enc_end : check (exec .encEnd midway) (fun t =>
    decide (t.out = [0xB0#8] ∧ t.encBits = 4#32 ∧ t.phase = .closed ∧ writerWord t = 0#32)) = true := by decide +kernel
/-- E5. -/
theorem test_enc_end_closed : check (exec .encEnd shut) (fun t => decide (errCodeWord t = 0x00000404#32 ∧ t.out = [0xB0#8])) = true := by
  decide +kernel
/-- D1: R222's example. -/
theorem test_dec_feed : check (exec (.decFeed 0x2C#8) planted) (fun t => decide (t.out = [0x41#8, 0x41#8, 0x42#8] ∧
    t.dnode = 256#10 ∧ t.decBytes = 3#32 ∧ t.phase = .done)) = true := by decide +kernel
/-- R222 on the tree of "AAB": seven codes "0", then the first bit of a code "1x". -/
theorem test_dec_feed_inside : check (exec (.decFeed 0x01#8) planted) (fun t =>
    decide (t.out = List.replicate 7 0x41#8 ∧ t.dnode = 257#10 ∧ t.phase = .decoding)) = true := by decide +kernel
/-- D16. -/
theorem test_dec_feed_invalid : check (exec (.decFeed 0x80#8) lone) (fun t =>
    decide (errCodeWord t = 0x00000108#32 ∧ t.errCmd = 0x40000080#32)) = true := by decide +kernel
/-- D5. -/
theorem test_dec_eoi : check (exec .decEoi reading) (fun t =>
    decide (errCodeWord t = 0x00000509#32 ∧ t.errCmd = 0x41000000#32)) = true := by decide +kernel

/-! ## The engine, the bus and the outside world -/

/-- A command placed by `withFetchWord` is executed by the next step (C2's word of COUNT 0x41 after reset). -/
theorem test_step_count : check (step (State.reset.withFetchWord 32 0x02000041)) (fun t =>
    decide (freqAt t 65 = 1#32 ∧ t.pend = none)) = true := by decide +kernel
/-- C2: a word that is no command. -/
theorem test_step_bad_operand : check (step (State.reset.withFetchWord 32 0x00000001)) (fun t =>
    decide (statusWord t = 0x00000107#32 ∧ errCodeWord t = 2#32 ∧ t.errCmd = 1#32)) = true := by decide +kernel
/-- C5: in phase ERROR only the exact word of CLR acts. -/
theorem test_step_in_error : check (step (failed.withFetchWord 32 0x01000001)) (fun t =>
    decide (t = failed)) = true := by decide +kernel
/-- B7: the low offset bits are ignored. -/
theorem test_read_arg : check (step { State.reset with arg := 0x12345678#32, inputs := [.read 0x0B#8] }) (fun t =>
    decide (t.hostReads = [0x12345678#32])) = true := by decide +kernel
/-- B8. -/
theorem test_write_irq_en : check (step { State.reset with inputs := [.write 0x34#8 0xFFFFFFFF#32] }) (fun t =>
    decide (busWord 0x34#8 t = 7#32)) = true := by decide +kernel
/-- I3: irq with OUT_IE and one byte in the FIFO. -/
theorem test_irq : statusWord { shut with irqEn := 4#3 } = 0x0000023C#32 := by decide +kernel
/-- H2, H3: a command held for room, and a STATUS read held behind it. -/
theorem test_hang : step { held with inputs := [.read 0x10#8] } = .fault .hang := by rfl
/-- H4: an OUT_DATA read is not held. -/
theorem test_drain : check (step { held with inputs := [.read 0x30#8] }) (fun t =>
    decide (t.hostReads = [0x0000013F#32] ∧ t.out.length = 63 ∧ t.pend = some 0x30000042#32)) = true := by decide +kernel
/-- R113: DRAIN's pop loop goes on while a read returns VALID. -/
theorem test_pop_all : check (step { shut with inputs := [.popAll] }) (fun t =>
    decide (t.hostReads = [0x000001B0#32] ∧ t.inputs = [.popAll])) = true := by decide +kernel
/-- R291: what the host has popped since the CLR is the body, once the FIFO is empty. -/
theorem test_body : check (step { shut with popped := [0x11#8], inputs := [.read 0x30#8] }) (fun t =>
    decide (operationEnd t = .encoded [0x11#8, 0xB0#8])) = true := by decide +kernel
theorem test_output : operationEnd { finished with popped := [0x41#8] } = .decoded [0x41#8] := by decide +kernel
theorem test_not_yet : operationEnd shut = .notYet ∧ operationEnd State.reset = .notYet ∧ operationEnd failed = .failed ∧
    operationEnd held = .moving := by decide +kernel
/-- R291 does not say whether the host will issue further commands: what it has yet to do, or a reset, changes no answer. -/
theorem test_not_yet_inputs : operationEnd { shut with inputs := [.write 0x04#8 0#32] } = .notYet ∧
    operationEnd { State.reset with inputs := [.reset] } = .notYet ∧
    accessHeld { held with inputs := [.read 0x10#8] } = true := by decide +kernel
/-- R291: a CLR starts a new operation, for which nothing has been popped. -/
theorem test_clr_popped : check (exec .clr { shut with popped := [0x11#8] }) (fun t => decide (t.popped = [])) = true := by
  decide +kernel
/-- R27: the numbers of ENCODING and DONE. -/
theorem test_phase_numbers : (statusWord midway).toNat % 8 = 3 ∧ (statusWord finished).toNat % 8 = 6 := by decide +kernel
/-- R113: the pop loop ends with the read that returns VALID = 0. -/
theorem test_pop_all_ends : check (step { coded with inputs := [.popAll] }) (fun t =>
    decide (t.hostReads = [0#32] ∧ t.inputs = [])) = true := by decide +kernel
/-- R113: LOADF is a write of ARG, then of CMD. -/
theorem test_loadf : expand (.loadf 7#32) = [.write 0x08#8 7#32, .write 0x04#8 0x03000000#32] := by decide

/-! ## Witnesses: hypotheses met -/

theorem witness_DecodeUndoesEncode : (Instr.readNode 512#10 2#2).wellFormed = true := by decide
theorem witness_OneLegalWordPerCommand : decode 0x22070100#32 = .ok (.readCodeWord 256#9 7#3) := by decide
theorem witness_StepExecutesThePendingCommand :
    let s := { counted with pend := some 0x02000041#32 }
    s.pend = some 0x02000041#32 ∧ s.phase ≠ .error ∧ decode 0x02000041#32 = .ok (.count 0x41#8) ∧
      s.out.length + need 0x02000041#32 s ≤ s.cfg.outDepth ∧ hostReady s = false := by decide +kernel
/-- The same where the command fills the FIFO to its last byte. -/
theorem witness_StepExecutesThePendingCommand_full :
    let s := { held with out := List.replicate 63 0x3F#8 }
    s.phase ≠ .error ∧ decode 0x30000042#32 = .ok (.encByte 0x42#8) ∧
      s.out.length + need 0x30000042#32 s = s.cfg.outDepth := by decide +kernel
theorem witness_StepRaisesOnWordsThatAreNoCommand :
    let s := { State.reset with pend := some 0x7F000000#32 }
    s.pend = some 0x7F000000#32 ∧ s.phase ≠ .error ∧ s.out.length ≤ s.cfg.outDepth ∧ hostReady s = false ∧
      decode 0x7F000000#32 = .error .illegalOpcode := by decide +kernel
theorem witness_StepRaises_reserved : decode 0x04000200#32 = .error .reservedBits := by decide
theorem witness_StepRaises_range : decode 0x11030100#32 = .error .fieldRange := by decide
theorem witness_ErrorPhaseIgnoresCommands :
    let s := { failed with pend := some 0x01000001#32 }
    s.phase = .error ∧ s.pend = some 0x01000001#32 ∧ s.out.length ≤ s.cfg.outDepth ∧ hostReady s = false ∧
      (0x01000001#32 : Word) ≠ 0x01000000#32 ∧ Instr.nop ≠ .clr := by decide +kernel
theorem witness_ErrorPhaseIgnoresCommands_clr :
    let s := { failed with pend := some 0x01000000#32 }
    s.phase = .error ∧ s.pend = some 0x01000000#32 ∧ s.out.length ≤ s.cfg.outDepth ∧ hostReady s = false := by decide +kernel
theorem witness_OnlyClrOrResetLeavesError :
    failed.phase = .error ∧ check (step failed) (fun t => decide (t.phase = .error)) = true := by decide +kernel
theorem witness_OnlyClrOrResetLeavesError_clr :
    check (step { failed with pend := some 0x01000000#32 }) (fun t => decide (t.phase = .freq ∧ t.errKind = .none)) = true := by
  decide +kernel
theorem witness_OnlyClrOrResetLeavesError_reset :
    check (step { failed with inputs := [.reset] }) (fun t => decide (t.phase = .freq ∧ t.errKind = .none)) = true := by
  decide +kernel
theorem witness_AccessesAreHeldWhilePending_read :
    let s := { counted with pend := some 0x02000041#32, inputs := [.read 0x34#8] }
    s.pend ≠ none ∧ (0x34#8 : Offset).toNat / 4 ≠ 12 ∧ check (step s) (fun t => decide (t.inputs = s.inputs)) = true := by
  decide +kernel
theorem witness_AccessesAreHeldWhilePending_write :
    let s := { counted with pend := some 0x02000041#32, inputs := [.write 0x30#8 0#32] }
    s.pend ≠ none ∧ check (step s) (fun t => decide (t.inputs = s.inputs)) = true := by decide +kernel
theorem witness_CommandWaitsForRoom :
    held.pend = some 0x30000042#32 ∧ held.cfg.outDepth < held.out.length + need 0x30000042#32 held ∧
      check (step held) (fun t => decide (t.pend = some 0x30000042#32)) = true := by decide +kernel
theorem witness_CommandWaitsForRoom_reset :
    check (step { held with inputs := [.reset] }) (fun t => decide (t.pend = none)) = true := by decide +kernel
theorem witness_OutDataReadRacesTheCommand :
    let s := { shut with pend := some 0x00000000#32, inputs := [.read 0x33#8] }
    s.pend = some 0x00000000#32 ∧ (0x33#8 : Offset).toNat / 4 = 12 ∧ s.out.length + need 0x00000000#32 s ≤ s.cfg.outDepth := by
  decide +kernel
theorem witness_OutDataReadRacesTheCommand_popAll :
    let s := { shut with pend := some 0x00000000#32, inputs := [.popAll] }
    s.pend = some 0x00000000#32 ∧ s.inputs = [.popAll] ∧ s.out.length + need 0x00000000#32 s ≤ s.cfg.outDepth := by
  decide +kernel
theorem witness_OnlyTheHangStops :
    held.pend = some 0x30000042#32 ∧ held.cfg.outDepth < held.out.length + need 0x30000042#32 held ∧
      (0x2F#8 : Offset).toNat / 4 ≠ 12 := by decide +kernel
theorem witness_CommandsPushTheirNeed :
    check (execute 0x4000002C#32 planted) (fun t => decide (t.out.length = 3)) = true ∧ (0x4000002C#32 : Word) ≠ 0x01000000#32 ∧
      need 0x4000002C#32 planted = 3 := by decide +kernel
theorem witness_NeedIsAtMost33 :
    (∀ n ≤ 256, (codeAt coded n).len.toNat ≤ 256) ∧ coded.cfg.ok = true ∧ coded.out = [] := by decide +kernel
theorem witness_CommandsPushTheirNeed_step :
    check (step { held with inputs := [.read 0x30#8] }) (fun t => decide (streamed t = streamed held ∧ t.popped = [0x3F#8])) = true ∧
      check (step { held with inputs := [.reset] }) (fun t => decide (streamed t = [])) = true := by decide +kernel
theorem witness_StatusFields : (0x10#8 : Offset).toNat / 4 = 4 ∧ (0x13#8 : Offset).toNat / 4 = 4 ∧
    (midway.phase, 3) ∈ [(Phase.freq, 0), (.tree, 1), (.codes, 2), (.encoding, 3), (.closed, 4), (.decoding, 5), (.done, 6),
      (.error, 7)] := by decide +kernel
theorem witness_IrqLevel : (0x10#8 : Offset).toNat / 4 = 4 ∧ (0x13#8 : Offset).toNat / 4 = 4 := by decide
theorem witness_OutDataReadPops :
    (0x30#8 : Offset).toNat / 4 = 12 ∧ engineReady shut = false ∧ shut.out = [0xB0#8] ∧ engineReady coded = false ∧
      coded.out = [] ∧ engineReady held = false ∧ held.pend ≠ none := by decide +kernel
theorem witness_OutDataReadPops_popAll :
    let s := { shut with inputs := [.popAll] }
    let u := { coded with inputs := [.popAll] }
    let v := { held with inputs := [.popAll] }
    engineReady s = false ∧ s.out = [0xB0#8] ∧ engineReady u = false ∧ u.out = [] ∧ engineReady v = false ∧
      v.pend ≠ none := by decide +kernel
theorem witness_OtherReadsHaveNoEffect :
    State.reset.pend = none ∧ (0x2F#8 : Offset).toNat / 4 ≠ 12 ∧ (0x34#8 : Offset).toNat / 4 ≠ 12 := by decide +kernel
/-- One offset at each edge of each register that a write can reach. -/
theorem witness_WritesStoreOrAreIgnored :
    State.reset.pend = none ∧ (0x04#8 : Offset).toNat / 4 = 1 ∧ (0x07#8 : Offset).toNat / 4 = 1 ∧
      (0x08#8 : Offset).toNat / 4 = 2 ∧ (0x0B#8 : Offset).toNat / 4 = 2 ∧ (0x34#8 : Offset).toNat / 4 = 13 ∧
      (0x37#8 : Offset).toNat / 4 = 13 ∧ (0x38#8 : Offset).toNat / 4 = 14 ∧ (0x03#8 : Offset).toNat / 4 = 0 := by decide +kernel
theorem witness_RegisterWords :
    (0x03#8 : Offset).toNat / 4 = 0 ∧ (0x04#8 : Offset).toNat / 4 = 1 ∧ (0x08#8 : Offset).toNat / 4 = 2 ∧
      (0x0F#8 : Offset).toNat / 4 = 3 ∧ (0x14#8 : Offset).toNat / 4 = 5 ∧ (0x18#8 : Offset).toNat / 4 = 6 ∧
      (0x1C#8 : Offset).toNat / 4 = 7 ∧ (0x20#8 : Offset).toNat / 4 = 8 ∧ (0x24#8 : Offset).toNat / 4 = 9 ∧
      (0x28#8 : Offset).toNat / 4 = 10 ∧ (0x2C#8 : Offset).toNat / 4 = 11 ∧ (0x37#8 : Offset).toNat / 4 = 13 ∧
      14 ≤ (0x38#8 : Offset).toNat / 4 ∧ 14 ≤ (0xFF#8 : Offset).toNat / 4 := by decide
theorem witness_RegisterWords_numbers : (failed.errKind, 2) ∈ [(ErrKind.none, 0), (.illegalCmd, 1), (.badOperand, 2)] ∧
    (failed.prevPhase, 0) ∈ [(Phase.freq, 0), (.tree, 1)] := by decide
theorem witness_HardwareReset : engineReady { held with inputs := [.reset] } = false := by decide +kernel
theorem witness_HardwareReset_race :
    let s := { counted with pend := some 0x02000041#32, inputs := [.reset] }
    s.pend = some 0x02000041#32 ∧ s.out.length + need 0x02000041#32 s ≤ s.cfg.outDepth := by decide +kernel

/-- `coded` meets the machine's invariant. -/
theorem coded_inv : Inv coded where
  cfg_ok := by decide +kernel
  memory := by decide +kernel
  hdr_le := by decide +kernel
  queue_empty := by decide +kernel
  fifo_fits := by decide +kernel
  writer_clean := by decide +kernel
  writer_idle := by decide +kernel
  error_iff := by decide +kernel
  no_error := by decide +kernel
  prev_phase := by decide +kernel
  codes_need_tree := by decide +kernel
  without_tree := by decide +kernel
  with_tree := by decide +kernel
  no_codes := by decide +kernel
  with_codes := by decide +kernel

theorem planted_tree : TreeOk planted where
  leaves_eq := by decide +kernel
  sentinel := by decide +kernel
  root_eq := by decide +kernel
  children := by decide +kernel
  weights := by decide +kernel
  one_parent := by decide +kernel
  has_parent := by decide +kernel

theorem coded_tree : TreeOk coded where
  leaves_eq := by decide +kernel
  sentinel := by decide +kernel
  root_eq := by decide +kernel
  children := by decide +kernel
  weights := by decide +kernel
  one_parent := by decide +kernel
  has_parent := by decide +kernel

theorem coded_codes : CodesOk coded := by unfold CodesOk; decide +kernel

theorem coded_treeInv : TreeInv coded where
  tree := fun _ => coded_tree
  at_root := by decide +kernel
  in_tree := by decide +kernel
  at_sentinel := by decide +kernel
  codes := fun _ => coded_codes

theorem witness_NeedIsAtMost33_inv : Inv coded := coded_inv
theorem witness_AbsentNodesUnseen_inv :
    let m := setNodeIn coded.node 259 ⟨5#41, 1#10, 2#10⟩
    Inv coded ∧ TreeInv coded ∧
    (∀ k : NodeId, 257 ≤ k.toNat → k.toNat ≤ 255 + coded.leaves.toNat → nodeIn m k = nodeAt coded k) ∧
    check (exec (.decFeed 0x2C#8) { coded with node := m }) (fun t => decide (t.out = [0x41#8, 0x41#8, 0x42#8])) = true :=
  ⟨coded_inv, coded_treeInv, by decide +kernel, by decide +kernel⟩
theorem witness_StepKeepsTheInvariant : Inv coded ∧ step coded = .next coded := ⟨coded_inv, by rfl⟩
theorem witness_StepKeepsTheTree : Inv coded ∧ TreeInv coded ∧ step coded = .next coded :=
  ⟨coded_inv, coded_treeInv, by rfl⟩
theorem witness_ErrorsArePrecise : check (exec .encEnd shut) (fun t => decide (t.phase = .error)) = true := by decide +kernel
theorem witness_ErrorsArePrecise_kept : check (exec .encEnd failed) (fun t => decide (t = failed)) = true := by decide +kernel
theorem witness_ResultWriters : check (exec (.decFeed 0x2C#8) planted) (fun t => decide (t.result = 3#32)) = true := by decide +kernel
theorem witness_ResultWriters_error : check (exec (.readCodeLen 65#9) planted) (fun t =>
    decide (t.phase = .error ∧ t.result = 3#32)) = true := by decide +kernel
theorem witness_MemoryWriters : check (exec (.count 0x41#8) counted) (fun t => decide (t.freq ≠ counted.freq)) = true ∧
    check (exec .buildTree counted) (fun t => decide (t.node ≠ counted.node)) = true ∧
    check (exec .genCodes planted) (fun t => decide (t.code ≠ planted.code)) = true ∧
    check (exec .encEnd midway) (fun t => decide (t.out ≠ midway.out)) = true :=
  ⟨by decide +kernel, check_mono test_build_tree (fun t h => by simp only [decide_eq_true_eq] at h ⊢; exact h.2.1),
    by decide +kernel, by decide +kernel⟩
/-- A phase for each entry of the table. -/
theorem witness_PhaseTable : planted.phase ≠ .freq ∧ counted.phase = .freq ∧ coded.phase ≠ .tree ∧ planted.codesValid = false ∧
    reading.phase ∈ [Phase.freq, .tree, .decoding, .done] ∧ midway.phase ∈ [Phase.freq, .encoding, .closed] ∧
    shut.phase = .closed ∧ planted.phase ≠ .error ∧ counted.phase ≠ .error ∧ coded.phase ≠ .error ∧ reading.phase ≠ .error ∧
    midway.phase ≠ .error ∧ shut.phase ≠ .error := by decide +kernel
theorem witness_ClrClears : shut.cfg.ok = true ∧ check (exec .clr shut) (fun t => decide (statusWord t = 0#32)) = true := by
  decide +kernel
theorem witness_CountAddsOne : counted.phase = .freq ∧ counted.cfg.ok = true ∧
    (freqAt counted (0xFF#8 : Byte).toNat).toNat < counted.cfg.freqMax := by decide +kernel
theorem witness_CountOverflows :
    let s := setFreq 255 0xFFFFFFFF#32 State.reset
    s.phase = .freq ∧ s.cfg.ok = true ∧ (freqAt s (0xFF#8 : Byte).toNat).toNat = s.cfg.freqMax := by decide +kernel
theorem witness_CountsAccumulate : counted.phase = .freq ∧ counted.cfg.ok = true ∧
    ∀ b : Byte, (freqAt counted b.toNat).toNat + [(0x41#8 : Byte), 0x41#8].count b ≤ counted.cfg.freqMax := by decide +kernel
theorem witness_LoadFreqLoads :
    let s := { State.reset with hdrCnt := 256#9, arg := 0xFFFFFFFF#32 }
    s.phase = .freq ∧ s.hdrCnt.toNat ≤ 256 ∧ s.arg.toNat ≤ s.cfg.freqMax := by decide +kernel
theorem witness_LoadFreqLoads_long :
    let s := { State.reset with hdrCnt := 257#9 }
    s.phase = .freq ∧ s.hdrCnt.toNat = 257 := by decide +kernel
/-- A value that does not fit needs a narrower FREQ_WIDTH (X20). -/
theorem witness_LoadFreqLoads_wide :
    let s := { State.resetWith ⟨8, 33⟩ with arg := 256#32 }
    s.phase = .freq ∧ s.cfg.freqMax < s.arg.toNat := by decide +kernel
theorem witness_ReadFreqAnswers : shut.phase ≠ .error ∧ (256#9 : Sym).toNat ≤ 256 ∧ 256 < (257#9 : Sym).toNat := by decide +kernel
theorem witness_HeaderRoundTrip : (∀ n ≤ 256, (freqAt counted n).toNat ≤ State.reset.cfg.freqMax) ∧ State.reset.phase = .freq ∧
    State.reset.hdrCnt = 0#9 := by decide +kernel
theorem witness_BuildTreeCompletes : counted.phase = .freq ∧ (counted.hdrCnt.toNat = 0 ∨ counted.hdrCnt.toNat = 257) ∧
    freqAt counted 256 ≠ 0#32 ∧ counted.pq = [] := by decide +kernel
theorem witness_BuildTreeCompletes_header :
    let s := { counted with hdrCnt := 257#9 }
    s.phase = .freq ∧ (s.hdrCnt.toNat = 0 ∨ s.hdrCnt.toNat = 257) ∧ freqAt s 256 ≠ 0#32 ∧ s.pq = [] := by decide +kernel
theorem witness_BuildTreeMakesATree : counted.phase = .freq ∧
    check (exec .buildTree counted) (fun t => decide (t.phase = .tree)) = true :=
  ⟨by decide +kernel, check_mono test_build_tree (fun t h => by simp only [decide_eq_true_eq] at h ⊢; exact h.1)⟩
theorem witness_BuildTreeMergesTheLeast : counted.phase = .freq ∧
    check (exec .buildTree counted) (fun t => decide (t.phase = .tree)) = true := witness_BuildTreeMakesATree
theorem witness_BuildTreeDeterministic :
    let s' := { counted with arg := 9#32, node := planted.node }
    counted.freq = s'.freq ∧ counted.phase = .freq ∧ s'.phase = .freq ∧
    check (exec .buildTree counted) (fun t => decide (t.phase = .tree)) = true ∧
    check (exec .buildTree s') (fun t => decide (t.phase = .tree)) = true :=
  ⟨rfl, by decide +kernel, by decide +kernel, witness_BuildTreeMakesATree.2, by decide +kernel⟩
theorem witness_BuildTreeHeaderCorrupt_length :
    let s := { counted with hdrCnt := 256#9 }
    s.phase = .freq ∧ s.hdrCnt.toNat ≠ 0 ∧ s.hdrCnt.toNat ≠ 257 := by decide +kernel
theorem witness_BuildTreeHeaderCorrupt_sentinel :
    let s := setFreq 256 0#32 counted
    s.phase = .freq ∧ freqAt s 256 = 0#32 := by decide +kernel
theorem witness_ReadNodeAnswers : planted.phase ≠ .freq ∧ planted.phase ≠ .error ∧ (512#10 : NodeId).toNat ≤ 512 ∧
    (2#2 : BitVec 2).toNat ≤ 2 ∧ 512 < (513#10 : NodeId).toNat ∧ 2 < (3#2 : BitVec 2).toNat := by decide +kernel
theorem witness_AbsentNodesUnseen :
    let m := setNodeIn planted.node 259 ⟨5#41, 1#10, 2#10⟩
    (∀ k : NodeId, 257 ≤ k.toNat → k.toNat ≤ 255 + planted.leaves.toNat → nodeIn m k = nodeAt planted k) ∧
    check (exec (.readNode 259#10 0#2) { planted with node := m }) (fun t => decide (t.result = 0#32)) = true := by
  decide +kernel
theorem witness_GenCodesCompletes : planted.phase = .tree := by decide +kernel
theorem witness_GenCodesArePaths : TreeOk planted ∧ planted.phase = .tree ∧
    check (exec .genCodes planted) (fun t => decide (t.phase = .codes)) = true := ⟨planted_tree, by decide +kernel, by decide +kernel⟩
theorem witness_DegenerateCode : lone.phase = .tree ∧ lone.root = 256#10 ∧
    check (exec .genCodes lone) (fun t => decide (t.phase = .codes)) = true := by decide +kernel
theorem witness_PrefixFree : TreeOk coded ∧ CodesOk coded ∧ freqAt coded 65 ≠ 0#32 ∧ codeOfSym coded 65 ≠ [] ∧
    codeOfSym coded 256 ≠ [] := ⟨coded_tree, coded_codes, by decide +kernel, by decide +kernel, by decide +kernel⟩
theorem witness_ReadCodeLenAnswers : coded.phase ≠ .error ∧ coded.codesValid = true ∧ (256#9 : Sym).toNat ≤ 256 ∧
    256 < (257#9 : Sym).toNat := by decide +kernel
theorem witness_ReadCodeWordAnswers : coded.phase ≠ .error ∧ coded.codesValid = true ∧ (256#9 : Sym).toNat ≤ 256 ∧
    codeCanonical (codeAt coded (256#9 : Sym).toNat) = true ∧ 256 < (511#9 : Sym).toNat := by decide +kernel
theorem witness_EncByteWritesTheCode : (midway.phase = .codes ∨ midway.phase = .encoding) ∧
    midway.wbuf.toNat < 2 ^ midway.wcnt.toNat ∧ codeOfSym midway (0x42#8 : Byte).toNat ≠ [] := by decide +kernel
theorem witness_EncByteOfAbsentSymbol : (coded.phase = .codes ∨ coded.phase = .encoding) ∧
    codeOfSym coded (0x43#8 : Byte).toNat = [] := by decide +kernel
theorem witness_EncEndClosesTheWriter : (midway.phase = .codes ∨ midway.phase = .encoding) ∧
    midway.wbuf.toNat < 2 ^ midway.wcnt.toNat ∧ codeOfSym midway 256 ≠ [] := by decide +kernel
theorem witness_EncodedBody : coded.phase = .codes ∧ coded.wcnt = 0#3 ∧ coded.wbuf = 0#7 ∧
    (∀ b ∈ [(0x41#8 : Byte), 0x41#8, 0x42#8], codeOfSym coded b.toNat ≠ []) ∧ codeOfSym coded 256 ≠ [] := by decide +kernel
theorem witness_DecFeedCompletes : (reading.phase = .tree ∨ reading.phase = .codes ∨ reading.phase = .decoding) ∧
    256 < reading.root.toNat := by decide +kernel
/-- A walk that starts inside a code: 0x40 is "B", "B", then five "A". -/
theorem witness_DecFeedCompletes_inside :
    let s := { reading with dnode := 257#10 }
    s.phase = .decoding ∧ walkFrom s s.dnode ((List.range 8).map fun k => (0x40#8 : Byte).getLsbD (7 - k)) =
      ([0x42#8, 0x42#8, 0x41#8, 0x41#8, 0x41#8, 0x41#8, 0x41#8], 258#10) := by decide +kernel
theorem witness_DecFeedAfterDone : finished.phase = .done := by decide +kernel
theorem witness_DecFeedDegenerate : (lone.phase = .tree ∨ lone.phase = .codes) ∧ lone.root = 256#10 ∧
    (0x7F#8 : Byte).toNat < 128 ∧ 128 ≤ (0x80#8 : Byte).toNat := by decide +kernel
theorem witness_DecEoiChecksTheEnd : finished.phase = .done ∧ reading.phase = .decoding := by decide +kernel
theorem witness_DecodedBody :
    let code : Nat → List Bool := codeOfSym coded
    (planted.phase = .tree ∨ planted.phase = .codes ∨ planted.phase = .decoding) ∧ 256 < planted.root.toNat ∧
    planted.dnode = planted.root ∧
    (∀ b ∈ [(0x41#8 : Byte), 0x41#8, 0x42#8], leadsTo planted planted.root (code b.toNat) (BitVec.ofNat 10 b.toNat) = true) ∧
    leadsTo planted planted.root (code 256) 256#10 = true ∧ [false, false].length < 8 ∧
    bytesBits [0x2C#8] =
      [(0x41#8 : Byte), 0x41#8, 0x42#8].flatMap (fun b => code b.toNat) ++ code 256 ++ [false, false] := by
  decide +kernel
theorem witness_DecodeUndoesEncodeOfBytes : State.reset.cfg.ok = true ∧ coded.cfg = State.reset.cfg ∧
    ∀ b : Byte, [(0x41#8 : Byte), 0x41#8, 0x42#8].count b ≤ State.reset.cfg.freqMax := by decide +kernel

end Sys2Proof.Tests
end

section
/-! PROOFS. The state family: what every step keeps (O25, O26), what no command sees (O44), the registers (O18, O19, O20), RESULT (O28)
and reset (O22, O24). -/

namespace Sys2Proof.Machine

open Sys2Proof

/-! ## The phases in which a command's own rule runs (R110) -/

theorem legalInFreq_ok {p : Phase} : legalInFreq p = .ok ↔ p = .freq := by cases p <;> simp [legalInFreq]

theorem legalInTree_ok {p : Phase} : legalInTree p = .ok ↔ p = .tree := by cases p <;> simp [legalInTree]

theorem legalForEncoder_ok {p : Phase} : legalForEncoder p = .ok ↔ p = .codes ∨ p = .encoding := by
  cases p <;> simp [legalForEncoder]

theorem legalForDecoder_ok {p : Phase} :
    legalForDecoder p = .ok ↔ p = .tree ∨ p = .codes ∨ p = .decoding ∨ p = .done := by
  cases p <;> simp [legalForDecoder]

/-! ## What every command does behind the check order -/

/-- A command's own rule: what it does once the check order has passed it. CLR's is not checked (R111). -/
def rule (i : Instr) (s : State) : State :=
  match i with
  | .nop => s
  | .clr => clear s
  | .count b => countByte b s
  | .loadFreq => loadHeader s
  | .readFreq sym => { s with result := freqAt s sym.toNat }
  | .buildTree => buildTree s
  | .readNode n sel => { s with result := nodeWord s n sel }
  | .genCodes => genCodes s
  | .readCodeLen sym => { s with result := (codeAt s sym.toNat).len.setWidth 32 }
  | .readCodeWord sym k => { s with result := codeWord (codeAt s sym.toNat) k }
  | .encByte b => encodeByte b s
  | .encEnd => encodeEnd s
  | .decFeed b => feedByte b s
  | .decEoi => endOfInput s

theorem effect_clr (s : State) : effect .clr s = clear s := rfl

theorem effect_eq_command {i : Instr} (hi : i ≠ .clr) (s : State) : effect i s = command i s (rule i) := by
  cases i with
  | clr => exact absurd rfl hi
  | _ => rfl

/-- Everything a command can do: nothing in phase ERROR, CLR, the error entry, or its own rule where it is legal (R111). -/
theorem effect_cases (i : Instr) (s : State) :
    (s.phase = .error ∧ i ≠ .clr ∧ effect i s = s)
    ∨ (i = .clr ∧ effect i s = clear s)
    ∨ (s.phase ≠ .error ∧ i ≠ .clr ∧ ∃ e, e ≠ .none ∧ effect i s = raise e (encode i) s)
    ∨ (s.phase ≠ .error ∧ i ≠ .clr ∧ legality i s = .ok ∧ effect i s = rule i s) := by
  by_cases hi : i = .clr
  · exact .inr (.inl ⟨hi, by rw [hi, effect_clr]⟩)
  rw [effect_eq_command hi]
  rcases command_cases i s (rule i) with ⟨hp, hc⟩ | ⟨hp, e, he, hc⟩ | ⟨hp, -, hl, hc⟩
  · exact .inl ⟨hp, hi, hc⟩
  · exact .inr (.inr (.inl ⟨hp, hi, e, by rcases he with rfl | rfl | rfl <;> nofun, hc⟩))
  · exact .inr (.inr (.inr ⟨hp, hi, hl, hc⟩))

/-- Everything executing a word can do: nothing in phase ERROR, CLR, the error entry, or a command (R111). -/
theorem wordEffect_cases (w : Word) (s : State) :
    (s.phase = .error ∧ wordEffect w s = s)
    ∨ (w = encode .clr ∧ wordEffect w s = clear s)
    ∨ (s.phase ≠ .error ∧ ∃ e, e ≠ .none ∧ wordEffect w s = raise e w s)
    ∨ (s.phase ≠ .error ∧ ∃ i, decode w = .ok i ∧ wordEffect w s = effect i s) := by
  unfold wordEffect
  by_cases hp : s.phase = .error
  · by_cases hw : w = encode .clr
    · simp [hp, hw]
    · simp [hp, hw]
  · cases hd : decode w with
    | error r => exact .inr (.inr (.inl ⟨hp, rejectError r, by cases r <;> simp [rejectError], if_neg hp⟩))
    | ok i => exact .inr (.inr (.inr ⟨hp, i, rfl, if_neg hp⟩))

/-- Everything the rule of DEC_FEED can do (R222, R223, R224). -/
theorem feedByte_cases (b : Byte) (s : State) :
    (s.phase = .done ∧ feedByte b s = { s with trailing := true })
    ∨ (s.phase ≠ .done ∧ isLeaf s.root = true ∧
        (feedByte b s = raise .invalidCode (encode (.decFeed b)) s ∨ feedByte b s = { s with phase := .done }))
    ∨ (s.phase ≠ .done ∧ isLeaf s.root = false ∧ feedByte b s = feedBits (byteBits b) { s with phase := .decoding }) := by
  by_cases hp : s.phase = .done
  · exact .inl ⟨hp, if_pos hp⟩
  cases hl : isLeaf s.root with
  | false => exact .inr (.inr ⟨hp, rfl, by simp [feedByte, hp, hl]⟩)
  | true =>
    refine .inr (.inl ⟨hp, rfl, ?_⟩)
    rw [feedByte, if_neg hp, if_pos hl, feedDegenerate]
    split
    · exact .inl rfl
    · exact .inr rfl

/-- ENC_BYTE raises SYMBOL_NOT_IN_TREE, or emits the code (R203). -/
theorem encodeByte_cases (b : Byte) (s : State) : encodeByte b s = raise .symbolNotInTree (encode (.encByte b)) s
    ∨ encodeByte b s = { emitCode (codeAt s b.toNat) s with phase := .encoding } := by
  unfold encodeByte
  split
  · exact .inl rfl
  · exact .inr rfl

/-- ENC_END raises SYMBOL_NOT_IN_TREE, or emits the sentinel's code and closes the writer (R204). -/
theorem encodeEnd_cases (s : State) : encodeEnd s = raise .symbolNotInTree (encode .encEnd) s
    ∨ encodeEnd s = { closeWriter (emitCode (codeAt s 256) s) with phase := .closed } := by
  unfold encodeEnd
  split
  · exact .inl rfl
  · exact .inr rfl

/-- DEC_EOI does nothing in phase DONE, and raises TRUNCATED_STREAM elsewhere (R225). -/
theorem endOfInput_cases (s : State) :
    endOfInput s = s ∨ endOfInput s = raise .truncatedStream (encode .decEoi) s := by
  unfold endOfInput
  split
  · exact .inl rfl
  · exact .inr rfl

/-- BUILD_TREE raises HEADER_CORRUPT, or plants the tree of a table with a sentinel (R161). -/
theorem buildTree_cases (s : State) : buildTree s = raise .headerCorrupt (encode .buildTree) s
    ∨ (freqAt s 256 ≠ 0#32 ∧ buildTree s = plantTree s) := by
  unfold buildTree
  split
  · exact .inl rfl
  · split
    · exact .inl rfl
    · exact .inr ⟨‹_›, rfl⟩

/-! ## How many bytes a command pushes (R205, R226) -/

theorem emitCode_out_length (e : CodeEntry) (s : State) :
    (emitCode e s).out.length = s.out.length + (s.wcnt.toNat + e.len.toNat) / 8 := by
  rw [← codeBits_length]
  exact emitBits_length (codeBits e) s

theorem emitCode_wcnt (e : CodeEntry) (s : State) : (emitCode e s).wcnt.toNat = (s.wcnt.toNat + e.len.toNat) % 8 := by
  rw [← codeBits_length]
  exact emitBits_wcnt (codeBits e) s

theorem encodeByte_out_length (b : Byte) (s : State) :
    (encodeByte b s).out.length = s.out.length + pushes (.encByte b) s := by
  simp only [encodeByte, pushes]
  split
  · rfl
  · exact emitCode_out_length _ s

theorem encodeEnd_out_length (s : State) : (encodeEnd s).out.length = s.out.length + pushes .encEnd s := by
  simp only [encodeEnd, pushes]
  split
  · rfl
  · rw [closeWriter_length, emitCode_out_length, emitCode_wcnt]
    omega

theorem feedByte_out_length (b : Byte) (s : State) :
    (feedByte b s).out.length = s.out.length + pushes (.decFeed b) s := by
  rcases feedByte_cases b s with ⟨hp, h⟩ | ⟨hp, hl, h | h⟩ | ⟨hp, hl, h⟩ <;> rw [h]
  · simp [pushes, hp]
  · simp [pushes, hp, hl]
  · simp [pushes, hp, hl]
  · rw [feedBits_length, leavesReached_congr (s := s) (t := { s with phase := .decoding }) rfl rfl]
    simp [pushes, hp, hl]

/-! ## The node ids present -/

theorem mem_internalIds {s : State} {n : NodeId} :
    n ∈ internalIds s ↔ 257 ≤ n.toNat ∧ n.toNat ≤ 255 + s.leaves.toNat := by
  have hl := s.leaves.isLt
  simp only [internalIds, List.mem_map, List.mem_range]
  constructor
  · rintro ⟨k, hk, rfl⟩
    rw [BitVec.toNat_ofNat]
    omega
  · rintro ⟨h, h'⟩
    refine ⟨n.toNat - 257, by omega, BitVec.eq_of_toNat_eq ?_⟩
    rw [BitVec.toNat_ofNat]
    omega

theorem mem_leafIds {s : State} {n : NodeId} : n ∈ leafIds s ↔ n.toNat ≤ 256 ∧ freqAt s n.toNat ≠ 0#32 := by
  simp only [leafIds, List.mem_map, mem_leafSyms]
  constructor
  · rintro ⟨k, ⟨hk, hf⟩, rfl⟩
    rw [BitVec.toNat_ofNat, Nat.mod_eq_of_lt (by omega)]
    exact ⟨hk, hf⟩
  · rintro ⟨h, h'⟩
    exact ⟨n.toNat, ⟨h, h'⟩, by simp⟩

theorem isLeaf_false_iff (n : NodeId) : isLeaf n = false ↔ 257 ≤ n.toNat := by
  rw [← Bool.not_eq_true, isLeaf_iff]
  omega

theorem present_iff {s : State} {n : NodeId} : present s n = true ↔ n ∈ leafIds s ∨ n ∈ internalIds s := by
  simp [present, mem_leafIds, mem_internalIds, isLeaf]

/-- A node present that is no leaf is one of the nodes made. -/
theorem present_internal {s : State} {n : NodeId} (h : present s n = true) (hl : isLeaf n = false) :
    n ∈ internalIds s := by
  rcases present_iff.1 h with h | h
  · rw [isLeaf_false_iff] at hl
    have := (mem_leafIds.1 h).1
    omega
  · exact h

theorem isLeaf_of_mem_internalIds {s : State} {n : NodeId} (h : n ∈ internalIds s) : isLeaf n = false :=
  (isLeaf_false_iff n).2 (mem_internalIds.1 h).1

theorem nodeIds_nodup (s : State) : (leafIds s ++ internalIds s).Nodup := by
  refine List.Nodup.append ?_ ?_ ?_
  · refine List.Nodup.map_on (fun a ha b hb h => ?_) (leafSyms_nodup s)
    have := congrArg BitVec.toNat h
    rw [mem_leafSyms] at ha hb
    simp only [BitVec.toNat_ofNat] at this
    omega
  · refine List.Nodup.map_on (fun a ha b hb h => ?_) List.nodup_range
    have hl := s.leaves.isLt
    have := congrArg BitVec.toNat h
    rw [List.mem_range] at ha hb
    simp only [BitVec.toNat_ofNat] at this
    omega
  · intro n h h'
    rw [mem_leafIds] at h
    rw [mem_internalIds] at h'
    omega

theorem mem_childIds {s : State} {n : NodeId} :
    n ∈ childIds s ↔ ∃ m ∈ internalIds s, ∃ b, childAt s m b = n := by
  simp [childIds, childAt, eq_comm]

/-! ## The tree is unchanged -/

/-- A tree depends on FREQ, NODE, ROOT and LEAVES only. -/
theorem TreeOk.congr {s t : State} (h : TreeOk s) (hf : t.freq = s.freq) (hn : t.node = s.node) (hr : t.root = s.root)
    (hl : t.leaves = s.leaves) : TreeOk t := by
  cases s
  cases t
  simp only at hf hn hr hl
  subst hf hn hr hl
  exact { h with }

/-- That the codes are the tree's depends on FREQ, NODE, ROOT and CODE only. -/
theorem CodesOk.congr {s t : State} (h : CodesOk s) (hf : t.freq = s.freq) (hn : t.node = s.node) (hr : t.root = s.root)
    (hc : t.code = s.code) : CodesOk t := by
  unfold CodesOk codeOfSym at h ⊢
  simpa only [freqAt_congr hf, leadsTo_congr hn, codeAt_congr hc, hr] using h

/-! ## What BUILD_TREE has built after some merges (R161) -/

/-- The state a builder stands for: its NODE memory, and as many leaves as would make the nodes it has made the whole tree. -/
def builderState (s : State) (b : Builder) : State :=
  { s with node := b.node, leaves := BitVec.ofNat 9 (b.next - 256) }

@[simp] theorem builderState_freq (s : State) (b : Builder) : (builderState s b).freq = s.freq := by
  simp only [builderState]
@[simp] theorem builderState_node (s : State) (b : Builder) : (builderState s b).node = b.node := rfl
@[simp] theorem builderState_leaves (s : State) (b : Builder) :
    (builderState s b).leaves = BitVec.ofNat 9 (b.next - 256) := by
  simp only [builderState]
@[simp] theorem builderState_root (s : State) (b : Builder) : (builderState s b).root = s.root := by
  simp only [builderState]

/-- What every merge keeps (R161, R162). -/
structure BuildInv (s : State) (b : Builder) : Prop where
  /-- Internal ids begin at 257. -/
  next_ge : 257 ≤ b.next
  /-- Every merge makes one node and leaves one queue entry fewer. -/
  count : b.next + b.q.length = 257 + (leafSyms s).length
  /-- The keys in the queue are the weights of its nodes. -/
  keys : ∀ e ∈ b.q, e.key = weightOf (builderState s b) e.id
  /-- They add up to the frequencies of all leaves, which bounds every sum of two keys. -/
  total : (b.q.map fun e => e.key.toNat).sum = ((leafSyms s).map fun n => (freqAt s n).toNat).sum
  /-- The nodes without a parent are those in the queue: each node present is a child once, or in the queue once. -/
  parents : (childIds (builderState s b) ++ b.q.map QEntry.id).Perm (leafIds s ++ internalIds (builderState s b))
  /-- Children are present and made before their parent. -/
  children : ∀ n ∈ internalIds (builderState s b), ∀ bit,
    present (builderState s b) (childAt (builderState s b) n bit) = true ∧
      (childAt (builderState s b) n bit).toNat < n.toNat
  /-- An internal node weighs as much as its children. -/
  weights : ∀ n ∈ internalIds (builderState s b), (weightOf (builderState s b) n).toNat =
    (weightOf (builderState s b) (nodeAt (builderState s b) n).left).toNat +
      (weightOf (builderState s b) (nodeAt (builderState s b) n).right).toNat

@[simp] theorem leafIds_builderState (s : State) (b : Builder) : leafIds (builderState s b) = leafIds s := by
  rw [leafIds, leafIds, leafSyms_congr (builderState_freq s b)]

@[simp] theorem freqAt_builderState (s : State) (b : Builder) (n : Nat) : freqAt (builderState s b) n = freqAt s n :=
  freqAt_congr (builderState_freq s b) n

/-- 257 frequencies of 32 bits add up to fewer than 41 bits (R7). -/
theorem sum_freqs_lt (s : State) : ((leafSyms s).map fun n => (freqAt s n).toNat).sum < 2 ^ 41 := by
  have h := List.sum_le_card_nsmul ((leafSyms s).map fun n => (freqAt s n).toNat) (2 ^ 32) (by
    simp only [List.mem_map]
    rintro x ⟨n, _, rfl⟩
    exact (freqAt s n).isLt.le)
  have hl := leafSyms_length_le s
  simp only [List.length_map, smul_eq_mul] at h
  omega

theorem weightOf_leaf {s : State} {n : NodeId} (h : n.toNat ≤ 256) : weightOf s n = (freqAt s n.toNat).setWidth 41 :=
  if_pos ((isLeaf_iff n).2 h)

theorem internalIds_first (s : State) (q : List QEntry) (m : Vector NodeEntry 256) :
    internalIds (builderState s ⟨q, m, 257⟩) = [] := by
  simp [internalIds]

theorem leafQueue_ids (s : State) : (leafQueue s).map QEntry.id = leafIds s := by
  rw [leafQueue, List.map_map, leafIds]
  conv_rhs => rw [← List.zipIdx_map_fst 0 (leafSyms s), List.map_map]
  rfl

theorem leafQueue_keys (s : State) :
    (leafQueue s).map (fun e => e.key.toNat) = (leafSyms s).map fun n => (freqAt s n).toNat := by
  rw [leafQueue, List.map_map]
  conv_rhs => rw [← List.zipIdx_map_fst 0 (leafSyms s), List.map_map]
  refine List.map_congr_left fun p _ => ?_
  have := (freqAt s p.1).isLt
  simp only [Function.comp, BitVec.toNat_setWidth]
  omega

/-- Before the first merge the queue holds the leaves, each keyed by its frequency, and no node is made. -/
theorem buildInv_leaves (s : State) : BuildInv s ⟨leafQueue s, s.node, 257⟩ where
  next_ge := Nat.le_refl _
  count := by simp
  keys := by
    intro e he
    simp only [leafQueue, List.mem_map] at he
    obtain ⟨⟨n, k⟩, hp, rfl⟩ := he
    have hn := (mem_leafSyms.1 (List.fst_mem_of_mem_zipIdx hp)).1
    have hid : (BitVec.ofNat 10 n).toNat = n := by rw [BitVec.toNat_ofNat]; omega
    rw [weightOf_leaf (by rw [hid]; exact hn), hid, freqAt_builderState]
  total := by rw [leafQueue_keys]
  parents := by
    rw [childIds, internalIds_first, leafQueue_ids]
    simp
  children := by simp [internalIds_first]
  weights := by simp [internalIds_first]

/-! ### One merge -/

/-- The builder after the merge of two entries that leave `q2` (R161). -/
def joined (numLeaves : Nat) (b : Builder) (e1 e2 : QEntry) (q2 : List QEntry) : Builder :=
  { q := q2 ++ [⟨e1.key + e2.key, numLeaves + (b.next - 257), BitVec.ofNat 10 b.next⟩]
    node := setNodeIn b.node b.next ⟨e1.key + e2.key, e1.id, e2.id⟩
    next := b.next + 1 }

theorem mergeOnce_joined (numLeaves : Nat) (b : Builder) (h : 2 ≤ b.q.length) :
    ∃ e1 e2 q2, b.q.Perm (e1 :: e2 :: q2) ∧ mergeOnce numLeaves b = joined numLeaves b e1 e2 q2 := by
  obtain ⟨e1, q1, e2, q2, h1, h2, hm⟩ := mergeOnce_cases numLeaves b h
  exact ⟨e1, e2, q2, (removeMin_spec h1).1.trans ((removeMin_spec h2).1.cons e1), hm⟩

theorem builderState_leaves_toNat {s : State} {b : Builder} (h : b.next ≤ 514) :
    (builderState s b).leaves.toNat = b.next - 256 := by
  rw [builderState_leaves, BitVec.toNat_ofNat]
  omega

/-- The nodes made so far are those from 257 up to the next one. -/
theorem mem_internalIds_builderState {s : State} {b : Builder} {n : NodeId} (hb : 257 ≤ b.next) (hb' : b.next ≤ 514) :
    n ∈ internalIds (builderState s b) ↔ 257 ≤ n.toNat ∧ n.toNat < b.next := by
  rw [mem_internalIds, builderState_leaves_toNat hb']
  omega

section Joined

variable {s : State} {b : Builder} {numLeaves : Nat} {e1 e2 : QEntry} {q2 : List QEntry}

@[simp] theorem joined_next : (joined numLeaves b e1 e2 q2).next = b.next + 1 := rfl
@[simp] theorem joined_node : (joined numLeaves b e1 e2 q2).node =
    setNodeIn b.node b.next ⟨e1.key + e2.key, e1.id, e2.id⟩ := by simp only [joined]
@[simp] theorem joined_q : (joined numLeaves b e1 e2 q2).q =
    q2 ++ [⟨e1.key + e2.key, numLeaves + (b.next - 257), BitVec.ofNat 10 b.next⟩] := rfl

variable (hb : 257 ≤ b.next) (hb' : b.next ≤ 512)
include hb hb'

theorem nodeAt_joined (n : NodeId) : nodeAt (builderState s (joined numLeaves b e1 e2 q2)) n =
    if n.toNat = b.next then ⟨e1.key + e2.key, e1.id, e2.id⟩ else nodeAt (builderState s b) n := by
  rw [nodeAt, nodeAt, builderState_node, builderState_node, joined_node, nodeIn_setNodeIn _ _ _ _ ⟨hb, hb'⟩]

theorem nodeAt_joined_new : nodeAt (builderState s (joined numLeaves b e1 e2 q2)) (BitVec.ofNat 10 b.next) =
    ⟨e1.key + e2.key, e1.id, e2.id⟩ := by
  rw [nodeAt_joined hb hb', if_pos]
  rw [BitVec.toNat_ofNat]
  omega

/-- The nodes made before keep their entries. -/
theorem nodeAt_joined_old {n : NodeId} (hn : n ∈ internalIds (builderState s b)) :
    nodeAt (builderState s (joined numLeaves b e1 e2 q2)) n = nodeAt (builderState s b) n := by
  rw [mem_internalIds_builderState hb (by omega)] at hn
  rw [nodeAt_joined hb hb', if_neg (by omega)]

/-- A merge makes one more node. -/
theorem internalIds_joined : internalIds (builderState s (joined numLeaves b e1 e2 q2)) =
    internalIds (builderState s b) ++ [BitVec.ofNat 10 b.next] := by
  rw [internalIds, internalIds, builderState_leaves_toNat (by rw [joined_next]; omega), builderState_leaves_toNat (by omega)]
  have e : b.next + 1 - 256 - 1 = b.next - 256 - 1 + 1 := by omega
  have e' : 257 + (b.next - 256 - 1) = b.next := by omega
  simp only [joined_next, e, List.range_succ, List.map_append, List.map_singleton, e']

theorem present_joined {n : NodeId} (h : present (builderState s b) n = true) :
    present (builderState s (joined numLeaves b e1 e2 q2)) n = true := by
  rw [present_iff, leafIds_builderState] at h ⊢
  rw [internalIds_joined hb hb', List.mem_append]
  exact h.imp_right .inl

theorem weightOf_joined {n : NodeId} (h : present (builderState s b) n = true) :
    weightOf (builderState s (joined numLeaves b e1 e2 q2)) n = weightOf (builderState s b) n := by
  cases hl : isLeaf n with
  | true => simp [weightOf, hl]
  | false => simp [weightOf, hl, nodeAt_joined_old hb hb' (present_internal h hl)]

theorem childIds_joined : childIds (builderState s (joined numLeaves b e1 e2 q2)) =
    childIds (builderState s b) ++ [e1.id, e2.id] := by
  rw [childIds, internalIds_joined hb hb', List.flatMap_append, List.flatMap_singleton, nodeAt_joined_new hb hb', childIds]
  exact congrArg (· ++ [e1.id, e2.id]) (List.flatMap_congr fun n hn => by rw [nodeAt_joined_old hb hb' hn])

end Joined

/-- The nodes of the queue are present. -/
theorem BuildInv.queue_present {s : State} {b : Builder} (h : BuildInv s b) {e : QEntry} (he : e ∈ b.q) :
    present (builderState s b) e.id = true := by
  have hm : e.id ∈ leafIds s ++ internalIds (builderState s b) :=
    h.parents.subset (List.mem_append_right _ (List.mem_map_of_mem he))
  rw [List.mem_append] at hm
  rwa [present_iff, leafIds_builderState]

theorem BuildInv.next_le {s : State} {b : Builder} (h : BuildInv s b) : b.next + b.q.length ≤ 514 := by
  have := h.count
  have := leafSyms_length_le s
  omega

/-- The keys of two entries of the queue add up without overflow (R7). -/
theorem BuildInv.key_add {s : State} {b : Builder} {e1 e2 : QEntry} {q2 : List QEntry} (h : BuildInv s b)
    (hq : b.q.Perm (e1 :: e2 :: q2)) : (e1.key + e2.key).toNat = e1.key.toNat + e2.key.toNat := by
  have hs := (hq.map fun e => e.key.toNat).sum_eq
  have hlt := sum_freqs_lt s
  rw [h.total] at hs
  simp only [List.map_cons, List.sum_cons] at hs
  rw [BitVec.toNat_add]
  omega

/-- A merge keeps the invariant: the two nodes taken out of the queue get the new node as their parent. -/
theorem BuildInv.joined {s : State} {b : Builder} {e1 e2 : QEntry} {q2 : List QEntry} (h : BuildInv s b)
    (hq : b.q.Perm (e1 :: e2 :: q2)) : BuildInv s (joined (leafSyms s).length b e1 e2 q2) := by
  have hlen := hq.length_eq
  have hle := h.next_le
  have hb := h.next_ge
  simp only [List.length_cons] at hlen
  have hb' : b.next ≤ 512 := by omega
  have hnew : (BitVec.ofNat 10 b.next).toNat = b.next := by rw [BitVec.toNat_ofNat]; omega
  have he1 : e1 ∈ b.q := hq.mem_iff.2 (by simp)
  have he2 : e2 ∈ b.q := hq.mem_iff.2 (by simp)
  have hp1 := h.queue_present he1
  have hp2 := h.queue_present he2
  have below {n : NodeId} (hn : present (builderState s b) n = true) : n.toNat < b.next := by
    rw [present_iff, mem_leafIds, mem_internalIds_builderState hb (by omega)] at hn
    omega
  have hw {n : NodeId} (hn : present (builderState s b) n = true) :
      weightOf (builderState s (Machine.joined (leafSyms s).length b e1 e2 q2)) n = weightOf (builderState s b) n :=
    weightOf_joined hb hb' hn
  exact {
    next_ge := Nat.le_succ_of_le hb
    count := by
      have := h.count
      simp only [joined_next, joined_q, List.length_append, List.length_singleton]
      omega
    keys := by
      intro e he
      rw [joined_q, List.mem_append, List.mem_singleton] at he
      rcases he with he | rfl
      · have he : e ∈ b.q := hq.mem_iff.2 (by simp [he])
        rw [hw (h.queue_present he)]
        exact h.keys e he
      · rw [weightOf, (isLeaf_false_iff _).2 (by rw [hnew]; exact hb), nodeAt_joined_new hb hb']
        rfl
    total := by
      rw [← h.total, (hq.map fun e => e.key.toNat).sum_eq]
      simp only [joined_q, List.map_append, List.map_cons, List.map_nil, List.sum_append, List.sum_cons, List.sum_nil,
        h.key_add hq]
      omega
    parents := by
      have hids := ((hq.map QEntry.id).symm.append_left (childIds (builderState s b))).trans h.parents
      rw [childIds_joined hb hb', internalIds_joined hb hb']
      simpa using hids.append_right [BitVec.ofNat 10 b.next]
    children := by
      intro n hn bit
      rw [internalIds_joined hb hb', List.mem_append, List.mem_singleton] at hn
      rcases hn with hn | rfl
      · obtain ⟨hc, hlt⟩ := h.children n hn bit
        rw [childAt, nodeAt_joined_old hb hb' hn]
        exact ⟨present_joined hb hb' hc, hlt⟩
      · rw [childAt, nodeAt_joined_new hb hb', hnew]
        cases bit
        · exact ⟨present_joined hb hb' hp1, below hp1⟩
        · exact ⟨present_joined hb hb' hp2, below hp2⟩
    weights := by
      intro n hn
      rw [internalIds_joined hb hb', List.mem_append, List.mem_singleton] at hn
      rcases hn with hn | rfl
      · rw [hw (present_iff.2 (.inr hn)), nodeAt_joined_old hb hb' hn, h.weights n hn]
        exact (congrArg₂ (fun l r => l.toNat + r.toNat) (hw (h.children n hn false).1) (hw (h.children n hn true).1)).symm
      · rw [nodeAt_joined_new hb hb', hw hp1, hw hp2, ← h.keys e1 he1, ← h.keys e2 he2,
          ← h.key_add hq, weightOf, if_neg (by simp [isLeaf_false_iff, hnew, hb]), nodeAt_joined_new hb hb']
  }

theorem BuildInv.mergeOnce {s : State} {b : Builder} (h : BuildInv s b) :
    BuildInv s (mergeOnce (leafSyms s).length b) := by
  by_cases hlen : b.q.length < 2
  · rwa [mergeOnce_short _ _ hlen]
  · obtain ⟨e1, e2, q2, hq, he⟩ := mergeOnce_joined (leafSyms s).length b (by omega)
    rw [he]
    exact h.joined hq

theorem BuildInv.mergeAll {s : State} (k : Nat) {b : Builder} (h : BuildInv s b) :
    BuildInv s (mergeAll (leafSyms s).length k b) := by
  induction k generalizing b with
  | zero => exact h
  | succ k ih => exact ih h.mergeOnce

theorem buildInv_builtFrom (s : State) : BuildInv s (builtFrom s) := (buildInv_leaves s).mergeAll _

/-! ### The tree BUILD_TREE leaves (R163, R166, R167) -/

/-- The node left in the queue is the root: the last node made, or the sole leaf (R163). -/
theorem BuildInv.root {s : State} {b : Builder} {e : QEntry} (h : BuildInv s b) (hs : freqAt s 256 ≠ 0#32)
    (hq : b.q = [e]) : e.id.toNat = if (leafSyms s).length = 1 then 256 else 255 + (leafSyms s).length := by
  have hc := h.count
  have hle := h.next_le
  have hb := h.next_ge
  have hp := h.parents
  rw [hq] at hc hle hp
  simp only [List.length_singleton, List.map_singleton] at hc hle hp
  have hlast {n : NodeId} (hn : present (builderState s b) n = true)
      (hmax : ∀ m ∈ internalIds (builderState s b), m.toNat ≤ n.toNat) : e.id = n := by
    rw [present_iff, leafIds_builderState, ← List.mem_append, ← hp.mem_iff, List.mem_append, List.mem_singleton] at hn
    refine (hn.resolve_left fun hc => ?_).symm
    obtain ⟨m, hm, bit, rfl⟩ := mem_childIds.1 hc
    have := (h.children m hm bit).2
    have := hmax m hm
    omega
  simp only [present_iff, leafIds_builderState, mem_leafIds, mem_internalIds_builderState hb (by omega)] at hlast
  split
  · rw [hlast (n := 256#10) (.inl ⟨Nat.le_refl _, hs⟩) (fun m hm => by omega)]
    rfl
  · have hn : (BitVec.ofNat 10 (255 + (leafSyms s).length)).toNat = 255 + (leafSyms s).length := by
      rw [BitVec.toNat_ofNat]; omega
    rw [hlast (n := BitVec.ofNat 10 (255 + (leafSyms s).length)) (.inr (by omega)) (fun m hm => by omega), hn]

/-- Everything the planting of a tree writes: with a sentinel one entry remains in the queue, and it is the root (R161, R163). -/
theorem plantTree_eq {s : State} (hs : freqAt s 256 ≠ 0#32) : ∃ e, (builtFrom s).q = [e] ∧ plantTree s =
    { s with
      node := (builtFrom s).node
      pq := []
      root := e.id
      leaves := BitVec.ofNat 9 (leafSyms s).length
      treeValid := true
      dnode := e.id
      result := BitVec.ofNat 32 (leafSyms s).length
      phase := .tree } := by
  have hne : leafSyms s ≠ [] := List.ne_nil_of_mem (mem_leafSyms.2 ⟨Nat.le_refl _, hs⟩)
  obtain ⟨e, he⟩ := List.length_eq_one_iff.1 (builtFrom_one s hne).1
  refine ⟨e, he, ?_⟩
  simp [plantTree, he, removeMin, firstOut]

theorem leafQueue_congr {s t : State} (h : t.freq = s.freq) : leafQueue t = leafQueue s := by
  simp only [leafQueue, leafSyms_congr h, freqAt_congr h]

theorem builtFrom_congr {s t : State} (hf : t.freq = s.freq) (hn : t.node = s.node) : builtFrom t = builtFrom s := by
  simp only [builtFrom, leafSyms_congr hf, leafQueue_congr hf, hn]

/-- When one entry remains in the queue, the nodes made are a full binary tree with its node as the root (R163, R166). -/
theorem BuildInv.treeOk {s : State} {b : Builder} {e : QEntry} (h : BuildInv s b) (hs : freqAt s 256 ≠ 0#32)
    (hq : b.q = [e]) (hr : s.root = e.id) : TreeOk (builderState s b) := by
  have hnext := h.count
  have hle := h.next_le
  have hp := h.parents
  rw [hq, List.length_singleton] at hnext hle
  rw [hq, List.map_singleton, ← hr, ← leafIds_builderState s b] at hp
  have hl : (builderState s b).leaves.toNat = (leafSyms s).length := by
    rw [builderState_leaves_toNat (by omega)]
    omega
  exact {
    leaves_eq := by rw [hl, leafSyms_congr (builderState_freq s b)]
    sentinel := by rwa [freqAt_builderState]
    root_eq := by rw [builderState_root, hr, hl, h.root hs hq]
    children := fun n hn => ⟨(h.children n hn false).1, (h.children n hn true).1, (h.children n hn false).2,
      (h.children n hn true).2⟩
    weights := h.weights
    one_parent := (List.nodup_append.1 (hp.nodup_iff.2 (nodeIds_nodup _))).1
    has_parent := fun n hn hroot => by
      rw [builderState_root] at hroot
      rw [← hp.mem_iff, List.mem_append, List.mem_singleton] at hn
      exact hn.resolve_right hroot
  }

/-- The tree BUILD_TREE plants is a full binary tree over the symbols of nonzero frequency, weighted by FREQ (R163, R166). -/
theorem plantTree_treeOk {s : State} (hs : freqAt s 256 ≠ 0#32) : TreeOk (plantTree s) := by
  obtain ⟨e, he, hplant⟩ := plantTree_eq hs
  have hb : builtFrom { s with root := e.id } = builtFrom s := builtFrom_congr rfl rfl
  have h := buildInv_builtFrom { s with root := e.id }
  rw [hb] at h
  have hl : (builtFrom s).next - 256 = (leafSyms s).length := by
    rw [(builtFrom_one s (List.ne_nil_of_mem (mem_leafSyms.2 ⟨Nat.le_refl _, hs⟩))).2]
    omega
  rw [hplant]
  exact (h.treeOk hs he rfl).congr (by simp) (by simp) (by simp) (by simp [hl])

/-! ## Paths through a tree -/

section Tree

variable {s : State} (h : TreeOk s)
include h

theorem TreeOk.child_present {n : NodeId} (hn : n ∈ internalIds s) (b : Bool) : present s (childAt s n b) = true := by
  obtain ⟨hl, hr, -, -⟩ := h.children n hn
  cases b
  · exact hl
  · exact hr

theorem TreeOk.child_lt {n : NodeId} (hn : n ∈ internalIds s) (b : Bool) : (childAt s n b).toNat < n.toNat := by
  obtain ⟨-, -, hl, hr⟩ := h.children n hn
  cases b
  · exact hl
  · exact hr

theorem TreeOk.leaves_pos : 1 ≤ s.leaves.toNat := by
  rw [h.leaves_eq]
  exact List.length_pos_of_mem (mem_leafSyms.2 ⟨Nat.le_refl _, h.sentinel⟩)

theorem TreeOk.root_le : s.root.toNat ≤ 512 := by
  have hr := h.root_eq
  have hl := leafSyms_length_le s
  rw [← h.leaves_eq] at hl
  split at hr <;> omega

/-- The root is the sentinel's leaf, or a node made (R163, R167). -/
theorem TreeOk.root_cases : (s.leaves.toNat = 1 ∧ s.root = 256#10) ∨ s.root ∈ internalIds s := by
  have hr := h.root_eq
  have := h.leaves_pos
  split at hr
  · exact .inl ⟨‹_›, BitVec.eq_of_toNat_eq hr⟩
  · exact .inr (mem_internalIds.2 (by omega))

theorem TreeOk.root_present : present s s.root = true := by
  rw [present_iff]
  rcases h.root_cases with ⟨-, hr⟩ | hr
  · rw [hr]
    exact .inl (mem_leafIds.2 ⟨Nat.le_refl _, h.sentinel⟩)
  · exact .inr hr

theorem TreeOk.root_of_leaf (hl : isLeaf s.root = true) : s.root = 256#10 := by
  rcases h.root_cases with ⟨-, hr⟩ | hr
  · exact hr
  · simp [isLeaf_of_mem_internalIds hr] at hl

/-- From a node present every path ends at a node present. -/
theorem TreeOk.leadsTo_present {n m : NodeId} (bits : List Bool) (hn : present s n = true)
    (hp : leadsTo s n bits m = true) : present s m = true := by
  induction bits generalizing n with
  | nil =>
    rw [leadsTo_nil] at hp
    rwa [← hp]
  | cons b bits ih =>
    obtain ⟨hl, hp⟩ := (leadsTo_cons ..).1 hp
    exact ih (h.child_present (present_internal hn hl) b) hp

/-- A path from the root leads to every node present: a node's parent has the greater id, up to the root. -/
theorem TreeOk.reachable (n : NodeId) (hn : present s n = true) : ∃ bits, leadsTo s s.root bits n = true := by
  induction hd : 1024 - n.toNat using Nat.strong_induction_on generalizing n with
  | _ d ih =>
    by_cases hr : n = s.root
    · exact ⟨[], by simp [hr]⟩
    · have hc := h.has_parent n (by rwa [List.mem_append, ← present_iff]) hr
      obtain ⟨m, hm, b, rfl⟩ := mem_childIds.1 hc
      have hlt := h.child_lt hm b
      obtain ⟨bits, hp⟩ := ih (1024 - m.toNat) (by omega) m (present_iff.2 (.inr hm)) rfl
      exact ⟨bits ++ [b], leadsTo_append s _ m _ bits [b] hp (by simp [isLeaf_of_mem_internalIds hm])⟩

end Tree

/-! ## The code table of a tree (R181, R182) -/

/-- At a leaf the walk stores the path. -/
theorem walk_leaf {n : NodeId} (hl : isLeaf n = true) (node : Vector NodeEntry 256) (d : Nat) (p : List Bool)
    (c : Vector CodeEntry 257) : walk node d n p c = setCodeIn c n.toNat (codeOf p) := by
  cases d <;> simp [walk, hl]

/-- At an internal node the walk goes left, then right. -/
theorem walk_internal {s : State} {n : NodeId} (hl : isLeaf n = false) (d : Nat) (p : List Bool)
    (c : Vector CodeEntry 257) : walk s.node (d + 1) n p c =
      walk s.node d (childAt s n true) (p ++ [true]) (walk s.node d (childAt s n false) (p ++ [false]) c) := by
  simp [walk, hl, childAt, nodeAt]

/-- What the walk from node `n` with path `p` makes of entry `k` of the code table: a path from `n` to leaf `k`, after `p`; or
there is no such path, and the entry stays. -/
def WalkEntry (s : State) (d : Nat) (n : NodeId) (p : List Bool) (k : Nat) (old new : CodeEntry) : Prop :=
  (∃ q : List Bool, q.length ≤ d ∧ leadsTo s n q (BitVec.ofNat 10 k) = true ∧ new = codeOf (p ++ q))
  ∨ (∀ q, leadsTo s n q (BitVec.ofNat 10 k) ≠ true) ∧ new = old

theorem walkEntry_leaf {s : State} {n : NodeId} (hl : isLeaf n = true) (d : Nat) (p : List Bool) (c : Vector CodeEntry 257)
    {k : Nat} (hk : k ≤ 256) : WalkEntry s d n p k (codeIn c k) (codeIn (walk s.node d n p c) k) := by
  rw [walk_leaf hl, codeIn_setCodeIn _ _ _ _ ((isLeaf_iff n).1 hl)]
  by_cases e : k = n.toNat
  · exact .inl ⟨[], by simp, by simp [e], by simp [e]⟩
  · refine .inr ⟨fun q hq => ?_, if_neg e⟩
    cases q with
    | nil =>
      rw [leadsTo_nil] at hq
      rw [hq, BitVec.toNat_ofNat] at e
      omega
    | cons b q => simp [hl] at hq

/-- The walk of an internal node is that of its left child, then that of its right. -/
theorem WalkEntry.node {s : State} {d : Nat} {n : NodeId} {p : List Bool} {k : Nat} {old mid new : CodeEntry}
    (hl : isLeaf n = false) (hk : k ≤ 256) (hleft : WalkEntry s d (childAt s n false) (p ++ [false]) k old mid)
    (hright : WalkEntry s d (childAt s n true) (p ++ [true]) k mid new) : WalkEntry s (d + 1) n p k old new := by
  have through (b : Bool) {q : List Bool} (hq : q.length ≤ d)
      (hp : leadsTo s (childAt s n b) q (BitVec.ofNat 10 k) = true) (he : new = codeOf (p ++ [b] ++ q)) :
      WalkEntry s (d + 1) n p k old new :=
    .inl ⟨b :: q, by simpa using hq, by simp [hl, hp], by simp [he]⟩
  rcases hright with ⟨q, hq, hp, he⟩ | ⟨hright, rfl⟩
  · exact through true hq hp he
  rcases hleft with ⟨q, hq, hp, he⟩ | ⟨hleft, rfl⟩
  · exact through false hq hp he
  refine .inr ⟨fun q hp => ?_, rfl⟩
  cases q with
  | nil =>
    rw [leadsTo_nil] at hp
    rw [isLeaf_false_iff, hp, BitVec.toNat_ofNat] at hl
    omega
  | cons b q =>
    rw [leadsTo_cons] at hp
    cases b
    · exact hleft q hp.2
    · exact hright q hp.2

/-- In a tree the ids fall along every path, so the depth of R8 is enough for the walk to reach every leaf. -/
theorem walkEntry_walk {s : State} (h : TreeOk s) {k : Nat} (hk : k ≤ 256) (d : Nat) (n : NodeId) (p : List Bool)
    (c : Vector CodeEntry 257) (hd : n.toNat ≤ 256 + d) (hn : present s n = true) :
    WalkEntry s d n p k (codeIn c k) (codeIn (walk s.node d n p c) k) := by
  induction d generalizing n p c with
  | zero => exact walkEntry_leaf ((isLeaf_iff n).2 hd) 0 p c hk
  | succ d ih =>
    cases hl : isLeaf n with
    | true => exact walkEntry_leaf hl (d + 1) p c hk
    | false =>
      have hi := present_internal hn hl
      have step (b : Bool) (c : Vector CodeEntry 257) :=
        ih (childAt s n b) (p ++ [b]) c (by have := h.child_lt hi b; omega) (h.child_present hi b)
      rw [walk_internal hl]
      exact (step false c).node hl hk (step true _)

/-- A sole leaf has the one-bit code 0, and every other symbol is absent (R182). -/
theorem codeTable_leafRoot {s : State} (hl : isLeaf s.root = true) (k : Nat) :
    codeIn (codeTable s) k = if k = s.root.toNat then codeOf [false] else ⟨0#9, 0#256⟩ := by
  rw [codeTable, if_pos hl, codeIn_setCodeIn _ _ _ _ ((isLeaf_iff _).1 hl), codeIn_noCodes]

theorem codeTable_walk {s : State} (h : TreeOk s) (hl : isLeaf s.root = false) {k : Nat} (hk : k ≤ 256) :
    WalkEntry s 256 s.root [] k ⟨0#9, 0#256⟩ (codeIn (codeTable s) k) := by
  rw [codeTable, if_neg (by simp [hl]), ← codeIn_noCodes k]
  exact walkEntry_walk h hk 256 s.root [] noCodes h.root_le h.root_present

theorem present_symbol {s : State} {k : Nat} (hk : k ≤ 256) :
    present s (BitVec.ofNat 10 k) = true ↔ freqAt s k ≠ 0#32 := by
  have hid : (BitVec.ofNat 10 k).toNat = k := by rw [BitVec.toNat_ofNat]; omega
  rw [present_iff, mem_leafIds, mem_internalIds, hid]
  exact ⟨fun h => (h.resolve_right (by omega)).2, fun h => .inl ⟨hk, h⟩⟩

/-- A symbol of frequency 0 has no code (R181). -/
theorem codeTable_absent {s : State} (h : TreeOk s) {k : Nat} (hk : k ≤ 256) (hf : freqAt s k = 0#32) :
    codeBits (codeIn (codeTable s) k) = [] := by
  cases hl : isLeaf s.root with
  | true =>
    have hne : k ≠ s.root.toNat := by
      rintro rfl
      rw [h.root_of_leaf hl] at hf
      exact h.sentinel hf
    rw [codeTable_leafRoot hl, if_neg hne, codeBits_absent]
  | false =>
    rcases codeTable_walk h hl hk with ⟨q, -, hp, -⟩ | ⟨-, he⟩
    · exact absurd hf ((present_symbol hk).1 (h.leadsTo_present q h.root_present hp))
    · rw [he, codeBits_absent]

/-- The code of every other symbol is the path to its leaf, or the code 0 when the root is its leaf (R181, R182). -/
theorem codeTable_present {s : State} (h : TreeOk s) {k : Nat} (hk : k ≤ 256) (hf : freqAt s k ≠ 0#32) :
    if isLeaf s.root then codeBits (codeIn (codeTable s) k) = [false]
    else leadsTo s s.root (codeBits (codeIn (codeTable s) k)) (BitVec.ofNat 10 k) = true := by
  obtain ⟨bits, hp⟩ := h.reachable _ ((present_symbol hk).2 hf)
  cases hl : isLeaf s.root with
  | true =>
    cases bits with
    | nil =>
      have hroot : k = s.root.toNat := by
        rw [(leadsTo_nil ..).1 hp, BitVec.toNat_ofNat]
        omega
      rw [if_pos rfl, codeTable_leafRoot hl, if_pos hroot, codeBits_codeOf _ (by simp)]
    | cons b bits => simp [hl] at hp
  | false =>
    rcases codeTable_walk h hl hk with ⟨q, hq, hp', he⟩ | ⟨hno, -⟩
    · rw [if_neg (by simp), he, List.nil_append, codeBits_codeOf q hq]
      exact hp'
    · exact absurd hp (hno bits)

/-- The codes GEN_CODES makes are the tree's (R181, R182). -/
theorem genCodes_codesOk {s : State} (h : TreeOk s) : CodesOk (genCodes s) := by
  intro k hk
  have hfreq : freqAt (genCodes s) k = freqAt s k := freqAt_congr rfl k
  have hcode : codeOfSym (genCodes s) k = codeBits (codeIn (codeTable s) k) := rfl
  rw [hfreq, hcode, leadsTo_congr (s := s) (t := genCodes s) rfl]
  split
  · exact codeTable_absent h hk ‹_›
  · exact codeTable_present h hk ‹_›

/-! ## The decoder's walk in a tree (R222) -/

theorem internalIds_congr {s t : State} (h : t.leaves = s.leaves) : internalIds t = internalIds s := by
  simp only [internalIds, h]

/-- The walk of DEC_FEED stays at internal nodes until the sentinel ends it. -/
theorem feedBits_in_tree {s : State} (h : TreeOk s) (hr : s.root ∈ internalIds s) (bits : List Bool)
    (hd : s.dnode ∈ internalIds s) :
    ((feedBits bits s).phase = s.phase ∧ (feedBits bits s).dnode ∈ internalIds s)
      ∨ ((feedBits bits s).phase = .done ∧ (feedBits bits s).dnode = 256#10) := by
  induction bits generalizing s with
  | nil => exact .inl ⟨rfl, hd⟩
  | cons b bits ih =>
    cases hl : isLeaf (childAt s s.dnode b) with
    | false =>
      rw [feedBits_internal b bits s hl]
      exact ih (s := moveTo _ s) (h.congr rfl rfl rfl rfl) hr (present_internal (h.child_present hd b) hl)
    | true =>
      by_cases hc : childAt s s.dnode b = 256#10
      · rw [feedBits_sentinel b bits s hc]
        exact .inr ⟨rfl, rfl⟩
      · rw [feedBits_leaf b bits s hl hc]
        exact ih (s := emitLeaf _ s) (h.congr rfl rfl rfl rfl) hr hr

/-! ## The machine invariant (O25) -/

theorem Inv.raise {s : State} (h : Inv s) {e : ErrKind} (w : Word) (hp : s.phase ≠ .error) (he : e ≠ .none) :
    Inv (raise e w s) where
  cfg_ok := h.cfg_ok
  memory := h.memory
  hdr_le := h.hdr_le
  queue_empty := h.queue_empty
  fifo_fits := h.fifo_fits
  writer_clean := h.writer_clean
  writer_idle := by simp
  error_iff := by simp [he]
  no_error := fun e' => absurd e' he
  prev_phase := hp
  codes_need_tree := h.codes_need_tree
  without_tree := fun ht => by
    obtain ⟨hr, hl, hd, -⟩ := h.without_tree ht
    exact ⟨hr, hl, hd, .inr rfl⟩
  with_tree := by simp
  no_codes := by simp
  with_codes := by simp

theorem Inv.errKind_none {s : State} (h : Inv s) (hp : s.phase ≠ .error) : s.errKind = .none :=
  by_contra fun hk => hp (h.error_iff.2 hk)

theorem Inv.treeValid {s : State} (h : Inv s) (hp : s.phase ≠ .freq) (hp' : s.phase ≠ .error) : s.treeValid = true := by
  by_contra ht
  obtain ⟨-, -, -, hp''⟩ := h.without_tree (by simpa using ht)
  exact hp''.elim hp hp'

theorem inv_resetWith {c : Config} (hc : c.ok = true) : Inv (State.resetWith c) where
  cfg_ok := hc
  memory := memory_wf_empty hc rfl rfl
  hdr_le := Nat.zero_le _
  queue_empty := rfl
  fifo_fits := Nat.zero_le _
  writer_clean := Nat.one_pos
  writer_idle := .inr (.inr rfl)
  error_iff := by simp [State.resetWith]
  no_error := fun _ => ⟨rfl, rfl⟩
  prev_phase := by simp [State.resetWith]
  codes_need_tree := by simp [State.resetWith]
  without_tree := fun _ => ⟨rfl, rfl, rfl, .inl rfl⟩
  with_tree := by simp [State.resetWith]
  no_codes := fun _ => rfl
  with_codes := by simp [State.resetWith]

/-- What CLR leaves alone, the invariant does not speak of, but for the parameters (R131). -/
theorem Inv.clear {s : State} (h : Inv s) : Inv (clear s) :=
  { inv_resetWith h.cfg_ok with memory := memory_wf_clear s h.cfg_ok }

theorem Inv.hardReset {s : State} (h : Inv s) : Inv (hardReset s) :=
  { inv_resetWith h.cfg_ok with memory := memory_wf_hardReset s h.cfg_ok }

theorem Inv.withResult {s : State} (h : Inv s) (r : Word) : Inv { s with result := r } := { h with }

/-! ### Each command's own rule -/

theorem Inv.setFreq {s : State} (h : Inv s) {n : Nat} {v : Word} (hn : n ≤ 256) (hv : v.toNat ≤ s.cfg.freqMax) :
    Inv (setFreq n v s) :=
  { h with memory := memory_wf_setFreq h.memory n v hn hv }

theorem Inv.freq_le {s : State} (h : Inv s) {n : Nat} (hn : n ≤ 256) : (freqAt s n).toNat ≤ s.cfg.freqMax :=
  ((memory_wf_iff s).1 h.memory).1 n hn

theorem Inv.countByte {s : State} (h : Inv s) (b : Byte) (hp : s.phase ≠ .error) : Inv (countByte b s) := by
  have hb : b.toNat ≤ 256 := by have := b.isLt; omega
  unfold Machine.countByte
  split
  · exact h.raise _ hp nofun
  · refine h.setFreq hb ?_
    have := h.freq_le hb
    rw [BitVec.toNat_add, BitVec.toNat_ofNat]
    omega

theorem Inv.loadHeader {s : State} (h : Inv s) (hp : s.phase ≠ .error) : Inv (loadHeader s) := by
  have hh := h.hdr_le
  unfold Machine.loadHeader
  split_ifs with hlong hbig
  · exact h.raise _ hp nofun
  · exact h.raise _ hp nofun
  · exact { h.setFreq (n := s.hdrCnt.toNat) (v := s.arg) (by omega) (by omega) with
      hdr_le := by
        show (s.hdrCnt + 1#9).toNat ≤ 257
        rw [BitVec.toNat_add, BitVec.toNat_ofNat]
        omega }

theorem Inv.buildTree {s : State} (h : Inv s) (hp : s.phase = .freq) : Inv (buildTree s) := by
  rcases buildTree_cases s with hb | ⟨hf, hb⟩ <;> rw [hb]
  · exact h.raise _ (by simp [hp]) nofun
  · obtain ⟨e, -, hplant⟩ := plantTree_eq hf
    rw [hplant]
    exact { h with
      queue_empty := rfl
      writer_idle := .inr (.inr (by simpa [hp] using h.writer_idle))
      error_iff := by simp [h.errKind_none (by simp [hp])]
      codes_need_tree := fun _ => rfl
      without_tree := by simp
      with_tree := by simp
      no_codes := fun _ => h.no_codes (.inl hp)
      with_codes := by simp }

theorem Inv.genCodes {s : State} (h : Inv s) (hp : s.phase = .tree) : Inv (genCodes s) := by
  have ht := h.treeValid (by simp [hp]) (by simp [hp])
  exact { h with
    memory := memory_wf_genCodes h.memory
    writer_idle := .inr (.inr ((h.writer_idle.resolve_left (by simp [hp])).resolve_left (by simp [hp])))
    error_iff := by simp [Machine.genCodes, h.errKind_none (by simp [hp])]
    codes_need_tree := fun _ => ht
    without_tree := fun hf => by simp [Machine.genCodes, ht] at hf
    with_tree := by simp [Machine.genCodes]
    no_codes := by simp [Machine.genCodes]
    with_codes := fun _ => rfl }

/-- Only the writer, OUT, ENC_BITS and PHASE differ: what the encoder writes (R201 to R204). -/
def EncoderFrame (s t : State) : Prop :=
  t = { s with wbuf := t.wbuf, wcnt := t.wcnt, out := t.out, encBits := t.encBits, phase := t.phase }

theorem encoderFrame_emitCode (e : CodeEntry) (s : State) (p : Phase) :
    EncoderFrame s { emitCode e s with phase := p } := by simp [EncoderFrame]

theorem encoderFrame_closeWriter (e : CodeEntry) (s : State) (p : Phase) :
    EncoderFrame s { closeWriter (emitCode e s) with phase := p } := by simp [EncoderFrame]

theorem Inv.encoder {s t : State} (h : Inv s) (hp : s.phase = .codes ∨ s.phase = .encoding) (hf : EncoderFrame s t)
    (hclean : writerClean t) (hfit : t.out.length ≤ s.cfg.outDepth)
    (hphase : t.phase = .encoding ∨ (t.phase = .closed ∧ t.wcnt = 0#3)) : Inv t := by
  have hc := h.with_codes (hp.imp_right .inl)
  have herr : s.phase ≠ .error := by rcases hp with hp | hp <;> simp [hp]
  rw [hf]
  exact { h with
    fifo_fits := hfit
    writer_clean := hclean
    writer_idle := hphase.imp_right fun h => .inr h.2
    error_iff := by rcases hphase with hq | ⟨hq, -⟩ <;> simp [hq, h.errKind_none herr]
    without_tree := fun hf => by simp [h.codes_need_tree hc] at hf
    with_tree := by rcases hphase with hq | ⟨hq, -⟩ <;> simp [hq]
    no_codes := by rcases hphase with hq | ⟨hq, -⟩ <;> simp [hq]
    with_codes := fun _ => hc }

theorem Inv.encodeByte {s : State} (h : Inv s) (b : Byte) (hp : s.phase = .codes ∨ s.phase = .encoding)
    (hroom : s.out.length + pushes (.encByte b) s ≤ s.cfg.outDepth) : Inv (encodeByte b s) := by
  have hlen := encodeByte_out_length b s
  rcases encodeByte_cases b s with he | he <;> rw [he] at hlen ⊢
  · exact h.raise _ (by rcases hp with hp | hp <;> simp [hp]) nofun
  · exact h.encoder hp (encoderFrame_emitCode _ s _) (emitBits_clean _ s h.writer_clean) (hlen.trans_le hroom) (.inl rfl)

theorem Inv.encodeEnd {s : State} (h : Inv s) (hp : s.phase = .codes ∨ s.phase = .encoding)
    (hroom : s.out.length + pushes .encEnd s ≤ s.cfg.outDepth) : Inv (encodeEnd s) := by
  have hlen := encodeEnd_out_length s
  rcases encodeEnd_cases s with he | he <;> rw [he] at hlen ⊢
  · exact h.raise _ (by rcases hp with hp | hp <;> simp [hp]) nofun
  · exact h.encoder hp (encoderFrame_closeWriter _ s _)
      (closeWriter_clean _ (emitBits_clean (codeBits (codeAt s 256)) s h.writer_clean)) (hlen.trans_le hroom)
      (.inr ⟨rfl, closeWriter_wcnt _⟩)

/-- Only DNODE, OUT, DEC_BYTES and PHASE differ: what the decoder's walk writes (R222). -/
def DecoderFrame (s t : State) : Prop :=
  t = { s with dnode := t.dnode, out := t.out, decBytes := t.decBytes, phase := t.phase }

theorem decoderFrame_feedBits (bits : List Bool) (s : State) : DecoderFrame s (feedBits bits s) := by
  induction bits generalizing s with
  | nil => rfl
  | cons b bits ih =>
    rcases feedBits_cases b bits s with h | h | h <;> rw [h]
    · rfl
    · exact ih (emitLeaf _ s)
    · exact ih (moveTo _ s)

/-- DEC_FEED enters phase DECODING and walks (R222). -/
theorem decoderFrame_walk (bits : List Bool) (s : State) :
    DecoderFrame s (feedBits bits { s with phase := .decoding }) :=
  decoderFrame_feedBits bits { s with phase := .decoding }

theorem Inv.decoder {s t : State} (h : Inv s) (hp : s.phase = .tree ∨ s.phase = .codes ∨ s.phase = .decoding)
    (hf : DecoderFrame s t) (hfit : t.out.length ≤ s.cfg.outDepth) (hphase : t.phase = .done ∨ t.phase = .decoding) :
    Inv t := by
  have hne : s.phase ≠ .freq ∧ s.phase ≠ .error ∧ s.phase ≠ .encoding := by
    rcases hp with hp | hp | hp <;> simp [hp]
  obtain ⟨hfreq, herr, henc⟩ := hne
  have ht := h.treeValid hfreq herr
  rw [hf]
  exact { h with
    fifo_fits := hfit
    writer_idle := .inr (.inr ((h.writer_idle.resolve_left henc).resolve_left herr))
    error_iff := by rcases hphase with hq | hq <;> simp [hq, h.errKind_none herr]
    without_tree := fun hf => by simp [ht] at hf
    with_tree := by rcases hphase with hq | hq <;> simp [hq]
    no_codes := by rcases hphase with hq | hq <;> simp [hq]
    with_codes := by rcases hphase with hq | hq <;> simp [hq] }

theorem Inv.feedByte {s : State} (h : Inv s) (b : Byte)
    (hp : s.phase = .tree ∨ s.phase = .codes ∨ s.phase = .decoding ∨ s.phase = .done)
    (hroom : s.out.length + pushes (.decFeed b) s ≤ s.cfg.outDepth) : Inv (feedByte b s) := by
  have hlen := feedByte_out_length b s
  have hp' (hd : s.phase ≠ .done) : s.phase = .tree ∨ s.phase = .codes ∨ s.phase = .decoding := by
    simpa [hd] using hp
  rcases feedByte_cases b s with ⟨-, hb⟩ | ⟨hd, -, hb | hb⟩ | ⟨hd, -, hb⟩ <;> rw [hb] at hlen ⊢
  · exact { h with }
  · exact h.raise _ (by rcases hp' hd with hp | hp | hp <;> simp [hp]) nofun
  · exact h.decoder (hp' hd) rfl h.fifo_fits (.inl rfl)
  · exact h.decoder (hp' hd) (decoderFrame_walk _ s) (hlen.trans_le hroom) (feedBits_phase _ { s with phase := .decoding })

theorem Inv.endOfInput {s : State} (h : Inv s) (hp : s.phase ≠ .error) : Inv (endOfInput s) := by
  rcases endOfInput_cases s with he | he <;> rw [he]
  · exact h
  · exact h.raise _ hp nofun

/-- A command's own rule, run where it is legal, keeps the invariant when what it pushes has room in the FIFO (R82). -/
theorem Inv.rule {s : State} (h : Inv s) {i : Instr} (hp : s.phase ≠ .error) (hl : legality i s = .ok)
    (hroom : s.out.length + pushes i s ≤ s.cfg.outDepth) : Inv (rule i s) := by
  cases i with
  | nop => exact h
  | clr => exact h.clear
  | count b => exact h.countByte b hp
  | loadFreq => exact h.loadHeader hp
  | buildTree => exact h.buildTree (legalInFreq_ok.1 hl)
  | genCodes => exact h.genCodes (legalInTree_ok.1 hl)
  | encByte b => exact h.encodeByte b (legalForEncoder_ok.1 hl) hroom
  | encEnd => exact h.encodeEnd (legalForEncoder_ok.1 hl) hroom
  | decFeed b => exact h.feedByte b (legalForDecoder_ok.1 hl) hroom
  | decEoi => exact h.endOfInput hp
  | readFreq _ | readNode _ _ | readCodeLen _ | readCodeWord _ _ => exact h.withResult _

theorem Inv.effect {s : State} (h : Inv s) (i : Instr)
    (hroom : legality i s = .ok → s.out.length + pushes i s ≤ s.cfg.outDepth) : Inv (effect i s) := by
  rcases effect_cases i s with ⟨-, -, he⟩ | ⟨-, he⟩ | ⟨hp, -, e, hne, he⟩ | ⟨hp, -, hl, he⟩ <;> rw [he]
  · exact h
  · exact h.clear
  · exact h.raise _ hp hne
  · exact h.rule hp hl (hroom hl)

theorem Inv.wordEffect {s : State} (h : Inv s) {w : Word} (hroom : s.out.length + need w s ≤ s.cfg.outDepth) :
    Inv (wordEffect w s) := by
  rcases wordEffect_cases w s with ⟨-, hw⟩ | ⟨-, hw⟩ | ⟨hp, e, he, hw⟩ | ⟨hp, i, hd, hw⟩ <;> rw [hw]
  · exact h
  · exact h.clear
  · exact h.raise w hp he
  · exact h.effect i fun hl => by simpa [need, hp, hd, hl] using hroom

/-! ### The outside world's steps -/

theorem Inv.popOut {s : State} (h : Inv s) : Inv (popOut s) :=
  { h with fifo_fits := (List.tail_suffix s.out).length_le.trans h.fifo_fits }

/-- Everything a write does: PEND, ARG or IRQ_EN, or nothing (R24, R25, R36, R37, R38). -/
theorem busWrite_eq (off : Offset) (v : Word) (s : State) : busWrite off v s =
    { s with
      pend := if regAt off = some .cmd then some v else s.pend
      arg := if regAt off = some .arg then v else s.arg
      irqEn := if regAt off = some .irqEn then v.extractLsb' 0 3 else s.irqEn } := by
  unfold busWrite
  split <;> simp [*]

theorem Inv.busRead {s : State} (h : Inv s) (off : Offset) : Inv (busRead off s) := by
  unfold Machine.busRead
  split
  · exact h.popOut
  · exact h

theorem Inv.applyInput {s : State} (h : Inv s) (i : Input) : Inv (applyInput i s) := by
  cases i with
  | read off => exact { h.busRead off with }
  | write off v =>
    rw [Machine.applyInput, busWrite_eq]
    exact { h with }
  | popAll => exact { h.busRead _ with }
  | reset => exact h.hardReset

theorem Inv.hostStep {s : State} (h : Inv s) : Inv (hostStep s) := by
  unfold Machine.hostStep
  split
  · exact h
  · exact { h.applyInput _ with }

theorem need_congr (w : Word) (s : State) (n : Nat) (p : Option Word) :
    need w { s with freeCount := n, pend := p } = need w s := by
  have hl (i : Instr) : legality i { s with freeCount := n, pend := p } = legality i s := by cases i <;> rfl
  have hp (i : Instr) : pushes i { s with freeCount := n, pend := p } = pushes i s := by
    cases i with
    | decFeed b =>
      simp only [pushes, leavesReached_congr (s := s) (t := { s with freeCount := n, pend := p }) rfl rfl]
    | _ => rfl
  simp only [need, hl, hp]

/-- A pending command that fits has room for what it pushes (R82). -/
theorem room_of_engineReady {s : State} {w : Word} (hw : s.pend = some w) (h : engineReady s = true) :
    s.out.length + need w s ≤ s.cfg.outDepth := by
  simpa [engineReady, hw] using h

/-- What the words that fit, the outside world's steps, and writes of PEND and of the count of free draws keep, every step keeps. -/
theorem step_keeps {P : State → Prop} {s t : State} (h : P s) (hstep : step s = .next t)
    (hown : ∀ u n p, P u → P { u with freeCount := n, pend := p })
    (hword : ∀ u w, P u → u.out.length + need w u ≤ u.cfg.outDepth → P (wordEffect w u))
    (hhost : ∀ u, P u → P (hostStep u)) : P t := by
  rcases step_cases hstep with ⟨w, u, hw, hready, hu, rfl⟩ | ⟨u, -, hu, rfl⟩ | ⟨-, -, -, rfl⟩
  · have hroom := room_of_engineReady hw hready
    obtain ⟨n, rfl⟩ : ∃ n, u = { s with freeCount := n } := hu.elim (⟨s.freeCount, ·⟩) (⟨_, ·⟩)
    exact hword _ w (hown s n none h) ((need_congr w s n none).symm ▸ hroom)
  · rcases hu with rfl | rfl
    · exact hhost u h
    · exact hhost _ (hown s (s.freeCount + 1) s.pend h)
  · exact h

/-- Settles O25: of the outside world's steps only a pop and the reset touch what the invariant speaks of, and of the engine's every
command keeps it, what it pushes having room in the FIFO. -/
theorem stepKeepsTheInvariant : Obligations.StepKeepsTheInvariant := by
  unfold Obligations.StepKeepsTheInvariant
  intro s t h hstep
  exact step_keeps h hstep (fun _ _ _ h => { h with }) (fun _ _ h hroom => h.wordEffect hroom) (fun _ h => h.hostStep)

/-! ## The tree invariant (O26) -/

/-- What the tree invariant reads is unchanged, PHASE and DNODE apart. -/
structure SameTree (s t : State) : Prop where
  freq : t.freq = s.freq
  node : t.node = s.node
  root : t.root = s.root
  leaves : t.leaves = s.leaves
  code : t.code = s.code
  treeValid : t.treeValid = s.treeValid
  codesValid : t.codesValid = s.codesValid

theorem EncoderFrame.sameTree {s t : State} (h : EncoderFrame s t) : SameTree s t := by
  rw [h]
  exact ⟨rfl, rfl, rfl, rfl, rfl, rfl, rfl⟩

theorem EncoderFrame.dnode {s t : State} (h : EncoderFrame s t) : t.dnode = s.dnode := by rw [h]

theorem DecoderFrame.sameTree {s t : State} (h : DecoderFrame s t) : SameTree s t := by
  rw [h]
  exact ⟨rfl, rfl, rfl, rfl, rfl, rfl, rfl⟩

section SameTree

variable {s t : State} (h : TreeInv s) (hs : SameTree s t)
include h hs

theorem TreeInv.tree_of_sameTree (ht : t.treeValid = true) : TreeOk t :=
  (h.tree (hs.treeValid.symm.trans ht)).congr hs.freq hs.node hs.root hs.leaves

theorem TreeInv.codes_of_sameTree (hc : t.codesValid = true) : CodesOk t :=
  (h.codes (hs.codesValid.symm.trans hc)).congr hs.freq hs.node hs.root hs.code

/-- While neither the tree nor PHASE nor DNODE changes the invariant stays. -/
theorem TreeInv.of_same (hp : t.phase = s.phase) (hd : t.dnode = s.dnode) : TreeInv t where
  tree := h.tree_of_sameTree hs
  at_root := by rw [hp, hd, hs.root]; exact h.at_root
  in_tree := by rw [hp, hd, internalIds_congr hs.leaves]; exact h.in_tree
  at_sentinel := by rw [hp, hd]; exact h.at_sentinel
  codes := h.codes_of_sameTree hs

/-- A phase in which the decoder has not begun: DNODE stands at the root. -/
theorem TreeInv.of_at_root (hp : t.phase ≠ .decoding) (hp' : t.phase ≠ .done) (hd : t.dnode = t.root) : TreeInv t where
  tree := h.tree_of_sameTree hs
  at_root := fun _ => hd
  in_tree := fun e => absurd e hp
  at_sentinel := fun e => absurd e hp'
  codes := h.codes_of_sameTree hs

/-- In phase ERROR the invariant says nothing of DNODE. -/
theorem TreeInv.of_error (hp : t.phase = .error) : TreeInv t where
  tree := h.tree_of_sameTree hs
  at_root := by simp [hp]
  in_tree := by simp [hp]
  at_sentinel := by simp [hp]
  codes := h.codes_of_sameTree hs

/-- While decoding DNODE stands at an internal node, and at the sentinel when done (R222). -/
theorem TreeInv.of_walk (hw : (t.phase = .decoding ∧ t.dnode ∈ internalIds s) ∨ (t.phase = .done ∧ t.dnode = 256#10)) :
    TreeInv t where
  tree := h.tree_of_sameTree hs
  at_root := by rcases hw with ⟨hp, -⟩ | ⟨hp, -⟩ <;> simp [hp]
  in_tree := by
    rw [internalIds_congr hs.leaves]
    rcases hw with ⟨-, hd⟩ | ⟨hp, -⟩
    · exact fun _ => hd
    · simp [hp]
  at_sentinel := by
    rcases hw with ⟨hp, -⟩ | ⟨-, hd⟩
    · simp [hp]
    · exact fun _ => hd
  codes := h.codes_of_sameTree hs

end SameTree

theorem TreeInv.raise {s : State} (h : TreeInv s) (e : ErrKind) (w : Word) : TreeInv (raise e w s) :=
  h.of_error ⟨rfl, rfl, rfl, rfl, rfl, rfl, rfl⟩ rfl

/-- In phase FREQ without a tree there is nothing to say. -/
theorem treeInv_of_freq {s : State} (hp : s.phase = .freq) (ht : s.treeValid = false) (hc : s.codesValid = false) :
    TreeInv s where
  tree := by simp [ht]
  at_root := by simp [hp]
  in_tree := by simp [hp]
  at_sentinel := by simp [hp]
  codes := by simp [hc]

theorem treeInv_clear (s : State) : TreeInv (clear s) := treeInv_of_freq rfl rfl rfl

theorem treeInv_hardReset (s : State) : TreeInv (hardReset s) := treeInv_of_freq rfl rfl rfl

theorem TreeInv.withResult {s : State} (h : TreeInv s) (r : Word) : TreeInv { s with result := r } :=
  h.of_same ⟨rfl, rfl, rfl, rfl, rfl, rfl, rfl⟩ rfl rfl

/-! ### Each command's own rule -/

theorem Inv.no_tree {s : State} (h : Inv s) (hp : s.phase = .freq) : s.treeValid = false :=
  Bool.eq_false_iff.2 fun ht => h.with_tree ht hp

theorem TreeInv.countByte {s : State} (h : TreeInv s) (hi : Inv s) (hp : s.phase = .freq) (b : Byte) :
    TreeInv (countByte b s) := by
  unfold Machine.countByte
  split
  · exact h.raise _ _
  · exact treeInv_of_freq hp (hi.no_tree hp) (hi.no_codes (.inl hp))

theorem TreeInv.loadHeader {s : State} (h : TreeInv s) (hi : Inv s) (hp : s.phase = .freq) : TreeInv (loadHeader s) := by
  unfold Machine.loadHeader
  split
  · exact h.raise _ _
  · split
    · exact h.raise _ _
    · exact treeInv_of_freq hp (hi.no_tree hp) (hi.no_codes (.inl hp))

theorem TreeInv.buildTree {s : State} (h : TreeInv s) (hi : Inv s) (hp : s.phase = .freq) : TreeInv (buildTree s) := by
  rcases buildTree_cases s with hb | ⟨hf, hb⟩ <;> rw [hb]
  · exact h.raise _ _
  · have htree := plantTree_treeOk hf
    obtain ⟨e, -, hplant⟩ := plantTree_eq hf
    rw [hplant] at htree ⊢
    exact {
      tree := fun _ => htree
      at_root := fun _ => rfl
      in_tree := by simp
      at_sentinel := by simp
      codes := fun hc => by simp [hi.no_codes (.inl hp)] at hc }

theorem TreeInv.genCodes {s : State} (h : TreeInv s) (hi : Inv s) (hp : s.phase = .tree) : TreeInv (genCodes s) := by
  have htree := h.tree (hi.treeValid (by simp [hp]) (by simp [hp]))
  exact {
    tree := fun _ => htree.congr rfl rfl rfl rfl
    at_root := fun _ => h.at_root (.inl hp)
    in_tree := by simp [Machine.genCodes]
    at_sentinel := by simp [Machine.genCodes]
    codes := fun _ => genCodes_codesOk htree }

theorem TreeInv.encoder {s t : State} (h : TreeInv s) (hp : s.phase = .codes ∨ s.phase = .encoding)
    (hf : EncoderFrame s t) (hphase : t.phase = .encoding ∨ t.phase = .closed) : TreeInv t :=
  h.of_at_root hf.sameTree (by rcases hphase with hq | hq <;> simp [hq]) (by rcases hphase with hq | hq <;> simp [hq])
    (by rw [hf.dnode, hf.sameTree.root]; exact h.at_root (by tauto))

theorem TreeInv.encodeByte {s : State} (h : TreeInv s) (b : Byte) (hp : s.phase = .codes ∨ s.phase = .encoding) :
    TreeInv (encodeByte b s) := by
  rcases encodeByte_cases b s with he | he <;> rw [he]
  · exact h.raise _ _
  · exact h.encoder hp (encoderFrame_emitCode _ s _) (.inl rfl)

theorem TreeInv.encodeEnd {s : State} (h : TreeInv s) (hp : s.phase = .codes ∨ s.phase = .encoding) :
    TreeInv (encodeEnd s) := by
  rcases encodeEnd_cases s with he | he <;> rw [he]
  · exact h.raise _ _
  · exact h.encoder hp (encoderFrame_closeWriter _ s _) (.inr rfl)

/-- Before the sentinel is reached DNODE is the sole leaf, or an internal node as the root is (R222, R224). -/
theorem TreeInv.dnode_cases {s : State} (h : TreeInv s) (htree : TreeOk s)
    (hp : s.phase = .tree ∨ s.phase = .codes ∨ s.phase = .decoding) :
    (isLeaf s.root = true ∧ s.dnode = 256#10) ∨ (s.root ∈ internalIds s ∧ s.dnode ∈ internalIds s) := by
  have hd : s.dnode = s.root ∨ s.dnode ∈ internalIds s := by
    rcases hp with hp | hp | hp
    · exact .inl (h.at_root (.inl hp))
    · exact .inl (h.at_root (.inr (.inl hp)))
    · exact .inr (h.in_tree hp)
  rcases htree.root_cases with ⟨hone, hr⟩ | hr
  · have hn : s.dnode ∉ internalIds s := by
      rw [mem_internalIds, hone]
      omega
    exact .inl ⟨by rw [hr]; rfl, (hd.resolve_right hn).trans hr⟩
  · exact .inr ⟨hr, hd.elim (· ▸ hr) id⟩

/-- Where the decoder's commands are legal there is a tree (R42, R110). -/
theorem TreeInv.tree_of_decoder {s : State} (h : TreeInv s) (hi : Inv s)
    (hp : s.phase = .tree ∨ s.phase = .codes ∨ s.phase = .decoding ∨ s.phase = .done) : TreeOk s := by
  have hne : s.phase ≠ .freq ∧ s.phase ≠ .error := by rcases hp with hp | hp | hp | hp <;> simp [hp]
  exact h.tree (hi.treeValid hne.1 hne.2)

theorem TreeInv.feedByte {s : State} (h : TreeInv s) (hi : Inv s) (b : Byte)
    (hp : s.phase = .tree ∨ s.phase = .codes ∨ s.phase = .decoding ∨ s.phase = .done) : TreeInv (feedByte b s) := by
  have htree := h.tree_of_decoder hi hp
  have hpos (hd : s.phase ≠ .done) := h.dnode_cases htree (by simpa [hd] using hp)
  rcases feedByte_cases b s with ⟨-, hb⟩ | ⟨hd, hl, hb | hb⟩ | ⟨hd, hl, hb⟩ <;> rw [hb]
  · exact h.of_same ⟨rfl, rfl, rfl, rfl, rfl, rfl, rfl⟩ rfl rfl
  · exact h.raise _ _
  · refine h.of_walk ⟨rfl, rfl, rfl, rfl, rfl, rfl, rfl⟩ (.inr ⟨rfl, ?_⟩)
    rcases hpos hd with ⟨-, hn⟩ | ⟨hr, -⟩
    · exact hn
    · simp [isLeaf_of_mem_internalIds hr] at hl
  · rcases hpos hd with ⟨hl', -⟩ | ⟨hr, hn⟩
    · simp [hl'] at hl
    · exact h.of_walk (decoderFrame_walk _ s).sameTree
        (feedBits_in_tree (s := { s with phase := .decoding }) (htree.congr rfl rfl rfl rfl) hr (byteBits b) hn)

theorem TreeInv.rule {s : State} (h : TreeInv s) (hi : Inv s) {i : Instr} (hl : legality i s = .ok) :
    TreeInv (rule i s) := by
  cases i with
  | nop => exact h
  | clr => exact treeInv_clear s
  | count b => exact h.countByte hi (legalInFreq_ok.1 hl) b
  | loadFreq => exact h.loadHeader hi (legalInFreq_ok.1 hl)
  | buildTree => exact h.buildTree hi (legalInFreq_ok.1 hl)
  | genCodes => exact h.genCodes hi (legalInTree_ok.1 hl)
  | encByte b => exact h.encodeByte b (legalForEncoder_ok.1 hl)
  | encEnd => exact h.encodeEnd (legalForEncoder_ok.1 hl)
  | decFeed b => exact h.feedByte hi b (legalForDecoder_ok.1 hl)
  | decEoi =>
    rw [Machine.rule]
    rcases endOfInput_cases s with he | he <;> rw [he]
    · exact h
    · exact h.raise _ _
  | readFreq _ | readNode _ _ | readCodeLen _ | readCodeWord _ _ => exact h.withResult _

theorem TreeInv.wordEffect {s : State} (h : TreeInv s) (hi : Inv s) (w : Word) : TreeInv (wordEffect w s) := by
  rcases wordEffect_cases w s with ⟨-, hw⟩ | ⟨-, hw⟩ | ⟨-, e, -, hw⟩ | ⟨-, i, -, hw⟩ <;> rw [hw]
  · exact h
  · exact treeInv_clear s
  · exact h.raise e w
  · rcases effect_cases i s with ⟨-, -, he⟩ | ⟨-, he⟩ | ⟨-, -, e, -, he⟩ | ⟨-, -, hl, he⟩ <;> rw [he]
    · exact h
    · exact treeInv_clear s
    · exact h.raise _ _
    · exact h.rule hi hl

/-! ### The outside world's steps -/

theorem TreeInv.busRead {s : State} (h : TreeInv s) (off : Offset) : TreeInv (busRead off s) := by
  unfold Machine.busRead
  split
  · exact h.of_same ⟨rfl, rfl, rfl, rfl, rfl, rfl, rfl⟩ rfl rfl
  · exact h

theorem TreeInv.applyInput {s : State} (h : TreeInv s) (i : Input) : TreeInv (applyInput i s) := by
  cases i with
  | read off => exact (h.busRead off).of_same ⟨rfl, rfl, rfl, rfl, rfl, rfl, rfl⟩ rfl rfl
  | write off v =>
    rw [Machine.applyInput, busWrite_eq]
    exact h.of_same ⟨rfl, rfl, rfl, rfl, rfl, rfl, rfl⟩ rfl rfl
  | popAll => exact (h.busRead _).of_same ⟨rfl, rfl, rfl, rfl, rfl, rfl, rfl⟩ rfl rfl
  | reset => exact treeInv_hardReset s

theorem TreeInv.hostStep {s : State} (h : TreeInv s) : TreeInv (hostStep s) := by
  unfold Machine.hostStep
  split
  · exact h
  · exact (h.applyInput _).of_same ⟨rfl, rfl, rfl, rfl, rfl, rfl, rfl⟩ rfl rfl

/-- Settles O26: BUILD_TREE plants a tree, GEN_CODES gives it its codes, DEC_FEED walks through it, and every other step leaves it or
starts again without one. -/
theorem stepKeepsTheTree : Obligations.StepKeepsTheTree := by
  unfold Obligations.StepKeepsTheTree
  intro s t hi h hstep
  refine (step_keeps (P := fun u => Inv u ∧ TreeInv u) ⟨hi, h⟩ hstep ?_ ?_ ?_).2
  · exact fun u n p ⟨hi, h⟩ => ⟨{ hi with }, h.of_same ⟨rfl, rfl, rfl, rfl, rfl, rfl, rfl⟩ rfl rfl⟩
  · exact fun u w ⟨hi, h⟩ hroom => ⟨hi.wordEffect hroom, h.wordEffect hi w⟩
  · exact fun u ⟨hi, h⟩ => ⟨hi.hostStep, h.hostStep⟩

/-! ## The entries of NODE beyond the nodes present (O44) -/

/-- The state with another NODE memory. -/
def withNode (m : Vector NodeEntry 256) (s : State) : State := { s with node := m }

/-- A node memory holds the entries of the nodes present. -/
def AgreesOn (m : Vector NodeEntry 256) (s : State) : Prop := ∀ k ∈ internalIds s, nodeIn m k = nodeAt s k

/-- Two states differ only in NODE entries beyond the nodes present. -/
def SeenEqual (t u : State) : Prop := u = withNode u.node t ∧ AgreesOn u.node t

theorem seenEqual_withNode {m : Vector NodeEntry 256} {t : State} (h : AgreesOn m t) : SeenEqual t (withNode m t) := ⟨rfl, h⟩

theorem AgreesOn.congr {m : Vector NodeEntry 256} {s t : State} (h : AgreesOn m s) (hn : t.node = s.node)
    (hl : t.leaves = s.leaves) : AgreesOn m t := by
  intro k hk
  rw [nodeAt_congr hn]
  exact h k (internalIds_congr hl ▸ hk)

theorem AgreesOn.childAt {m : Vector NodeEntry 256} {s : State} (h : AgreesOn m s) {n : NodeId} (hn : n ∈ internalIds s)
    (b : Bool) : childAt (withNode m s) n b = childAt s n b := by
  have e : nodeAt (withNode m s) n = nodeAt s n := h n hn
  rw [Machine.childAt, Machine.childAt, e]

theorem legality_withNode (i : Instr) (m : Vector NodeEntry 256) (s : State) : legality i (withNode m s) = legality i s := by
  cases i <;> rfl

/-- The check order takes two states with equal phases and legality the same way (R111). -/
theorem command_related {R : State → State → Prop} {i : Instr} {s s' : State} {body : State → State}
    (hp : s'.phase = s.phase) (hl : legality i s' = legality i s) (hsame : R s s')
    (hraise : ∀ e w, R (raise e w s) (raise e w s'))
    (hbody : s.phase ≠ .error → legality i s = .ok → R (body s) (body s')) : R (command i s body) (command i s' body) := by
  unfold command
  rw [hp, hl]
  split
  · exact hsame
  · split
    · exact hraise _ _
    · split
      · exact hraise _ _
      · exact hraise _ _
      · exact hbody ‹_› ‹_›

/-! ### READ_NODE and GEN_CODES -/

theorem nodeWord_withNode {m : Vector NodeEntry 256} {s : State} (h : AgreesOn m s) (n : NodeId) (sel : BitVec 2) :
    nodeWord (withNode m s) n sel = nodeWord s n sel := by
  have hpresent : present (withNode m s) n = present s n := rfl
  unfold nodeWord weightOf
  rw [hpresent]
  cases hp : present s n with
  | false => rfl
  | true =>
    cases hl : isLeaf n with
    | true => rfl
    | false =>
      have e : nodeAt (withNode m s) n = nodeAt s n := h n (present_internal hp hl)
      rw [e]
      rfl

theorem walk_agrees {m : Vector NodeEntry 256} {s : State} (h : TreeOk s) (ha : AgreesOn m s) (d : Nat) (n : NodeId)
    (hn : present s n = true) (p : List Bool) (c : Vector CodeEntry 257) : walk m d n p c = walk s.node d n p c := by
  induction d generalizing n p c with
  | zero => rfl
  | succ d ih =>
    cases hl : isLeaf n with
    | true => rw [walk_leaf hl, walk_leaf hl]
    | false =>
      have hi := present_internal hn hl
      have hm := walk_internal (s := withNode m s) hl d p c
      rw [ha.childAt hi, ha.childAt hi] at hm
      refine hm.trans ?_
      rw [walk_internal hl, ← ih _ (h.child_present hi false), ← ih _ (h.child_present hi true)]
      rfl

theorem codeTable_withNode {m : Vector NodeEntry 256} {s : State} (h : TreeOk s) (ha : AgreesOn m s) :
    codeTable (withNode m s) = codeTable s := by
  unfold codeTable
  rw [← walk_agrees h ha 256 s.root h.root_present]
  rfl

theorem genCodes_withNode {m : Vector NodeEntry 256} {s : State} (h : TreeOk s) (ha : AgreesOn m s) :
    genCodes (withNode m s) = withNode m (genCodes s) := by
  unfold genCodes
  rw [codeTable_withNode h ha]
  rfl

/-! ### The encoder and the decoder -/

theorem emitBit_withNode (m : Vector NodeEntry 256) (b : Bool) (s : State) :
    emitBit b (withNode m s) = withNode m (emitBit b s) := by
  unfold emitBit
  symm
  exact apply_ite (withNode m) _ _ _

theorem emitBits_withNode (m : Vector NodeEntry 256) (bs : List Bool) (s : State) :
    emitBits bs (withNode m s) = withNode m (emitBits bs s) := by
  induction bs generalizing s with
  | nil => rfl
  | cons b bs ih =>
    rw [emitBits, emitBit_withNode, ih, emitBits]

theorem emitCode_withNode (m : Vector NodeEntry 256) (e : CodeEntry) (s : State) :
    emitCode e (withNode m s) = withNode m (emitCode e s) := by
  rw [emitCode, emitBits_withNode]
  rfl

theorem closeWriter_withNode (m : Vector NodeEntry 256) (s : State) :
    closeWriter (withNode m s) = withNode m (closeWriter s) := by
  unfold closeWriter
  symm
  exact apply_ite (withNode m) _ _ _

theorem encodeByte_withNode (m : Vector NodeEntry 256) (b : Byte) (s : State) :
    encodeByte b (withNode m s) = withNode m (encodeByte b s) := by
  unfold encodeByte
  rw [codeAt_congr (s := s) (t := withNode m s) rfl, emitCode_withNode]
  symm
  exact apply_ite (withNode m) _ _ _

theorem encodeEnd_withNode (m : Vector NodeEntry 256) (s : State) : encodeEnd (withNode m s) = withNode m (encodeEnd s) := by
  unfold encodeEnd
  rw [codeAt_congr (s := s) (t := withNode m s) rfl, emitCode_withNode, closeWriter_withNode]
  symm
  exact apply_ite (withNode m) _ _ _

theorem feedBits_withNode {m : Vector NodeEntry 256} {s : State} (h : TreeOk s) (ha : AgreesOn m s)
    (hr : s.root ∈ internalIds s) (bits : List Bool) (hd : s.dnode ∈ internalIds s) :
    feedBits bits (withNode m s) = withNode m (feedBits bits s) := by
  induction bits generalizing s with
  | nil => rfl
  | cons b bits ih =>
    have hc : childAt (withNode m s) (withNode m s).dnode b = childAt s s.dnode b := ha.childAt hd b
    cases hl : isLeaf (childAt s s.dnode b) with
    | false =>
      rw [feedBits_internal b bits s hl, feedBits_internal b bits _ (hc ▸ hl), hc]
      exact ih (s := moveTo _ s) (h.congr rfl rfl rfl rfl) ha hr (present_internal (h.child_present hd b) hl)
    | true =>
      by_cases he : childAt s s.dnode b = 256#10
      · rw [feedBits_sentinel b bits s he, feedBits_sentinel b bits _ (hc ▸ he)]
        rfl
      · rw [feedBits_leaf b bits s hl he, feedBits_leaf b bits _ (hc ▸ hl) (hc ▸ he), hc]
        exact ih (s := emitLeaf _ s) (h.congr rfl rfl rfl rfl) ha hr hr


theorem feedByte_withNode {m : Vector NodeEntry 256} {s : State} (h : TreeOk s) (ha : AgreesOn m s) (b : Byte)
    (hd : s.phase ≠ .done → isLeaf s.root = false → s.dnode ∈ internalIds s) :
    feedByte b (withNode m s) = withNode m (feedByte b s) := by
  by_cases hp : s.phase = .done
  · simp [feedByte, withNode, hp]
  · cases hl : isLeaf s.root with
    | true =>
      have hdeg : feedDegenerate b (withNode m s) = withNode m (feedDegenerate b s) := by
        unfold feedDegenerate
        symm
        exact apply_ite (withNode m) _ _ _
      simpa [feedByte, withNode, hp, hl] using hdeg
    | false =>
      have hwalk := feedBits_withNode (s := { s with phase := .decoding }) (h.congr rfl rfl rfl rfl) ha
        (present_internal h.root_present hl) (byteBits b) (hd hp hl)
      simpa [feedByte, withNode, hp, hl] using hwalk

theorem countByte_withNode (m : Vector NodeEntry 256) (b : Byte) (s : State) :
    countByte b (withNode m s) = withNode m (countByte b s) := by
  unfold countByte
  symm
  exact apply_ite (withNode m) _ _ _

theorem loadHeader_withNode (m : Vector NodeEntry 256) (s : State) :
    loadHeader (withNode m s) = withNode m (loadHeader s) := by
  unfold loadHeader
  symm
  exact (apply_ite (withNode m) _ _ _).trans (congrArg _ (apply_ite (withNode m) _ _ _))

theorem endOfInput_withNode (m : Vector NodeEntry 256) (s : State) :
    endOfInput (withNode m s) = withNode m (endOfInput s) := by
  unfold endOfInput
  symm
  exact apply_ite (withNode m) _ _ _

/-! ### BUILD_TREE -/

/-- Two builders with equal queues, that have made the same nodes. -/
structure BuildersAgree (b b' : Builder) : Prop where
  q : b'.q = b.q
  next : b'.next = b.next
  made : ∀ k : NodeId, 257 ≤ k.toNat → k.toNat < b.next → nodeIn b'.node k = nodeIn b.node k

theorem BuildersAgree.mergeOnce {s : State} {b b' : Builder} (h : BuildersAgree b b') (hb : BuildInv s b) (numLeaves : Nat) :
    BuildersAgree (mergeOnce numLeaves b) (mergeOnce numLeaves b') := by
  by_cases hlen : b.q.length < 2
  · rwa [mergeOnce_short _ _ hlen, mergeOnce_short _ _ (h.q ▸ hlen)]
  · obtain ⟨e1, q1, e2, q2, h1, h2, hcases⟩ := mergeOnce_cases numLeaves b (by omega)
    have hm : Machine.mergeOnce numLeaves b = joined numLeaves b e1 e2 q2 := hcases
    have hm' : Machine.mergeOnce numLeaves b' = joined numLeaves b' e1 e2 q2 := by
      simp [Machine.mergeOnce, h.q, h1, h2, joined]
    have hge := hb.next_ge
    have hle := hb.next_le
    rw [hm, hm']
    refine ⟨by rw [joined_q, joined_q, h.next], by rw [joined_next, joined_next, h.next], fun k hk hk' => ?_⟩
    rw [joined_node, joined_node, h.next, nodeIn_setNodeIn _ _ _ _ ⟨hge, by omega⟩, nodeIn_setNodeIn _ _ _ _ ⟨hge, by omega⟩]
    split
    · rfl
    · rw [joined_next] at hk'
      exact h.made k hk (by omega)

theorem BuildersAgree.mergeAll {s : State} (k : Nat) {b b' : Builder} (h : BuildersAgree b b') (hb : BuildInv s b) :
    BuildersAgree (mergeAll (leafSyms s).length k b) (mergeAll (leafSyms s).length k b') := by
  induction k generalizing b b' with
  | zero => exact h
  | succ k ih => exact ih (h.mergeOnce hb _) hb.mergeOnce

/-- On equal FREQ tables BUILD_TREE makes the same nodes, whatever NODE held before (R164). -/
theorem builtFrom_agree {s t : State} (hf : t.freq = s.freq) : BuildersAgree (builtFrom s) (builtFrom t) := by
  rw [builtFrom, builtFrom, leafSyms_congr hf, leafQueue_congr hf]
  exact BuildersAgree.mergeAll _ ⟨rfl, rfl, fun k hk hk' => absurd hk (Nat.not_le.2 hk')⟩ (buildInv_leaves s)

theorem seenEqual_plantTree {s : State} (m : Vector NodeEntry 256) (hf : freqAt s 256 ≠ 0#32) :
    SeenEqual (plantTree s) (plantTree (withNode m s)) := by
  obtain ⟨e, he, hp⟩ := plantTree_eq hf
  obtain ⟨e', he', hp'⟩ := plantTree_eq (s := withNode m s) hf
  have hagree := builtFrom_agree (s := s) (t := withNode m s) rfl
  have hnext := (builtFrom_one s (List.ne_nil_of_mem (mem_leafSyms.2 ⟨Nat.le_refl _, hf⟩))).2
  have hlen := leafSyms_length_le s
  obtain rfl : e' = e := by simpa [he, he'] using hagree.q
  rw [hp, hp', leafSyms_congr (s := s) (t := withNode m s) rfl]
  refine ⟨rfl, fun k hk => ?_⟩
  rw [mem_internalIds, BitVec.toNat_ofNat, Nat.mod_eq_of_lt (by omega)] at hk
  exact hagree.made k hk.1 (by omega)

theorem seenEqual_buildTree {m : Vector NodeEntry 256} {s : State} (ha : AgreesOn m s) :
    SeenEqual (buildTree s) (buildTree (withNode m s)) := by
  have hraise : SeenEqual (raise .headerCorrupt (encode .buildTree) s)
      (raise .headerCorrupt (encode .buildTree) (withNode m s)) := ⟨rfl, ha⟩
  have hfreq : freqAt (withNode m s) 256 = freqAt s 256 := freqAt_congr rfl 256
  have hhdr : (withNode m s).hdrCnt = s.hdrCnt := rfl
  unfold buildTree
  rw [hfreq, hhdr]
  split
  · exact hraise
  · split
    · exact hraise
    · exact seenEqual_plantTree m ‹_›

/-! ### Every command -/

/-- A command's own rule, BUILD_TREE's and CLR's apart, leaves NODE and LEAVES. -/
theorem rule_node_leaves {i : Instr} (hb : i ≠ .buildTree) (hc : i ≠ .clr) (s : State) :
    (rule i s).node = s.node ∧ (rule i s).leaves = s.leaves := by
  have hframe {t : State} (h : SameTree s t) : t.node = s.node ∧ t.leaves = s.leaves := ⟨h.node, h.leaves⟩
  cases i with
  | clr => exact absurd rfl hc
  | buildTree => exact absurd rfl hb
  | count b =>
    rw [rule, countByte]
    split <;> exact ⟨rfl, rfl⟩
  | loadFreq =>
    rw [rule, loadHeader]
    split_ifs <;> exact ⟨rfl, rfl⟩
  | encByte b =>
    rw [rule]
    rcases encodeByte_cases b s with he | he <;> rw [he]
    · exact ⟨rfl, rfl⟩
    · exact hframe (encoderFrame_emitCode _ s _).sameTree
  | encEnd =>
    rw [rule]
    rcases encodeEnd_cases s with he | he <;> rw [he]
    · exact ⟨rfl, rfl⟩
    · exact hframe (encoderFrame_closeWriter _ s _).sameTree
  | decFeed b =>
    rw [rule]
    rcases feedByte_cases b s with ⟨-, he⟩ | ⟨-, -, he | he⟩ | ⟨-, -, he⟩ <;> rw [he]
    · exact ⟨rfl, rfl⟩
    · exact ⟨rfl, rfl⟩
    · exact ⟨rfl, rfl⟩
    · exact hframe (decoderFrame_walk _ s).sameTree
  | decEoi =>
    rw [rule]
    rcases endOfInput_cases s with he | he <;> rw [he] <;> exact ⟨rfl, rfl⟩
  | nop | readFreq _ | readNode _ _ | genCodes | readCodeLen _ | readCodeWord _ _ => exact ⟨rfl, rfl⟩

theorem rule_readNode_withNode {m : Vector NodeEntry 256} {s : State} (ha : AgreesOn m s) (n : NodeId) (sel : BitVec 2) :
    rule (.readNode n sel) (withNode m s) = withNode m (rule (.readNode n sel) s) := by
  rw [rule, rule, nodeWord_withNode ha]
  rfl

/-- A command's own rule, BUILD_TREE's apart, reads NODE at the nodes present only. -/
theorem rule_withNode {m : Vector NodeEntry 256} {s : State} (hi : Inv s) (h : TreeInv s) (ha : AgreesOn m s) {i : Instr}
    (hb : i ≠ .buildTree) (hl : legality i s = .ok) : rule i (withNode m s) = withNode m (rule i s) := by
  cases i with
  | buildTree => exact absurd rfl hb
  | count b => exact countByte_withNode m b s
  | loadFreq => exact loadHeader_withNode m s
  | readNode n sel => exact rule_readNode_withNode ha n sel
  | genCodes =>
    have hp := legalInTree_ok.1 hl
    exact genCodes_withNode (h.tree (hi.treeValid (by simp [hp]) (by simp [hp]))) ha
  | encByte b => exact encodeByte_withNode m b s
  | encEnd => exact encodeEnd_withNode m s
  | decFeed b =>
    have hp := legalForDecoder_ok.1 hl
    have htree := h.tree_of_decoder hi hp
    refine feedByte_withNode htree ha b fun hd hleaf => ?_
    rcases h.dnode_cases htree (by simpa [hd] using hp) with ⟨hleaf', -⟩ | ⟨-, hn⟩
    · simp [hleaf'] at hleaf
    · exact hn
  | decEoi => exact endOfInput_withNode m s
  | nop | clr | readFreq _ | readCodeLen _ | readCodeWord _ _ => rfl

theorem effect_readNode_withNode {m : Vector NodeEntry 256} {s : State} (ha : AgreesOn m s) (n : NodeId) (sel : BitVec 2) :
    effect (.readNode n sel) (withNode m s) = withNode m (effect (.readNode n sel) s) := by
  have hc : Instr.readNode n sel ≠ .clr := nofun
  rw [effect_eq_command hc, effect_eq_command hc]
  exact command_related (R := fun t u => u = withNode m t) rfl (legality_withNode _ m s) rfl (fun _ _ => rfl)
    fun _ _ => rule_readNode_withNode ha n sel

theorem seenEqual_effect {m : Vector NodeEntry 256} {s : State} (hi : Inv s) (h : TreeInv s) (ha : AgreesOn m s) (i : Instr) :
    SeenEqual (effect i s) (effect i (withNode m s)) := by
  by_cases hc : i = .clr
  · rw [hc, effect_clr, effect_clr]
    refine ⟨rfl, fun k hk => ?_⟩
    rw [mem_internalIds, clear_leaves] at hk
    exact absurd hk.1 (Nat.not_le.2 (Nat.lt_of_le_of_lt hk.2 (by decide)))
  rw [effect_eq_command hc, effect_eq_command hc]
  refine command_related rfl (legality_withNode i m s) (seenEqual_withNode ha) (fun e w => ⟨rfl, ha⟩) fun _ hl => ?_
  by_cases hb : i = .buildTree
  · rw [hb]
    exact seenEqual_buildTree ha
  · rw [rule_withNode hi h ha hb hl]
    obtain ⟨hnode, hleaves⟩ := rule_node_leaves hb hc s
    exact seenEqual_withNode (ha.congr hnode hleaves)

/-- Settles O44: BUILD_TREE reads no NODE entry it has not written, GEN_CODES and DEC_FEED walk through the nodes present only,
READ_NODE answers 0 for the others, and no other command reads NODE. -/
theorem absentNodesUnseen : Obligations.AbsentNodesUnseen := by
  unfold Obligations.AbsentNodesUnseen
  intro s m hm
  have ha : AgreesOn m s := fun k hk => hm k (mem_internalIds.1 hk).1 (mem_internalIds.1 hk).2
  refine ⟨fun n sel t u ht hu => ?_, fun hi h i t u ht hu => ?_⟩
  · rw [exec_next_iff] at ht hu
    rw [← ht, ← hu]
    exact effect_readNode_withNode ha n sel
  · rw [exec_next_iff] at ht hu
    obtain ⟨he, hagree⟩ := seenEqual_effect hi h ha i
    rw [← ht, ← hu]
    exact ⟨he, fun k hk hk' => hagree k (mem_internalIds.2 ⟨hk, hk'⟩)⟩

/-! ## The register space (O18, O19, O20) -/

/-- The register at a word of the map: the one whose offset is that word's (R22, R37). -/
theorem regOfWord_eq_some (k : BitVec 6) (r : Reg) : regOfWord k = some r ↔ k = (regOffset r).extractLsb' 2 6 := by
  cases r <;> revert k <;> decide

theorem wordIndex_toNat (off : Offset) : (off.extractLsb' 2 6).toNat = off.toNat / 4 := by
  have := off.isLt
  rw [BitVec.extractLsb'_toNat, Nat.shiftRight_eq_div_pow]
  omega

/-- The low two bits of an offset do not matter (R71). -/
theorem regAt_eq_some (off : Offset) (r : Reg) : regAt off = some r ↔ off.toNat / 4 = (regOffset r).toNat / 4 := by
  rw [regAt, regOfWord_eq_some, ← BitVec.toNat_inj, wordIndex_toNat, wordIndex_toNat]

theorem regAt_eq_none {off : Offset} (h : 14 ≤ off.toNat / 4) : regAt off = none := by
  cases hr : regAt off with
  | none => rfl
  | some r =>
    have hlt : (regOffset r).toNat / 4 < 14 := by cases r <;> decide
    rw [regAt_eq_some] at hr
    omega

theorem busWord_eq {off : Offset} (r : Reg) (h : off.toNat / 4 = (regOffset r).toNat / 4) (s : State) :
    busWord off s = regWord r s := by
  rw [busWord, (regAt_eq_some off r).2 h]

/-- Fields side by side: the upper one counts in units of the lower one's range. -/
theorem toNat_append_eq_add {n m : Nat} (x : BitVec n) (y : BitVec m) : (x ++ y).toNat = 2 ^ m * x.toNat + y.toNat := by
  rw [BitVec.toNat_append, Nat.shiftLeft_eq, Nat.mul_comm, Nat.two_pow_add_eq_or_of_lt y.isLt]

/-- Settles O19: STATUS is its fields side by side. -/
theorem statusFields : Obligations.StatusFields := by
  unfold Obligations.StatusFields
  intro s off phase hoff hphase
  have hcode : (phaseCode s.phase).toNat = phase := by
    cases hp : s.phase <;> simp [hp] at hphase <;> simp [phaseCode, hphase]
  rw [busWord_eq .status hoff, regWord, statusWord]
  simp only [toNat_append_eq_add, BitVec.toNat_ofBool, hcode, errFlag, outFull, outNonempty, BitVec.toNat_ofNat]
  omega

/-- Settles O20: each word of the map selects its register, whose word is its fields side by side, and the words from 14 on select
none. -/
theorem registerWords : Obligations.RegisterWords := by
  unfold Obligations.RegisterWords
  intro s off code prev hcode hprev
  have hcode : (errCode s.errKind).toNat = code := by
    cases hk : s.errKind <;> simp [hk] at hcode <;> simp [errCode, hcode]
  have hprev : (phaseCode s.prevPhase).toNat = prev := by
    cases hp : s.prevPhase <;> simp [hp] at hprev <;> simp [phaseCode, hprev]
  refine ⟨fun h => ?_, fun h => ?_, fun h => ?_, fun h => ?_, fun h => ?_, fun h => ?_, fun h => ?_, fun h => ?_,
    fun h => ?_, fun h => ?_, fun h => ?_, fun h => ?_, fun h => ?_⟩
  · rw [busWord_eq .id h]; rfl
  · rw [busWord_eq .cmd h]; rfl
  · rw [busWord_eq .arg h]; rfl
  · rw [busWord_eq .result h]; rfl
  · rw [busWord_eq .errCode h, regWord, errCodeWord]
    simp only [toNat_append_eq_add, hcode, hprev, BitVec.toNat_ofNat]
    omega
  · rw [busWord_eq .errCmd h]; rfl
  · rw [busWord_eq .tree h, regWord, treeWord]
    split
    · simp only [toNat_append_eq_add, BitVec.toNat_ofNat]
      omega
    · rfl
  · rw [busWord_eq .writer h, regWord, writerWord]
    simp only [toNat_append_eq_add, BitVec.toNat_ofNat]
    omega
  · rw [busWord_eq .decoder h, regWord, decoderWord]
    simp only [toNat_append_eq_add, BitVec.toNat_ofNat]
    omega
  · rw [busWord_eq .encBits h]; rfl
  · rw [busWord_eq .decBytes h]; rfl
  · rw [busWord_eq .irqEn h, regWord]
    simp only [toNat_append_eq_add, BitVec.toNat_ofNat]
    omega
  · rw [busWord, regAt_eq_none h]

/-- With no command pending the first input takes its step (R73, R74). -/
theorem step_of_input {s : State} {i : Input} {rest : List Input} (hi : s.inputs = i :: rest) (hp : s.pend = none) :
    step s = .next { applyInput i s with inputs := inputsAfter i rest s } := by
  have he : engineReady s = false := by simp [engineReady, hp]
  have hh : hostReady s = true := by simp [hostReady, hi, hp, inputEnabled_none]
  simp [step, anyStep, he, hh, hostStep, hi]

/-- Settles O18: the register an offset selects is one of the three that store, or none of them. -/
theorem writesStoreOrAreIgnored : Obligations.WritesStoreOrAreIgnored := by
  unfold Obligations.WritesStoreOrAreIgnored
  intro s off v rest hi hp
  have hcmd : regAt off = some .cmd ↔ off.toNat / 4 = 1 := regAt_eq_some off .cmd
  have harg : regAt off = some .arg ↔ off.toNat / 4 = 2 := regAt_eq_some off .arg
  have hirq : regAt off = some .irqEn ↔ off.toNat / 4 = 13 := regAt_eq_some off .irqEn
  have hlow : v.extractLsb' 0 3 = BitVec.ofNat 3 (v.toNat % 8) := BitVec.eq_of_toNat_eq (by simp)
  rw [step_of_input hi hp, applyInput, busWrite_eq, inputsAfter, hlow]
  simp only [hcmd, harg, hirq]
  by_cases h1 : off.toNat / 4 = 1
  · simp [h1]
  by_cases h2 : off.toNat / 4 = 2
  · simp [h2]
  by_cases h13 : off.toNat / 4 = 13
  · simp [h13]
  · simp [h1, h2, h13]

/-! ## RESULT (O28) -/

/-- The commands that write RESULT (R26). -/
def writesResult : Instr → Bool
  | .clr | .readFreq _ | .buildTree | .readNode _ _ | .genCodes | .readCodeLen _ | .readCodeWord _ _ => true
  | .nop | .count _ | .loadFreq | .encByte _ | .encEnd | .decFeed _ | .decEoi => false

theorem EncoderFrame.result {s t : State} (h : EncoderFrame s t) : t.result = s.result := by rw [h]

theorem DecoderFrame.result {s t : State} (h : DecoderFrame s t) : t.result = s.result := by rw [h]

/-- The seven others leave RESULT. -/
theorem rule_result {i : Instr} (h : writesResult i = false) (s : State) : (rule i s).result = s.result := by
  cases i with
  | nop => rfl
  | count b =>
    rw [rule, countByte]
    split <;> rfl
  | loadFreq =>
    rw [rule, loadHeader]
    split_ifs <;> rfl
  | encByte b =>
    rw [rule]
    rcases encodeByte_cases b s with he | he <;> rw [he]
    · exact raise_result _ _ s
    · exact (encoderFrame_emitCode _ s _).result
  | encEnd =>
    rw [rule]
    rcases encodeEnd_cases s with he | he <;> rw [he]
    · exact raise_result _ _ s
    · exact (encoderFrame_closeWriter _ s _).result
  | decFeed b =>
    rw [rule]
    rcases feedByte_cases b s with ⟨-, he⟩ | ⟨-, -, he | he⟩ | ⟨-, -, he⟩ <;> rw [he]
    · exact raise_result _ _ s
    · exact (decoderFrame_walk _ s).result
  | decEoi =>
    rw [rule]
    rcases endOfInput_cases s with he | he <;> rw [he]
    exact raise_result _ _ s
  | clr | readFreq _ | buildTree | readNode _ _ | genCodes | readCodeLen _ | readCodeWord _ _ => cases h

/-- Of the seven that write RESULT only BUILD_TREE has a check of its own, and where it fails RESULT stays. -/
theorem rule_result_of_error {i : Instr} (h : writesResult i = true) {s : State} (hp : s.phase ≠ .error)
    (he : (rule i s).phase = .error) : (rule i s).result = s.result := by
  cases i with
  | clr => cases he
  | genCodes => cases he
  | buildTree =>
    rw [rule] at he ⊢
    rcases buildTree_cases s with hb | ⟨hf, hb⟩ <;> rw [hb] at he ⊢
    · exact raise_result _ _ s
    · obtain ⟨e, -, hplant⟩ := plantTree_eq hf
      rw [hplant] at he
      cases he
  | readFreq _ | readNode _ _ | readCodeLen _ | readCodeWord _ _ => exact absurd he hp
  | nop | count _ | loadFreq | encByte _ | encEnd | decFeed _ | decEoi => cases h

/-- Settles O28: the error entry leaves RESULT, and so does a command's own rule when the command is not one of the seven or raises an
error itself. -/
theorem resultWriters : Obligations.ResultWriters := by
  unfold Obligations.ResultWriters
  intro i s t hexec h
  have h : t.phase = .error ∨ writesResult i = false := by
    refine h.imp_right ?_
    rintro (rfl | ⟨b, rfl⟩ | rfl | ⟨b, rfl⟩ | rfl | ⟨b, rfl⟩ | rfl) <;> rfl
  rw [exec_next_iff] at hexec
  subst hexec
  rcases effect_cases i s with ⟨-, -, he⟩ | ⟨hi, he⟩ | ⟨-, -, e, -, he⟩ | ⟨hp, -, -, he⟩ <;> rw [he] at h ⊢
  · rw [hi] at h
    rcases h with h | h <;> cases h
  · exact raise_result _ _ s
  · cases hw : writesResult i with
    | false => exact rule_result hw s
    | true => exact rule_result_of_error hw hp (h.resolve_right (by simp [hw]))

/-! ## Reset (O22, O24) -/

/-- Settles O22: by evaluation of `State.reset`, FREQ entry by entry; with no command pending and no input the step waits. -/
theorem resetValues : Obligations.ResetValues := by
  unfold Obligations.ResetValues
  have hfreq := freqAt_empty State.reset rfl
  refine ⟨rfl, rfl, rfl, rfl, rfl, rfl, rfl, rfl, fun n hn => ?_, hfreq 256, rfl, rfl, rfl, rfl, rfl, rfl, rfl, rfl, rfl, rfl, rfl,
    rfl, rfl, rfl, rfl, rfl, rfl⟩
  rw [hfreq, if_neg (by omega)]

/-- Settles O24: the state after reset has no tree. -/
theorem resetMeetsTheInvariants : Obligations.ResetMeetsTheInvariants :=
  ⟨inv_resetWith rfl, treeInv_of_freq rfl rfl rfl⟩

end Sys2Proof.Machine
end

section
/-! PROOFS. The memory family: the room rule and the hold rule (O6, O10, O11, O12), reads (O16, O17), what commands push (O14, O15)
and which memories they write (O29). -/

namespace Sys2Proof.Machine

open Sys2Proof

/-! ## Decoded words (R103, R111) -/

/-- Everything the decoder checks before it gives a command. -/
theorem decode_ok {w : Word} {i : Instr} (h : decode w = .ok i) :
    ∃ op, opcodeOf (opcField w) = some op ∧ operandField w &&& rzMask (formatOf op) = 0#24 ∧ assemble op w = i ∧
      i.wellFormed = true := by
  unfold decode at h
  split at h
  · cases h
  · rename_i op hop
    split_ifs at h with hrz hwf
    cases h
    exact ⟨op, hop, by simpa using hrz, rfl, hwf⟩

theorem wellFormed_of_decode {w : Word} {i : Instr} (h : decode w = .ok i) : i.wellFormed = true := by
  obtain ⟨_, -, -, -, hwf⟩ := decode_ok h
  exact hwf

/-- No opcode has two OPC values (R104). -/
theorem opcByte_of_opcodeOf {b : Byte} {op : Opcode} (h : opcodeOf b = some op) : b = opcByte op := by
  revert b op
  decide

theorem eq_of_opcField_operandField {w v : Word} (hopc : opcField w = opcField v) (hoperand : operandField w = operandField v) :
    w = v := by
  have hopc := congrArg BitVec.toNat hopc
  have hoperand := congrArg BitVec.toNat hoperand
  simp only [opcField, operandField, BitVec.extractLsb'_toNat, Nat.shiftRight_eq_div_pow] at hopc hoperand
  bv_omega

/-- CLR has one word (R106). -/
theorem decode_clr {w : Word} (h : decode w = .ok .clr) : w = encode .clr := by
  obtain ⟨op, hop, hrz, hasm, -⟩ := decode_ok h
  cases op with
  | clr =>
    refine eq_of_opcField_operandField (opcByte_of_opcodeOf hop) ?_
    have hmask : rzMask (formatOf .clr) = BitVec.allOnes 24 := rfl
    rw [hmask, BitVec.and_allOnes] at hrz
    exact hrz
  | _ => cases hasm

theorem execute_decoded {s : State} {w : Word} {i : Instr} (hp : s.phase ≠ .error) (hd : decode w = .ok i) :
    execute w s = exec i s := by
  rw [execute, if_neg hp, hd]

theorem wordEffect_decoded {s : State} {w : Word} {i : Instr} (hp : s.phase ≠ .error) (hd : decode w = .ok i) :
    wordEffect w s = effect i s := by
  rw [wordEffect, if_neg hp, hd]

/-- The word of CLR clears in every phase, ERROR among them (R111, R131). -/
theorem wordEffect_clr (s : State) : wordEffect (encode .clr) s = clear s := by
  by_cases hp : s.phase = .error
  · rw [wordEffect, if_pos hp, if_pos rfl]
  · have hd : decode (encode .clr) = .ok .clr := by decide
    exact wordEffect_decoded hp hd

/-! ## Which memories a command writes (R87) -/

/-- The commands that write FREQ (R40). -/
def writesFreq : Instr → Bool
  | .clr | .count _ | .loadFreq => true
  | .nop | .readFreq _ | .buildTree | .readNode _ _ | .genCodes | .readCodeLen _ | .readCodeWord _ _ | .encByte _ | .encEnd
  | .decFeed _ | .decEoi => false

/-- The command that writes NODE (R41). -/
def writesNode : Instr → Bool
  | .buildTree => true
  | .nop | .clr | .count _ | .loadFreq | .readFreq _ | .readNode _ _ | .genCodes | .readCodeLen _ | .readCodeWord _ _
  | .encByte _ | .encEnd | .decFeed _ | .decEoi => false

/-- The command that writes CODE (R43). -/
def writesCode : Instr → Bool
  | .genCodes => true
  | .nop | .clr | .count _ | .loadFreq | .readFreq _ | .buildTree | .readNode _ _ | .readCodeLen _ | .readCodeWord _ _
  | .encByte _ | .encEnd | .decFeed _ | .decEoi => false

/-- The commands that write the output FIFO (R49). -/
def writesOut : Instr → Bool
  | .clr | .encByte _ | .encEnd | .decFeed _ => true
  | .nop | .count _ | .loadFreq | .readFreq _ | .buildTree | .readNode _ _ | .genCodes | .readCodeLen _ | .readCodeWord _ _
  | .decEoi => false

theorem writesFreq_iff {i : Instr} : writesFreq i = true ↔ i = .clr ∨ (∃ b, i = .count b) ∨ i = .loadFreq := by
  cases i <;> simp [writesFreq]

theorem writesNode_iff {i : Instr} : writesNode i = true ↔ i = .buildTree := by
  cases i <;> simp [writesNode]

theorem writesCode_iff {i : Instr} : writesCode i = true ↔ i = .genCodes := by
  cases i <;> simp [writesCode]

theorem writesOut_iff {i : Instr} :
    writesOut i = true ↔ i = .clr ∨ (∃ b, i = .encByte b) ∨ i = .encEnd ∨ ∃ b, i = .decFeed b := by
  cases i <;> simp [writesOut]

/-- What a command may change: the memories it writes, the bytes popped under CLR, and the registers of the block; never what the
host or the model owns (R25, R36, R39, R87). -/
structure MemoryFrame (i : Instr) (s t : State) : Prop where
  freq : writesFreq i = false → t.freq = s.freq
  node : writesNode i = false → t.node = s.node
  code : writesCode i = false → t.code = s.code
  out : writesOut i = false → t.out = s.out
  popped : i ≠ .clr → t.popped = s.popped
  arg : t.arg = s.arg
  irqEn : t.irqEn = s.irqEn
  pend : t.pend = s.pend
  cfg : t.cfg = s.cfg
  inputs : t.inputs = s.inputs
  hostReads : t.hostReads = s.hostReads
  freeCount : t.freeCount = s.freeCount

theorem memoryFrame_refl (i : Instr) (s : State) : MemoryFrame i s s := by
  constructor <;> intros <;> rfl

theorem memoryFrame_raise (i : Instr) (e : ErrKind) (w : Word) (s : State) : MemoryFrame i s (raise e w s) :=
  { memoryFrame_refl i s with }

theorem memoryFrame_clear (s : State) : MemoryFrame .clr s (clear s) :=
  { memoryFrame_refl .clr s with
    freq := nofun
    out := nofun
    popped := fun h => absurd rfl h }

theorem memoryFrame_countByte (b : Byte) (s : State) : MemoryFrame (.count b) s (countByte b s) := by
  unfold countByte
  split
  · exact memoryFrame_raise _ _ _ s
  · exact { memoryFrame_refl (.count b) s with freq := nofun }

theorem memoryFrame_loadHeader (s : State) : MemoryFrame .loadFreq s (loadHeader s) := by
  unfold loadHeader
  split_ifs
  · exact memoryFrame_raise _ _ _ s
  · exact memoryFrame_raise _ _ _ s
  · exact { memoryFrame_refl .loadFreq s with freq := nofun }

theorem memoryFrame_buildTree (s : State) : MemoryFrame .buildTree s (buildTree s) := by
  rcases buildTree_cases s with h | ⟨hf, h⟩ <;> rw [h]
  · exact memoryFrame_raise _ _ _ s
  · obtain ⟨e, -, hplant⟩ := plantTree_eq hf
    rw [hplant]
    exact { memoryFrame_refl .buildTree s with node := nofun }

/-- Of the memories the encoder writes the FIFO only (R201 to R204). -/
theorem EncoderFrame.memoryFrame {i : Instr} (hi : writesOut i = true) {s t : State} (h : EncoderFrame s t) :
    MemoryFrame i s t := by
  rw [h]
  exact { memoryFrame_refl i s with out := fun hw => by simp [hi] at hw }

/-- Of the memories the decoder writes the FIFO only (R222). -/
theorem DecoderFrame.memoryFrame {i : Instr} (hi : writesOut i = true) {s t : State} (h : DecoderFrame s t) :
    MemoryFrame i s t := by
  rw [h]
  exact { memoryFrame_refl i s with out := fun hw => by simp [hi] at hw }

theorem memoryFrame_encodeByte (b : Byte) (s : State) : MemoryFrame (.encByte b) s (encodeByte b s) := by
  rcases encodeByte_cases b s with h | h <;> rw [h]
  · exact memoryFrame_raise _ _ _ s
  · exact (encoderFrame_emitCode _ s _).memoryFrame rfl

theorem memoryFrame_encodeEnd (s : State) : MemoryFrame .encEnd s (encodeEnd s) := by
  rcases encodeEnd_cases s with h | h <;> rw [h]
  · exact memoryFrame_raise _ _ _ s
  · exact (encoderFrame_closeWriter _ s _).memoryFrame rfl

theorem memoryFrame_feedByte (b : Byte) (s : State) : MemoryFrame (.decFeed b) s (feedByte b s) := by
  rcases feedByte_cases b s with ⟨-, h⟩ | ⟨-, -, h | h⟩ | ⟨-, -, h⟩ <;> rw [h]
  · exact { memoryFrame_refl (.decFeed b) s with }
  · exact memoryFrame_raise _ _ _ s
  · exact { memoryFrame_refl (.decFeed b) s with }
  · exact (decoderFrame_walk _ s).memoryFrame rfl

theorem memoryFrame_endOfInput (s : State) : MemoryFrame .decEoi s (endOfInput s) := by
  rcases endOfInput_cases s with h | h <;> rw [h]
  · exact memoryFrame_refl _ s
  · exact memoryFrame_raise _ _ _ s

theorem memoryFrame_rule (i : Instr) (s : State) : MemoryFrame i s (rule i s) := by
  cases i with
  | nop => exact memoryFrame_refl _ s
  | clr => exact memoryFrame_clear s
  | count b => exact memoryFrame_countByte b s
  | loadFreq => exact memoryFrame_loadHeader s
  | buildTree => exact memoryFrame_buildTree s
  | genCodes => exact { memoryFrame_refl .genCodes s with code := nofun }
  | encByte b => exact memoryFrame_encodeByte b s
  | encEnd => exact memoryFrame_encodeEnd s
  | decFeed b => exact memoryFrame_feedByte b s
  | decEoi => exact memoryFrame_endOfInput s
  | readFreq _ | readNode _ _ | readCodeLen _ | readCodeWord _ _ => exact { memoryFrame_refl _ s with }

theorem memoryFrame_effect (i : Instr) (s : State) : MemoryFrame i s (effect i s) := by
  rcases effect_cases i s with ⟨-, -, h⟩ | ⟨rfl, h⟩ | ⟨-, -, e, -, h⟩ | ⟨-, -, -, h⟩ <;> rw [h]
  · exact memoryFrame_refl i s
  · exact memoryFrame_clear s
  · exact memoryFrame_raise i e _ s
  · exact memoryFrame_rule i s

/-- Executing any word is within the frame of some command, which is CLR for the word of CLR alone (R106, R111). -/
theorem memoryFrame_wordEffect (w : Word) (s : State) :
    ∃ i, (i = .clr → w = encode .clr) ∧ MemoryFrame i s (wordEffect w s) := by
  rcases wordEffect_cases w s with ⟨-, h⟩ | ⟨hw, h⟩ | ⟨-, e, -, h⟩ | ⟨-, i, hd, h⟩ <;> rw [h]
  · exact ⟨.nop, nofun, memoryFrame_refl _ s⟩
  · exact ⟨.clr, fun _ => hw, memoryFrame_clear s⟩
  · exact ⟨.nop, nofun, memoryFrame_raise _ e w s⟩
  · exact ⟨i, fun hi => decode_clr (hi ▸ hd), memoryFrame_effect i s⟩

/-- Settles O29: every command's own rule is within the command's frame, and so are the error entry and CLR. -/
theorem memoryWriters : Obligations.MemoryWriters := by
  unfold Obligations.MemoryWriters
  intro i s t hexec
  rw [exec_next_iff] at hexec
  subst hexec
  have h := memoryFrame_effect i s
  refine ⟨fun hne => ?_, fun hne => ?_, fun hne => ?_, fun hne => ?_, h.arg, h.irqEn, h.pend, h.cfg, h.inputs, h.hostReads,
    h.freeCount, fun hne => ?_⟩
  · exact writesFreq_iff.1 (by_contra fun hw => hne (h.freq (by simpa using hw)))
  · exact writesNode_iff.1 (by_contra fun hw => hne (h.node (by simpa using hw)))
  · exact writesCode_iff.1 (by_contra fun hw => hne (h.code (by simpa using hw)))
  · exact writesOut_iff.1 (by_contra fun hw => hne (h.out (by simpa using hw)))
  · exact by_contra fun hi => hne (h.popped hi)

/-! ## Which agent moves (R20, R73) -/

theorem step_engine {s : State} (he : engineReady s = true) (hh : hostReady s = false) : step s = engineStep s := by
  simp [step, anyStep, he, hh]

theorem step_race {s : State} (he : engineReady s = true) (hh : hostReady s = true) : step s = race s := by
  simp [step, anyStep, he, hh]

theorem step_host {s : State} (he : engineReady s = false) (hh : hostReady s = true) : step s = .next (hostStep s) := by
  simp [step, anyStep, he, hh]

theorem engineReady_iff {s : State} {w : Word} (hw : s.pend = some w) :
    engineReady s = true ↔ s.out.length + need w s ≤ s.cfg.outDepth := by
  simp [engineReady, hw]

theorem engineStep_pending {s : State} {w : Word} (hw : s.pend = some w) :
    engineStep s = execute w { s with pend := none } := by
  simp only [engineStep, hw]

/-- The two orders of a race (X9). -/
theorem race_cases {s : State} {w : Word} (hw : s.pend = some w) :
    race s = execute w { s with pend := none, freeCount := s.freeCount + 1 }
    ∨ race s = .next (hostStep { s with freeCount := s.freeCount + 1 }) := by
  unfold race
  split
  · exact .inl (engineStep_pending (s := { s with freeCount := s.freeCount + 1 }) hw)
  · exact .inr rfl

theorem hostStep_cons {s : State} {i : Input} {rest : List Input} (hi : s.inputs = i :: rest) :
    hostStep s = { applyInput i s with inputs := inputsAfter i rest s } := by
  simp only [hostStep, hi]

theorem hostReady_cons {s : State} {i : Input} {rest : List Input} (hi : s.inputs = i :: rest) :
    hostReady s = inputEnabled i s.pend := by
  simp only [hostReady, hi]

theorem inputs_of_hostReady {s : State} (h : hostReady s = true) :
    ∃ i rest, s.inputs = i :: rest ∧ inputEnabled i s.pend = true := by
  cases hi : s.inputs with
  | nil => simp [hostReady, hi] at h
  | cons i rest => exact ⟨i, rest, rfl, hostReady_cons hi ▸ h⟩

theorem regAt_outData (off : Offset) : regAt off = some .outData ↔ off.toNat / 4 = 12 := regAt_eq_some off .outData

/-- The hold rule: while a command is pending only reads of OUT_DATA and the reset input move (R73, R270). -/
theorem inputEnabled_some (i : Input) (w : Word) : inputEnabled i (some w) = true ↔
    (∃ off, i = .read off ∧ off.toNat / 4 = 12) ∨ i = .popAll ∨ i = .reset := by
  cases i <;> simp [inputEnabled, regAt_outData]

theorem inputEnabled_outData {off : Offset} (hoff : off.toNat / 4 = 12) (p : Option Word) :
    inputEnabled (.read off) p = true := by
  simp [inputEnabled, (regAt_outData off).2 hoff]

theorem legality_withCommand (i : Instr) (w : Word) (s : State) : legality i (withCommand w s) = legality i s := by
  cases i <;> rfl

theorem pushes_withCommand (i : Instr) (w : Word) (s : State) : pushes i (withCommand w s) = pushes i s := by
  cases i with
  | decFeed b =>
    simp only [pushes, withCommand_phase, withCommand_root, withCommand_dnode,
      leavesReached_congr (withCommand_node w s) (withCommand_root w s)]
  | _ => rfl

/-- What a word needs does not depend on the command pending, nor on the inputs. -/
theorem need_withCommand (v w : Word) (s : State) : need v (withCommand w s) = need v s := by
  simp only [need, withCommand_phase, legality_withCommand, pushes_withCommand]

/-- All 32 bits of a word are pending (R93). -/
theorem withFetchWord_toNat (w : Word) (s : State) : s.withFetchWord 32 w.toNat = withCommand w s := by
  rw [State.withFetchWord, Nat.mod_eq_of_lt w.isLt, BitVec.ofNat_toNat, BitVec.setWidth_eq]

/-- A pending command that fits is executed when no input can move (R82, R111). -/
theorem step_eq_exec {s : State} {w : Word} {i : Instr} (hw : s.pend = some w) (hp : s.phase ≠ .error)
    (hd : decode w = .ok i) (hroom : s.out.length + need w s ≤ s.cfg.outDepth) (hh : hostReady s = false) :
    step s = exec i { s with pend := none } := by
  rw [step_engine ((engineReady_iff hw).2 hroom) hh, engineStep_pending hw]
  exact execute_decoded hp hd

/-- Settles O6: the step is the engine's, which executes a word that decodes as its command; `withFetchWord` places such a word and
leaves no input. -/
theorem stepExecutesThePendingCommand : Obligations.StepExecutesThePendingCommand := by
  unfold Obligations.StepExecutesThePendingCommand
  refine ⟨fun s w i => step_eq_exec, fun s w i hp hd hroom => ?_⟩
  rw [withFetchWord_toNat]
  exact step_eq_exec rfl hp hd ((need_withCommand w w s).symm ▸ hroom) rfl

/-- Settles O10: of the three things a step can be, the engine's leaves the inputs and the words read, the host's is held, and
waiting changes nothing. -/
theorem accessesAreHeldWhilePending : Obligations.AccessesAreHeldWhilePending := by
  unfold Obligations.AccessesAreHeldWhilePending
  intro s t i rest hpend hi hkind hstep
  obtain ⟨w, hw⟩ := Option.ne_none_iff_exists'.1 hpend
  have hheld : hostReady s = false := by
    rw [hostReady_cons hi, hw, ← Bool.not_eq_true, inputEnabled_some]
    rcases hkind with ⟨off, rfl, hoff⟩ | ⟨off, v, rfl⟩
    · simpa using hoff
    · simp
  rcases step_cases hstep with ⟨w, u, -, -, hu, rfl⟩ | ⟨u, hh, -, -⟩ | ⟨-, -, -, rfl⟩
  · obtain ⟨_, -, h⟩ := memoryFrame_wordEffect w { u with pend := none }
    rw [h.inputs, h.hostReads]
    rcases hu with rfl | rfl <;> exact ⟨rfl, rfl⟩
  · simp [hheld] at hh
  · exact ⟨rfl, rfl⟩

/-! ## Reads of OUT_DATA (R35, R81, R113) -/

theorem outDataWord_nil {s : State} (h : s.out = []) : outDataWord s = 0#32 := by simp only [outDataWord, h]

theorem outDataWord_cons {s : State} {b : Byte} {bs : List Byte} (h : s.out = b :: bs) :
    outDataWord s = BitVec.ofNat 32 (256 + b.toNat) := by
  have hb := b.isLt
  refine BitVec.eq_of_toNat_eq ?_
  simp only [outDataWord, h, toNat_append_eq_add, BitVec.toNat_ofNat]
  omega

theorem popOut_nil {s : State} (h : s.out = []) : popOut s = s := by
  cases s
  cases h
  simp [popOut]

theorem popOut_cons {s : State} {b : Byte} {bs : List Byte} (h : s.out = b :: bs) :
    popOut s = { s with out := bs, popped := s.popped ++ [b] } := by
  simp [popOut, h]

theorem busRead_outData {off : Offset} (hoff : off.toNat / 4 = 12) (s : State) : busRead off s = popOut s :=
  if_pos ((regAt_outData off).2 hoff)

theorem busRead_other {off : Offset} (hoff : off.toNat / 4 ≠ 12) (s : State) : busRead off s = s :=
  if_neg (mt (regAt_outData off).1 hoff)

/-- A read of OUT_DATA pops the FIFO and gives the host the word (R81). -/
theorem hostStep_read_outData {s : State} {off : Offset} {rest : List Input} (hi : s.inputs = .read off :: rest)
    (hoff : off.toNat / 4 = 12) :
    hostStep s = { popOut s with inputs := rest, hostReads := s.hostReads ++ [outDataWord s] } := by
  rw [hostStep_cons hi, applyInput, inputsAfter, busRead_outData hoff, busWord_eq .outData hoff]
  rfl

/-- A read of the pop loop does the same, and the loop stays the next input while the FIFO was not empty (R113). -/
theorem hostStep_popAll {s : State} {rest : List Input} (hi : s.inputs = .popAll :: rest) :
    hostStep s = { popOut s with
      inputs := if outNonempty s then s.inputs else rest
      hostReads := s.hostReads ++ [outDataWord s] } := by
  rw [hostStep_cons hi, applyInput, inputsAfter, busRead_outData (off := regOffset .outData) rfl, hi]

/-- Settles O16: the engine cannot move, so the step is the host's pop. -/
theorem outDataReadPops : Obligations.OutDataReadPops := by
  unfold Obligations.OutDataReadPops
  refine ⟨fun s off rest hi he hoff => ?_, fun s rest hi he => ?_⟩
  · have hh : hostReady s = true := (hostReady_cons hi).trans (inputEnabled_outData hoff s.pend)
    rw [step_host he hh, hostStep_read_outData hi hoff]
    refine ⟨fun b bs hout => ?_, fun hout => ?_⟩
    · rw [popOut_cons hout, outDataWord_cons hout]
    · rw [popOut_nil hout, outDataWord_nil hout]
  · have hh : hostReady s = true := hostReady_cons hi
    rw [step_host he hh, hostStep_popAll hi]
    refine ⟨fun b bs hout => ?_, fun hout => ?_⟩
    · rw [popOut_cons hout, outDataWord_cons hout, if_pos (by simp [outNonempty, hout])]
    · rw [popOut_nil hout, outDataWord_nil hout, if_neg (by simp [outNonempty, hout])]

/-- Settles O12: the engine and the host can both move, so the step is one of theirs. -/
theorem outDataReadRacesTheCommand : Obligations.OutDataReadRacesTheCommand := by
  unfold Obligations.OutDataReadRacesTheCommand
  refine ⟨fun s w off rest hw hi hoff hroom => ?_, fun s w rest hw hi hroom => ?_⟩
  · have hh : hostReady s = true := (hostReady_cons hi).trans (inputEnabled_outData hoff s.pend)
    rw [step_race ((engineReady_iff hw).2 hroom) hh, busWord_eq .outData hoff]
    rcases race_cases hw with h | h <;> rw [h]
    · exact .inl rfl
    · rw [hostStep_read_outData (s := { s with freeCount := s.freeCount + 1 }) hi hoff]
      exact .inr rfl
  · have hh : hostReady s = true := hostReady_cons hi
    rw [step_race ((engineReady_iff hw).2 hroom) hh, busWord_eq (off := 0x30#8) .outData rfl]
    rcases race_cases hw with h | h <;> rw [h]
    · exact .inl rfl
    · rw [hostStep_popAll (s := { s with freeCount := s.freeCount + 1 }) hi]
      simp only [outNonempty, decide_eq_true_eq]
      exact .inr rfl

/-- Settles O17: the step is the host's, and a read of another offset than OUT_DATA's only answers. -/
theorem otherReadsHaveNoEffect : Obligations.OtherReadsHaveNoEffect := by
  unfold Obligations.OtherReadsHaveNoEffect
  intro s off rest hi hp hoff
  rw [step_of_input hi hp, applyInput, busRead_other hoff, inputsAfter]

/-- Settles O11: the engine has no step, and while a command is pending the host's is a pop or the reset. -/
theorem commandWaitsForRoom : Obligations.CommandWaitsForRoom := by
  unfold Obligations.CommandWaitsForRoom
  intro s t w hw hfull hstep
  have he : engineReady s = false := by
    rw [← Bool.not_eq_true, engineReady_iff hw]
    omega
  cases hh : hostReady s with
  | false =>
    rcases step_cases hstep with ⟨_, _, -, he', -⟩ | ⟨_, hh', -⟩ | ⟨-, -, -, rfl⟩
    · simp [he] at he'
    · simp [hh] at hh'
    · exact .inl ⟨hw, rfl, Nat.le_refl _⟩
  | true =>
    rw [step_host he hh] at hstep
    cases hstep
    obtain ⟨i, rest, hi, henabled⟩ := inputs_of_hostReady hh
    rw [hw, inputEnabled_some] at henabled
    have htail : s.out.tail.length ≤ s.out.length := (List.tail_suffix s.out).length_le
    rcases henabled with ⟨off, rfl, hoff⟩ | rfl | rfl
    · rw [hostStep_read_outData hi hoff]
      exact .inl ⟨hw, rfl, htail⟩
    · rw [hostStep_popAll hi]
      exact .inl ⟨hw, rfl, htail⟩
    · exact .inr ⟨rest, hi⟩

/-! ## What a command pushes (R80, R82) -/

theorem need_in_error {s : State} (hp : s.phase = .error) (w : Word) : need w s = 0 := if_pos hp

theorem need_rejected {w : Word} {r : Reject} (hd : decode w = .error r) (s : State) : need w s = 0 := by
  rw [need, hd]
  split <;> rfl

theorem need_decoded {s : State} {w : Word} {i : Instr} (hp : s.phase ≠ .error) (hd : decode w = .ok i) :
    need w s = if legality i s = .ok then pushes i s else 0 := by
  rw [need, if_neg hp, hd]

theorem pushes_eq_zero {i : Instr} (h : writesOut i = false) (s : State) : pushes i s = 0 := by
  cases i with
  | clr | encByte _ | encEnd | decFeed _ => cases h
  | nop | count _ | loadFreq | readFreq _ | buildTree | readNode _ _ | genCodes | readCodeLen _ | readCodeWord _ _
  | decEoi => rfl

/-- OUT has grown by `n` bytes at its tail (R80). -/
def Appends (n : Nat) (s t : State) : Prop := ∃ bytes, t.out = s.out ++ bytes ∧ bytes.length = n

theorem appends_zero {s t : State} (h : t.out = s.out) : Appends 0 s t := ⟨[], by rw [h, List.append_nil], rfl⟩

theorem appends_of_prefix {s t : State} {n : Nat} (h : s.out <+: t.out) (hlen : t.out.length = s.out.length + n) :
    Appends n s t := by
  obtain ⟨bytes, hb⟩ := h
  refine ⟨bytes, hb.symm, ?_⟩
  rw [← hb, List.length_append] at hlen
  omega

theorem encodeByte_prefix (b : Byte) (s : State) : s.out <+: (encodeByte b s).out := by
  rcases encodeByte_cases b s with h | h <;> rw [h]
  · exact List.prefix_rfl
  · exact emitBits_prefix _ s

theorem encodeEnd_prefix (s : State) : s.out <+: (encodeEnd s).out := by
  rcases encodeEnd_cases s with h | h <;> rw [h]
  · exact List.prefix_rfl
  · exact (emitBits_prefix (codeBits (codeAt s 256)) s).trans (closeWriter_prefix (emitCode (codeAt s 256) s))

theorem feedByte_prefix (b : Byte) (s : State) : s.out <+: (feedByte b s).out := by
  rcases feedByte_cases b s with ⟨-, h⟩ | ⟨-, -, h | h⟩ | ⟨-, -, h⟩
  · simp [h]
  · simp [h]
  · simp [h]
  · rw [h]
    exact feedBits_prefix (byteBits b) { s with phase := .decoding }

/-- A command's own rule, CLR's apart, appends what the command pushes (R205, R226). -/
theorem appends_rule {i : Instr} (hi : i ≠ .clr) (s : State) : Appends (pushes i s) s (rule i s) := by
  cases hw : writesOut i with
  | false =>
    rw [pushes_eq_zero hw]
    exact appends_zero ((memoryFrame_rule i s).out hw)
  | true =>
    rcases writesOut_iff.1 hw with rfl | ⟨b, rfl⟩ | rfl | ⟨b, rfl⟩
    · exact absurd rfl hi
    · exact appends_of_prefix (encodeByte_prefix b s) (encodeByte_out_length b s)
    · exact appends_of_prefix (encodeEnd_prefix s) (encodeEnd_out_length s)
    · exact appends_of_prefix (feedByte_prefix b s) (feedByte_out_length b s)

/-- Executing any word but that of CLR appends what the word needs, which is nothing where it has no effect or raises an error
before its own rule (R82). -/
theorem appends_wordEffect {w : Word} (hw : w ≠ encode .clr) (s : State) : Appends (need w s) s (wordEffect w s) := by
  by_cases hp : s.phase = .error
  · rw [need_in_error hp, wordEffect, if_pos hp, if_neg hw]
    exact appends_zero rfl
  cases hd : decode w with
  | error r =>
    rw [need_rejected hd, wordEffect, if_neg hp, hd]
    exact appends_zero rfl
  | ok i =>
    have hi : i ≠ .clr := fun hi => hw (decode_clr (hi ▸ hd))
    have hwf := wellFormed_of_decode hd
    rw [need_decoded hp hd, wordEffect_decoded hp hd, effect_eq_command hi]
    cases hl : legality i s with
    | ok =>
      rw [command_ok hp hwf hl, if_pos rfl]
      exact appends_rule hi s
    | seq =>
      rw [command_seq hp hwf hl, if_neg nofun]
      exact appends_zero rfl
    | wac =>
      rw [command_wac hp hwf hl, if_neg nofun]
      exact appends_zero rfl

/-! ## The bytes pushed since the last CLR or reset (R291) -/

theorem streamed_wordEffect {w : Word} (hw : w ≠ encode .clr) (s : State) :
    ∃ bytes, streamed (wordEffect w s) = streamed s ++ bytes ∧ bytes.length = need w s := by
  obtain ⟨bytes, hout, hlen⟩ := appends_wordEffect hw s
  obtain ⟨i, hi, hframe⟩ := memoryFrame_wordEffect w s
  exact ⟨bytes, by rw [streamed, streamed, hframe.popped (mt hi hw), hout, List.append_assoc], hlen⟩

theorem streamed_busRead (off : Offset) (s : State) : streamed (busRead off s) = streamed s := by
  unfold busRead
  split
  · exact streamed_popOut s
  · rfl

/-- No bus access adds a byte or loses one. -/
theorem streamed_applyInput {i : Input} (hi : i ≠ .reset) (s : State) : streamed (applyInput i s) = streamed s := by
  cases i with
  | read off => exact streamed_busRead off s
  | write off v =>
    rw [applyInput, busWrite_eq]
    rfl
  | popAll => exact streamed_busRead _ s
  | reset => exact absurd rfl hi

theorem streamed_hostStep (s : State) :
    streamed (hostStep s) = streamed s ∨ (streamed (hostStep s) = [] ∧ ∃ rest, s.inputs = .reset :: rest) := by
  cases hi : s.inputs with
  | nil => exact .inl (by simp only [hostStep, hi])
  | cons i rest =>
    rw [hostStep_cons hi]
    by_cases hr : i = .reset
    · subst hr
      exact .inr ⟨rfl, rest, rfl⟩
    · exact .inl (streamed_applyInput hr s)

/-- Settles O14: a word appends what it needs, whoever of the two agents moves the bytes popped and those in the FIFO stay in order,
and only CLR and the reset start again. -/
theorem commandsPushTheirNeed : Obligations.CommandsPushTheirNeed := by
  unfold Obligations.CommandsPushTheirNeed
  refine ⟨fun s t w hexec hw => ?_, fun s t hstep => ?_⟩
  · rw [execute_eq_next] at hexec
    cases hexec
    exact appends_wordEffect hw s
  · rcases step_cases hstep with ⟨w, u, hpend, -, hu, rfl⟩ | ⟨u, -, hu, rfl⟩ | ⟨-, -, -, rfl⟩
    · obtain ⟨n, rfl⟩ : ∃ n, u = { s with freeCount := n } := hu.elim (⟨s.freeCount, ·⟩) (⟨_, ·⟩)
      by_cases hw : w = encode .clr
      · subst hw
        rw [wordEffect_clr]
        exact .inr ⟨rfl, .inl hpend⟩
      · obtain ⟨bytes, hs, hlen⟩ := streamed_wordEffect hw { s with freeCount := n, pend := none }
        exact .inl ⟨bytes, hs, .inr ⟨w, hpend, hlen.trans (need_congr w s n none)⟩⟩
    · have hsame : streamed u = streamed s ∧ u.inputs = s.inputs := by rcases hu with rfl | rfl <;> exact ⟨rfl, rfl⟩
      obtain ⟨hstreamed, hinputs⟩ := hsame
      rcases streamed_hostStep u with h | ⟨h, hreset⟩
      · exact .inl ⟨[], by rw [h, hstreamed, List.append_nil], .inl rfl⟩
      · exact .inr ⟨h, .inr (hinputs ▸ hreset)⟩
    · exact .inl ⟨[], (List.append_nil _).symm, .inl rfl⟩

/-! ## The bound on `need` (R83, R205, R226) -/

theorem Inv.code_len_le {s : State} (h : Inv s) (hc : s.codesValid = true) {n : Nat} (hn : n ≤ 256) :
    (codeAt s n).len.toNat ≤ 256 := by
  have hcanonical := ((memory_wf_iff s).1 h.memory).2 hc n hn
  simp only [codeCanonical, Bool.and_eq_true, decide_eq_true_eq] at hcanonical
  exact hcanonical.1

/-- A code of at most 256 bits and seven pending ones push at most 32 bytes, the padding one more, and a byte decoded at most
eight. -/
theorem pushes_le {s : State} {i : Instr} (hl : legality i s = .ok)
    (hlen : s.phase = .codes ∨ s.phase = .encoding → ∀ n ≤ 256, (codeAt s n).len.toNat ≤ 256) : pushes i s ≤ 33 := by
  have hwcnt := s.wcnt.isLt
  cases hw : writesOut i with
  | false =>
    rw [pushes_eq_zero hw]
    omega
  | true =>
    rcases writesOut_iff.1 hw with rfl | ⟨b, rfl⟩ | rfl | ⟨b, rfl⟩
    · exact Nat.zero_le _
    · have hcode := hlen (legalForEncoder_ok.1 hl) b.toNat (by have := b.isLt; omega)
      rw [pushes]
      split <;> omega
    · have hcode := hlen (legalForEncoder_ok.1 hl) 256 (Nat.le_refl _)
      rw [pushes]
      split <;> omega
    · have hleaves := leavesReached_le s (byteBits b) s.dnode
      rw [byteBits_length] at hleaves
      rw [pushes]
      split_ifs <;> omega

theorem need_le {s : State} (hlen : s.phase = .codes ∨ s.phase = .encoding → ∀ n ≤ 256, (codeAt s n).len.toNat ≤ 256)
    (w : Word) : need w s ≤ 33 := by
  by_cases hp : s.phase = .error
  · rw [need_in_error hp]
    omega
  cases hd : decode w with
  | error r =>
    rw [need_rejected hd]
    omega
  | ok i =>
    rw [need_decoded hp hd]
    split
    · exact pushes_le ‹_› hlen
    · omega

/-- Settles O15: where the encoder's commands are legal there are codes, which the invariant keeps canonical. -/
theorem needIsAtMost33 : Obligations.NeedIsAtMost33 := by
  unfold Obligations.NeedIsAtMost33
  intro s w h
  have hneed : need w s ≤ 33 := by
    refine need_le (fun hp n hn => ?_) w
    rcases h with hinv | hlen
    · exact hinv.code_len_le (hinv.with_codes (hp.imp_right .inl)) hn
    · exact hlen n hn
  refine ⟨hneed, fun hcfg hw hout => (engineReady_iff hw).2 ?_⟩
  simp only [Config.ok, Bool.and_eq_true, decide_eq_true_eq] at hcfg
  rw [hout, List.length_nil]
  omega

end Sys2Proof.Machine
end

section
/-! PROOFS. The encoding family: the decoder and the encoder are inverse (O1, O2, O3), which words are commands (O4, O5), and the error
entry of a word that is no command (O7) or out of its phase (O30). -/

namespace Sys2Proof.Machine

open Sys2Proof Sys2Proof.Laws

/-- Settles O1: the fourteen words are constants, which the decoder computes. -/
theorem writtenWordsDecode : Obligations.WrittenWordsDecode := by
  unfold Obligations.WrittenWordsDecode
  decide

/-! ## The operand of a word as numbers (R100, R101)

The upper eight and the lower sixteen bits of OPERAND hold one field each, at their low end, or none. -/

/-- The width of the field in `w[23:16]`: WSEL, SEL or none (R101). -/
def upperWidth : Format → Nat
  | .N | .B | .S => 0
  | .SW => 3
  | .NS => 2

/-- The width of the field in `w[15:0]`: BYTE, SYM, NODE or none (R101). -/
def lowerWidth : Format → Nat
  | .N => 0
  | .B => 8
  | .S | .SW => 9
  | .NS => 10

/-- The largest legal value of the field in `w[23:16]` (R103). -/
def upperMax : Format → Nat
  | .N | .B | .S => 0
  | .SW => 7
  | .NS => 2

/-- The largest legal value of the field in `w[15:0]` (R103). -/
def lowerMax : Format → Nat
  | .N => 0
  | .B => 255
  | .S | .SW => 256
  | .NS => 512

/-- The field of a command that its word holds in `w[23:16]` (R101). -/
def upperValue : Instr → Nat
  | .readCodeWord _ k => k.toNat
  | .readNode _ sel => sel.toNat
  | .nop | .clr | .count _ | .loadFreq | .readFreq _ | .buildTree | .genCodes | .readCodeLen _ | .encByte _ | .encEnd
  | .decFeed _ | .decEoi => 0

/-- The field of a command that its word holds in `w[15:0]` (R101). -/
def lowerValue : Instr → Nat
  | .count b | .encByte b | .decFeed b => b.toNat
  | .readFreq s | .readCodeLen s | .readCodeWord s _ => s.toNat
  | .readNode n _ => n.toNat
  | .nop | .clr | .loadFreq | .buildTree | .genCodes | .encEnd | .decEoi => 0

theorem opcField_toNat (w : Word) : (opcField w).toNat = w.toNat / 2 ^ 24 := by
  rw [opcField, BitVec.extractLsb'_toNat, Nat.shiftRight_eq_div_pow]
  omega

theorem operandField_toNat (w : Word) : (operandField w).toNat = w.toNat % 2 ^ 24 := by
  rw [operandField, BitVec.extractLsb'_toNat, Nat.shiftRight_zero]

theorem byteField_toNat (w : Word) : (byteField w).toNat = (operandField w).toNat % 2 ^ 16 % 2 ^ 8 := by
  rw [operandField_toNat, byteField, BitVec.extractLsb'_toNat, Nat.shiftRight_zero]
  omega

theorem symField_toNat (w : Word) : (symField w).toNat = (operandField w).toNat % 2 ^ 16 % 2 ^ 9 := by
  rw [operandField_toNat, symField, BitVec.extractLsb'_toNat, Nat.shiftRight_zero]
  omega

theorem nodeField_toNat (w : Word) : (nodeField w).toNat = (operandField w).toNat % 2 ^ 16 % 2 ^ 10 := by
  rw [operandField_toNat, nodeField, BitVec.extractLsb'_toNat, Nat.shiftRight_zero]
  omega

theorem wselField_toNat (w : Word) : (wselField w).toNat = (operandField w).toNat / 2 ^ 16 % 2 ^ 3 := by
  rw [operandField_toNat, wselField, BitVec.extractLsb'_toNat, Nat.shiftRight_eq_div_pow]
  omega

theorem selField_toNat (w : Word) : (selField w).toNat = (operandField w).toNat / 2 ^ 16 % 2 ^ 2 := by
  rw [operandField_toNat, selField, BitVec.extractLsb'_toNat, Nat.shiftRight_eq_div_pow]
  omega

/-! ## Operand assembly (R102) -/

theorem opcodeName_assemble (op : Opcode) (w : Word) : opcodeName (assemble op w) = op := by
  cases op <;> rfl

theorem upperValue_assemble (op : Opcode) (w : Word) :
    upperValue (assemble op w) = (operandField w).toNat / 2 ^ 16 % 2 ^ upperWidth (formatOf op) := by
  cases op with
  | readCodeWord => exact wselField_toNat w
  | readNode => exact selField_toNat w
  | _ => exact (Nat.mod_one _).symm

theorem lowerValue_assemble (op : Opcode) (w : Word) :
    lowerValue (assemble op w) = (operandField w).toNat % 2 ^ 16 % 2 ^ lowerWidth (formatOf op) := by
  cases op with
  | count | encByte | decFeed => exact byteField_toNat w
  | readFreq | readCodeLen | readCodeWord => exact symField_toNat w
  | readNode => exact nodeField_toNat w
  | nop | clr | loadFreq | buildTree | genCodes | encEnd | decEoi => exact (Nat.mod_one _).symm

/-! ## The reserved operand bits (R106) -/

/-- A number has no bit set from position `n` on exactly when it is below `2 ^ n`. -/
theorem and_allOnes_shiftLeft_eq_zero {m : Nat} (x : BitVec m) (n : Nat) :
    x &&& BitVec.allOnes m <<< n = 0#m ↔ x.toNat < 2 ^ n := by
  have hle : x.toNat / 2 ^ n * 2 ^ n < 2 ^ m := (Nat.div_mul_le_self _ _).trans_lt x.isLt
  rw [← BitVec.shiftLeft_ushiftRight, ← BitVec.toNat_inj, BitVec.toNat_shiftLeft, BitVec.toNat_ushiftRight,
    Nat.shiftRight_eq_div_pow, Nat.shiftLeft_eq, Nat.mod_eq_of_lt hle, BitVec.toNat_zero, Nat.mul_eq_zero,
    Nat.div_eq_zero_iff]
  have hpos := Nat.two_pow_pos n
  omega

/-- The reserved bits are those above the two fields (R101). -/
theorem rzMask_eq (f : Format) :
    rzMask f = BitVec.allOnes 8 <<< upperWidth f ++ BitVec.allOnes 16 <<< lowerWidth f := by
  cases f <;> rfl

/-- The reserved bits of an operand are 0 exactly when its two halves fit the widths of their fields. -/
theorem and_rzMask_eq_zero (x : BitVec 24) (f : Format) : x &&& rzMask f = 0#24 ↔
    x.toNat / 2 ^ 16 < 2 ^ upperWidth f ∧ x.toNat % 2 ^ 16 < 2 ^ lowerWidth f := by
  have hsplit : x = x.extractLsb' 16 8 ++ x.extractLsb' 0 16 :=
    ((BitVec.extractLsb'_append_extractLsb'_eq_extractLsb' (len₁ := 16) rfl).trans BitVec.extractLsb'_eq_self).symm
  have hupper : (x.extractLsb' 16 8).toNat = x.toNat / 2 ^ 16 := by
    rw [BitVec.extractLsb'_toNat, Nat.shiftRight_eq_div_pow]
    omega
  have hlower : (x.extractLsb' 0 16).toNat = x.toNat % 2 ^ 16 := by
    rw [BitVec.extractLsb'_toNat, Nat.shiftRight_zero]
  have happend (a : BitVec 8) (b : BitVec 16) : a ++ b = 0#24 ↔ a = 0#8 ∧ b = 0#16 := by
    simp only [← BitVec.toNat_inj, toNat_append_eq_add, BitVec.toNat_zero]
    omega
  rw [rzMask_eq, ← hupper, ← hlower]
  conv_lhs => rw [hsplit]
  rw [BitVec.and_append, happend, and_allOnes_shiftLeft_eq_zero, and_allOnes_shiftLeft_eq_zero]

/-! ## Decoding what is encoded (R104, R106) -/

theorem opcodeOf_eq_some {b : Byte} {op : Opcode} : opcodeOf b = some op ↔ b = opcByte op :=
  ⟨opcByte_of_opcodeOf, fun h => h ▸ opcodeOf_opcByte op⟩

/-- What the decoder does behind a defined opcode (R111). -/
theorem decode_of_opcode {w : Word} {op : Opcode} (hop : opcodeOf (opcField w) = some op) :
    decode w = if operandField w &&& rzMask (formatOf op) ≠ 0#24 then .error .reservedBits
      else if (assemble op w).wellFormed then .ok (assemble op w) else .error .fieldRange := by
  rw [decode, hop]

theorem decode_eq_ok {w : Word} {op : Opcode} (hop : opcodeOf (opcField w) = some op)
    (hrz : operandField w &&& rzMask (formatOf op) = 0#24) (hwf : (assemble op w).wellFormed = true) :
    decode w = .ok (assemble op w) := by
  rw [decode_of_opcode hop, if_neg (not_not.2 hrz), if_pos hwf]

/-- The laws of the commands' words, each proved constructor by constructor, hold of every command (R104, R106). -/
theorem opcodeByte_and_reservedZero : ∀ i : Instr, OpcodeByte.Statement i ∧ ReservedZero.Statement i
  | .nop => ⟨OpcodeByte.nop, ReservedZero.nop⟩
  | .clr => ⟨OpcodeByte.clr, ReservedZero.clr⟩
  | .count b => ⟨OpcodeByte.count b, ReservedZero.count b⟩
  | .loadFreq => ⟨OpcodeByte.loadFreq, ReservedZero.loadFreq⟩
  | .readFreq s => ⟨OpcodeByte.readFreq s, ReservedZero.readFreq s⟩
  | .buildTree => ⟨OpcodeByte.buildTree, ReservedZero.buildTree⟩
  | .readNode n sel => ⟨OpcodeByte.readNode n sel, ReservedZero.readNode n sel⟩
  | .genCodes => ⟨OpcodeByte.genCodes, ReservedZero.genCodes⟩
  | .readCodeLen s => ⟨OpcodeByte.readCodeLen s, ReservedZero.readCodeLen s⟩
  | .readCodeWord s k => ⟨OpcodeByte.readCodeWord s k, ReservedZero.readCodeWord s k⟩
  | .encByte b => ⟨OpcodeByte.encByte b, ReservedZero.encByte b⟩
  | .encEnd => ⟨OpcodeByte.encEnd, ReservedZero.encEnd⟩
  | .decFeed b => ⟨OpcodeByte.decFeed b, ReservedZero.decFeed b⟩
  | .decEoi => ⟨OpcodeByte.decEoi, ReservedZero.decEoi⟩

theorem byteField_append (x : BitVec 24) (b : Byte) : byteField (x ++ b) = b := BitVec.extractLsb'_append_eq_right

theorem symField_append (x : BitVec 23) (s : Sym) : symField (x ++ s) = s := BitVec.extractLsb'_append_eq_right

theorem nodeField_append (x : BitVec 22) (n : NodeId) : nodeField (x ++ n) = n := BitVec.extractLsb'_append_eq_right

theorem wselField_append (x : BitVec 13) (k : BitVec 3) (y : BitVec 7) (s : Sym) : wselField (x ++ k ++ y ++ s) = k := by
  rw [wselField, BitVec.extractLsb'_append_eq_of_le (by decide), BitVec.extractLsb'_append_eq_of_le (by decide)]
  exact BitVec.extractLsb'_append_eq_right

theorem selField_append (x : BitVec 14) (sel : BitVec 2) (y : BitVec 6) (n : NodeId) :
    selField (x ++ sel ++ y ++ n) = sel := by
  rw [selField, BitVec.extractLsb'_append_eq_of_le (by decide), BitVec.extractLsb'_append_eq_of_le (by decide)]
  exact BitVec.extractLsb'_append_eq_right

/-- Operand assembly takes every field from where the encoder put it (R101, R102). -/
theorem assemble_encode (i : Instr) : assemble (opcodeName i) (encode i) = i := by
  cases i with
  | count b => exact congrArg Instr.count (byteField_append _ b)
  | encByte b => exact congrArg Instr.encByte (byteField_append _ b)
  | decFeed b => exact congrArg Instr.decFeed (byteField_append _ b)
  | readFreq s => exact congrArg Instr.readFreq (symField_append _ s)
  | readCodeLen s => exact congrArg Instr.readCodeLen (symField_append _ s)
  | readCodeWord s k => exact congrArg₂ Instr.readCodeWord (symField_append _ s) (wselField_append _ k _ s)
  | readNode n sel => exact congrArg₂ Instr.readNode (nodeField_append _ n) (selField_append _ sel _ n)
  | nop | clr | loadFreq | buildTree | genCodes | encEnd | decEoi => rfl

/-- Settles O2: the opcode map gives the opcode back, the reserved bits are 0, and operand assembly gives the fields back. -/
theorem decodeUndoesEncode : Obligations.DecodeUndoesEncode := by
  unfold Obligations.DecodeUndoesEncode
  intro i hwf
  obtain ⟨⟨-, hop⟩, hrz⟩ := opcodeByte_and_reservedZero i
  have hasm := assemble_encode i
  rw [decode_eq_ok hop hrz (hasm.symm ▸ hwf), hasm]

/-- The word of a command: OPC and the two fields (R101, R104). -/
theorem encode_toNat (i : Instr) :
    (encode i).toNat = 2 ^ 24 * (opcByte (opcodeName i)).toNat + 2 ^ 16 * upperValue i + lowerValue i := by
  cases i with
  | nop | clr | loadFreq | buildTree | genCodes | encEnd | decEoi => rfl
  | count b | encByte b | decFeed b | readFreq s | readCodeLen s | readCodeWord s k | readNode n sel =>
    simp only [encode, toNat_append_eq_add, BitVec.toNat_ofNat, opcodeName, opcByte, upperValue, lowerValue]
    omega

/-- A word with the opcode's OPC and no reserved bit set is the word of the command it assembles to (R106). -/
theorem encode_assemble {w : Word} {op : Opcode} (hop : opcField w = opcByte op)
    (hrz : operandField w &&& rzMask (formatOf op) = 0#24) : encode (assemble op w) = w := by
  obtain ⟨hupper, hlower⟩ := (and_rzMask_eq_zero _ _).1 hrz
  refine BitVec.eq_of_toNat_eq ?_
  rw [encode_toNat, opcodeName_assemble, upperValue_assemble, lowerValue_assemble, Nat.mod_eq_of_lt hupper,
    Nat.mod_eq_of_lt hlower, ← hop, opcField_toNat, operandField_toNat]
  omega

/-- Settles O3: the decoder has checked the opcode, the reserved bits and the ranges. -/
theorem oneLegalWordPerCommand : Obligations.OneLegalWordPerCommand := by
  unfold Obligations.OneLegalWordPerCommand
  intro w i h
  obtain ⟨op, hop, hrz, rfl, hwf⟩ := decode_ok h
  exact ⟨hwf, encode_assemble (opcByte_of_opcodeOf hop) hrz⟩

/-! ## Which words are commands (R103, R104, R105) -/

/-- The fourteen opcodes, in the order of the map (R104). -/
def allOpcodes : List Opcode :=
  [.nop, .clr, .count, .loadFreq, .readFreq, .buildTree, .readNode, .genCodes, .readCodeLen, .readCodeWord, .encByte, .encEnd,
    .decFeed, .decEoi]

theorem mem_allOpcodes (op : Opcode) : op ∈ allOpcodes := by cases op <;> decide

/-- The OPC value of a word is an opcode's. -/
theorem opcField_eq_opcByte {w : Word} {op : Opcode} : opcField w = opcByte op ↔ (opcByte op).toNat = w.toNat / 2 ^ 24 := by
  rw [← BitVec.toNat_inj, opcField_toNat, eq_comm]

theorem decode_illegalOpcode {w : Word} : decode w = .error .illegalOpcode ↔ opcodeOf (opcField w) = none := by
  cases hop : opcodeOf (opcField w) with
  | none => simp [decode, hop]
  | some op =>
    rw [decode_of_opcode hop]
    split_ifs <;> simp

/-- Settles O4: the opcode map has an opcode for the OPC values in the list and for no other. -/
theorem undefinedOpcodesRejected : Obligations.UndefinedOpcodesRejected := by
  unfold Obligations.UndefinedOpcodesRejected
  intro w
  change _ ↔ w.toNat / 2 ^ 24 ∉ allOpcodes.map fun op => (opcByte op).toNat
  simp only [decode_illegalOpcode, Option.eq_none_iff_forall_ne_some, ne_eq, opcodeOf_eq_some, opcField_eq_opcByte,
    List.mem_map, mem_allOpcodes, true_and, not_exists]

/-- The fields of a command are in range exactly when neither exceeds its largest legal value (R103). -/
theorem wellFormed_iff (i : Instr) : i.wellFormed = true ↔
    upperValue i ≤ upperMax (formatOf (opcodeName i)) ∧ lowerValue i ≤ lowerMax (formatOf (opcodeName i)) := by
  cases i with
  | nop | clr | loadFreq | buildTree | genCodes | encEnd | decEoi => decide
  | count b | encByte b | decFeed b =>
    have hb := b.isLt
    simp only [Instr.wellFormed, upperValue, lowerValue, opcodeName, formatOf, upperMax, lowerMax, true_iff]
    omega
  | readFreq s | readCodeLen s =>
    simp [Instr.wellFormed, Sym.inRange, upperValue, lowerValue, opcodeName, formatOf, upperMax, lowerMax]
  | readCodeWord s k =>
    have hk := k.isLt
    simp only [Instr.wellFormed, Sym.inRange, upperValue, lowerValue, opcodeName, formatOf, upperMax, lowerMax,
      decide_eq_true_eq]
    omega
  | readNode n sel =>
    simp only [Instr.wellFormed, NodeId.inRange, selInRange, upperValue, lowerValue, opcodeName, formatOf, upperMax,
      lowerMax, Bool.and_eq_true, decide_eq_true_eq]
    exact and_comm

/-- An operand fits its format: neither half exceeds the largest legal value of its field (R103, R106). -/
def Fits (f : Format) (x : Nat) : Prop := x / 2 ^ 16 ≤ upperMax f ∧ x % 2 ^ 16 ≤ lowerMax f

/-- The checks behind the opcode, of the reserved bits and of the ranges, are that the operand fits. -/
theorem fits_iff (op : Opcode) (w : Word) : Fits (formatOf op) (w.toNat % 2 ^ 24) ↔
    operandField w &&& rzMask (formatOf op) = 0#24 ∧ (assemble op w).wellFormed = true := by
  rw [and_rzMask_eq_zero, wellFormed_iff, opcodeName_assemble, upperValue_assemble, lowerValue_assemble, ← operandField_toNat,
    Fits]
  cases formatOf op <;> simp only [upperWidth, lowerWidth, upperMax, lowerMax] <;> omega

theorem decodes_iff (w : Word) :
    (∃ i, decode w = .ok i) ↔ ∃ op, opcField w = opcByte op ∧ Fits (formatOf op) (w.toNat % 2 ^ 24) := by
  constructor
  · rintro ⟨i, h⟩
    obtain ⟨op, hop, hrz, rfl, hwf⟩ := decode_ok h
    exact ⟨op, opcByte_of_opcodeOf hop, (fits_iff op w).2 ⟨hrz, hwf⟩⟩
  · rintro ⟨op, hop, hfits⟩
    obtain ⟨hrz, hwf⟩ := (fits_iff op w).1 hfits
    exact ⟨_, decode_eq_ok (opcodeOf_eq_some.2 hop) hrz hwf⟩

/-- The OPC values of the opcodes of a format (R101, R104). -/
def opcsOf (f : Format) : List Nat := (allOpcodes.filter (formatOf · = f)).map fun op => (opcByte op).toNat

theorem mem_opcsOf {f : Format} {w : Word} :
    w.toNat / 2 ^ 24 ∈ opcsOf f ↔ ∃ op, opcField w = opcByte op ∧ formatOf op = f := by
  simp [opcsOf, mem_allOpcodes, opcField_eq_opcByte, and_comm]

theorem exists_format {p : Format → Prop} : (∃ f, p f) ↔ p .N ∨ p .B ∨ p .S ∨ p .SW ∨ p .NS := by
  constructor
  · rintro ⟨f, h⟩
    cases f <;> simp [h]
  · rintro (h | h | h | h | h) <;> exact ⟨_, h⟩

/-- Settles O5: a word is a command when some format has its OPC value and its operand fits that format. -/
theorem legalWordsByFormat : Obligations.LegalWordsByFormat := by
  unfold Obligations.LegalWordsByFormat
  intro w
  have hformat : (∃ i, decode w = .ok i) ↔ ∃ f, w.toNat / 2 ^ 24 ∈ opcsOf f ∧ Fits f (w.toNat % 2 ^ 24) := by
    simp only [decodes_iff, mem_opcsOf]
    exact ⟨fun ⟨op, hop, hfits⟩ => ⟨_, ⟨op, hop, rfl⟩, hfits⟩, fun ⟨_, ⟨op, hop, rfl⟩, hfits⟩ => ⟨op, hop, hfits⟩⟩
  rw [hformat, exists_format]
  have hlow : w.toNat % 2 ^ 16 = w.toNat % 2 ^ 24 % 2 ^ 16 := by omega
  rw [hlow]
  generalize w.toNat % 2 ^ 24 = x
  refine or_congr (and_congr_right fun _ => ?_) (or_congr (and_congr_right fun _ => ?_) (or_congr (and_congr_right fun _ => ?_)
    (or_congr (and_congr List.mem_singleton .rfl) (and_congr List.mem_singleton .rfl))))
  all_goals
    simp only [Fits, upperMax, lowerMax]
    omega

/-! ## The error entry of a word that is no command (R111, R245) -/

theorem execute_rejected {s : State} {w : Word} {r : Reject} (hp : s.phase ≠ .error) (hd : decode w = .error r) :
    execute w s = .next (raise (rejectError r) w s) := by
  rw [execute, if_neg hp, hd]

/-- A word that is no command needs no room, so it takes its error entry whenever no input can move (R82, R111). -/
theorem step_rejected {s : State} {w : Word} {r : Reject} (hw : s.pend = some w) (hp : s.phase ≠ .error)
    (hroom : s.out.length ≤ s.cfg.outDepth) (hh : hostReady s = false) (hd : decode w = .error r) :
    step s = .next (raise (rejectError r) w { s with pend := none }) := by
  have he : engineReady s = true := by rwa [engineReady_iff hw, need_rejected hd]
  rw [step_engine he hh, engineStep_pending hw]
  exact execute_rejected hp hd

/-- Settles O7: the step is the error entry of the word's reject, and both rejects of an operand raise BAD_OPERAND. -/
theorem stepRaisesOnWordsThatAreNoCommand : Obligations.StepRaisesOnWordsThatAreNoCommand := by
  unfold Obligations.StepRaisesOnWordsThatAreNoCommand
  intro s w hw hp hroom hh
  refine ⟨step_rejected hw hp hroom hh, ?_⟩
  rintro (hd | hd) <;> exact step_rejected hw hp hroom hh hd

/-! ## The entries SEQ and WAC (R110) -/

theorem legalInFreq_seq {p : Phase} (h : p ≠ .freq) : legalInFreq p = .seq := by
  cases p with
  | freq => exact absurd rfl h
  | _ => rfl

theorem legalInTree_seq {p : Phase} (h : p ≠ .tree) : legalInTree p = .seq := by
  cases p with
  | tree => exact absurd rfl h
  | _ => rfl

theorem legalForEncoder_seq {p : Phase} (h : p ∈ [Phase.freq, .tree, .decoding, .done]) : legalForEncoder p = .seq := by
  revert p
  decide

theorem legalForDecoder_seq {p : Phase} (h : p ∈ [Phase.freq, .encoding, .closed]) : legalForDecoder p = .seq := by
  revert p
  decide

/-- A command whose entry is SEQ raises SEQUENCE; CLR has no such entry (R110, R111). -/
theorem exec_seq {i : Instr} {s : State} (hwf : i.wellFormed = true) (hp : s.phase ≠ .error) (hl : legality i s = .seq) :
    exec i s = .next (raise .sequence (encode i) s) := by
  have hi : i ≠ .clr := by rintro rfl; cases hl
  rw [exec_eq_next, effect_eq_command hi, command_seq hp hwf hl]

/-- A command whose entry is WAC raises WRITE_AFTER_CLOSE; CLR has no such entry (R110, R111). -/
theorem exec_wac {i : Instr} {s : State} (hwf : i.wellFormed = true) (hp : s.phase ≠ .error) (hl : legality i s = .wac) :
    exec i s = .next (raise .writeAfterClose (encode i) s) := by
  have hi : i ≠ .clr := by rintro rfl; cases hl
  rw [exec_eq_next, effect_eq_command hi, command_wac hp hwf hl]

/-- Settles O30: row by row of the legality table, the entry is SEQ, or WAC. -/
theorem phaseTable : Obligations.PhaseTable := by
  unfold Obligations.PhaseTable
  intro i s hwf hp
  refine ⟨fun hrow => exec_seq hwf hp ?_, fun ⟨hi, hclosed⟩ => exec_wac hwf hp ?_⟩
  · rcases hrow with ⟨hi, hphase⟩ | ⟨⟨n, sel, rfl⟩, hphase⟩ | ⟨rfl, hphase⟩ | ⟨hi, hcodes⟩ | ⟨hi, hphase⟩ | ⟨hi, hphase⟩
    · rcases hi with ⟨b, rfl⟩ | rfl | rfl <;> exact legalInFreq_seq hphase
    · rw [legality, hphase, legalAfterBuild]
    · exact legalInTree_seq hphase
    · rcases hi with ⟨n, rfl⟩ | ⟨n, k, rfl⟩ <;> rw [legality, hcodes] <;> rfl
    · rcases hi with ⟨b, rfl⟩ | rfl <;> exact legalForEncoder_seq hphase
    · rcases hi with ⟨b, rfl⟩ | rfl <;> exact legalForDecoder_seq hphase
  · rcases hi with ⟨b, rfl⟩ | rfl <;> rw [legality, hclosed, legalForEncoder]

end Sys2Proof.Machine
end

section
/-! PROOFS. The control family: NOP has no effect (O31), and CLR makes the writes of its rule (O32). -/

namespace Sys2Proof.Machine

open Sys2Proof

/-! ## NOP (R130) -/

/-- The check order in front of NOP raises nothing: NOP has no operand and is legal in every phase (R110, R111). -/
theorem effect_nop (s : State) : effect .nop s = s := by
  rw [effect_eq_command (i := .nop) nofun]
  by_cases hp : s.phase = .error
  · exact command_in_error hp
  · exact command_ok hp rfl rfl

/-- Settles O31: NOP's effect is the state itself. -/
theorem nopHasNoEffect : Obligations.NopHasNoEffect := by
  unfold Obligations.NopHasNoEffect
  intro s
  rw [exec_eq_next, effect_nop]

/-! ## CLR (R131) -/

@[simp] theorem errFlag_clear (s : State) : errFlag (clear s) = false := rfl

@[simp] theorem outNonempty_clear (s : State) : outNonempty (clear s) = false := rfl

/-- An empty FIFO is not full: it has room for at least 33 bytes (R9). -/
theorem outFull_clear {s : State} (hcfg : s.cfg.ok = true) : outFull (clear s) = false := by
  simp only [Config.ok, Bool.and_eq_true, decide_eq_true_eq] at hcfg
  obtain ⟨-, hdepth⟩ := hcfg
  have hfull : (clear s).out.length ≠ (clear s).cfg.outDepth := by
    rw [clear_out, clear_cfg, List.length_nil]
    omega
  exact decide_eq_false hfull

/-- After CLR none of the three interrupt conditions holds, whatever IRQ_EN enables (R250). -/
@[simp] theorem irq_clear (s : State) : irq (clear s) = false := by
  have hend : endFlag (clear s) = false := rfl
  simp [irq, hend]

/-- After CLR every field of STATUS is 0 (R28, R131). -/
theorem statusWord_clear {s : State} (hcfg : s.cfg.ok = true) : statusWord (clear s) = 0#32 := by
  simp only [statusWord, irq_clear, errFlag_clear, outFull_clear hcfg, outNonempty_clear, clear_hdrCnt, clear_trailing,
    clear_codesValid, clear_treeValid, clear_phase]
  decide

/-- Settles O32: CLR's effect is `clear`, which writes the table of an empty input and leaves every field of STATUS 0. -/
theorem clrClears : Obligations.ClrClears := by
  unfold Obligations.ClrClears
  intro s
  have hfreq := freqAt_empty { s with freq := State.emptyFreq } rfl
  refine ⟨State.emptyFreq, exec_eq_next .clr s, fun n hn => ?_, hfreq 256, fun hcfg t ht => ?_⟩
  · rw [hfreq, if_neg (Nat.ne_of_lt hn)]
  · rw [← exec_next_iff.1 ht, effect_clr, statusWord_clear hcfg]

end Sys2Proof.Machine
end

section
/-! PROOFS. The frequency-table family: COUNT one byte (O33) and a sequence of bytes (O34), LOAD_FREQ one value (O35) and a whole
header (O37), and READ_FREQ (O36). -/

namespace Sys2Proof.Machine

open Sys2Proof

/-! ## Running a legal command, and commands in a row -/

/-- What the check order passes is the command's own rule (R111). -/
theorem effect_eq_rule {i : Instr} {s : State} (hi : i ≠ .clr) (hp : s.phase ≠ .error) (hwf : i.wellFormed = true)
    (hl : legality i s = .ok) : effect i s = rule i s := by
  rw [effect_eq_command hi, command_ok hp hwf hl]

theorem execAll_cons (i : Instr) (is : List Instr) (s : State) : execAll (i :: is) s = execAll is (effect i s) := by
  rw [execAll, exec_eq_next]

theorem loadAll_cons (v : Word) (vs : List Word) (s : State) :
    loadAll (v :: vs) s = loadAll vs (effect .loadFreq { s with arg := v }) := by
  rw [loadAll, exec_eq_next]

/-! ## COUNT (R140, R141) -/

theorem effect_count {s : State} (hp : s.phase = .freq) (b : Byte) : effect (.count b) s = countByte b s :=
  effect_eq_rule nofun (by rw [hp]; nofun) rfl (legalInFreq_ok.2 hp)

/-- An entry has at most 32 bits (R6, R40). -/
theorem freqMax_lt {c : Config} (hcfg : c.ok = true) : c.freqMax < 2 ^ 32 := by
  simp only [Config.ok, Bool.and_eq_true, decide_eq_true_eq] at hcfg
  obtain ⟨⟨-, hwidth⟩, -⟩ := hcfg
  have hpow : 2 ^ c.freqWidth ≤ 2 ^ 32 := Nat.pow_le_pow_right (by decide) hwidth
  have hpos : 0 < 2 ^ c.freqWidth := Nat.two_pow_pos _
  rw [Config.freqMax]
  omega

theorem countByte_full {b : Byte} {s : State} (h : (freqAt s b.toNat).toNat = s.cfg.freqMax) :
    countByte b s = raise .freqOverflow (encode (.count b)) s := if_pos h

theorem countByte_below {b : Byte} {s : State} (h : (freqAt s b.toNat).toNat < s.cfg.freqMax) :
    countByte b s = setFreq b.toNat (freqAt s b.toNat + 1#32) s := if_neg (Nat.ne_of_lt h)

/-- Below FREQ_MAX the increment does not wrap: the entry of `b` is one more, every other entry the same (R141). -/
theorem freqAt_countByte {b : Byte} {s : State} (hcfg : s.cfg.ok = true) (h : (freqAt s b.toNat).toNat < s.cfg.freqMax)
    (n : Nat) :
    (freqAt (countByte b s) n).toNat = (freqAt s n).toNat + if n = b.toNat then 1 else 0 := by
  have hmax := freqMax_lt hcfg
  have hbyte : b.toNat ≤ 256 := by have := b.isLt; omega
  rw [countByte_below h, freqAt_setFreq _ _ _ _ hbyte]
  by_cases hn : n = b.toNat
  · rw [if_pos hn, if_pos hn, hn, BitVec.toNat_add_of_lt (show _ + 1 < 2 ^ 32 by omega), BitVec.toNat_ofNat]
  · rw [if_neg hn, if_neg hn, Nat.add_zero]

/-- Settles O33: in phase FREQ the effect is COUNT's rule, which adds below FREQ_MAX and raises at it. -/
theorem countAddsOneOrOverflows : Obligations.CountAddsOneOrOverflows := by
  unfold Obligations.CountAddsOneOrOverflows
  intro s b hp hcfg
  refine ⟨fun hbelow => ⟨(countByte b s).freq, ?_, freqAt_countByte hcfg hbelow⟩, fun hfull => ?_⟩
  · rw [exec_eq_next, effect_count hp, countByte_below hbelow]
    rfl
  · rw [exec_eq_next, effect_count hp, countByte_full hfull, raise, hp]

/-- Settles O34, by induction on the bytes: the first COUNT adds one to its own entry, so the counts of the rest still fit. -/
theorem countsAccumulate : Obligations.CountsAccumulate := by
  unfold Obligations.CountsAccumulate
  intro bytes
  induction bytes with
  | nil => exact fun s _ _ _ => ⟨s.freq, rfl, fun b => rfl, rfl⟩
  | cons a bytes ih =>
    intro s hp hcfg hfits
    have hbelow : (freqAt s a.toNat).toNat < s.cfg.freqMax := by
      have hroom := hfits a
      rw [List.count_cons_self] at hroom
      omega
    obtain ⟨hcount, -⟩ := countAddsOneOrOverflows s a hp hcfg
    obtain ⟨freq, hexec, hfreq⟩ := hcount hbelow
    have hadd (b : Byte) : (freqAt { s with freq := freq } b.toNat).toNat + bytes.count b =
        (freqAt s b.toNat).toNat + (a :: bytes).count b := by
      simp only [hfreq, List.count_cons, beq_iff_eq, BitVec.toNat_inj, eq_comm (a := b)]
      omega
    obtain ⟨freq', hrest, hcounts, hsentinel⟩ := ih { s with freq := freq } hp hcfg fun b => (hadd b).trans_le (hfits b)
    refine ⟨freq', ?_, fun b => (hcounts b).trans (hadd b), hsentinel.trans (BitVec.eq_of_toNat_eq ?_)⟩
    · rw [List.map_cons, execAll_cons, exec_next_iff.1 hexec, hrest]
    · have := a.isLt
      rw [hfreq, if_neg (by omega), Nat.add_zero]

/-! ## LOAD_FREQ (R142, R144) -/

theorem effect_loadFreq {s : State} (hp : s.phase = .freq) : effect .loadFreq s = loadHeader s :=
  effect_eq_rule nofun (by rw [hp]; nofun) rfl (legalInFreq_ok.2 hp)

theorem loadHeader_corrupt {s : State} (h : s.hdrCnt.toNat = 257 ∨ s.cfg.freqMax < s.arg.toNat) :
    loadHeader s = raise .headerCorrupt (encode .loadFreq) s := by
  by_cases hlong : s.hdrCnt.toNat = 257
  · exact if_pos hlong
  · rw [loadHeader, if_neg hlong, if_pos (h.resolve_left hlong)]

theorem loadHeader_loads {s : State} (hcnt : s.hdrCnt.toNat ≤ 256) (harg : s.arg.toNat ≤ s.cfg.freqMax) :
    loadHeader s = { setFreq s.hdrCnt.toNat s.arg s with hdrCnt := s.hdrCnt + 1#9 } := by
  rw [loadHeader, if_neg (by omega), if_neg (by omega)]

/-- Settles O35: in phase FREQ the effect is LOAD_FREQ's rule, which writes one entry of FREQ or raises. -/
theorem loadFreqLoads : Obligations.LoadFreqLoads := by
  unfold Obligations.LoadFreqLoads
  intro s hp
  refine ⟨fun hcnt harg => ⟨(setFreq s.hdrCnt.toNat s.arg s).freq, ?_, fun n => freqAt_setFreq _ n _ s hcnt⟩, fun hbad => ?_⟩
  · rw [exec_eq_next, effect_loadFreq hp, loadHeader_loads hcnt harg]
    rfl
  · rw [exec_eq_next, effect_loadFreq hp, loadHeader_corrupt hbad, raise, hp]
    rfl

/-- Values that fit, loaded one after another, fill the entries from HDR_CNT on and leave those below it (R142). -/
theorem loadAll_fills (vs : List Word) (u : State) (hp : u.phase = .freq) (hlen : u.hdrCnt.toNat + vs.length ≤ 257)
    (hfits : ∀ v ∈ vs, v.toNat ≤ u.cfg.freqMax) :
    ∃ freq arg, loadAll vs u = .next { u with freq := freq, hdrCnt := u.hdrCnt + BitVec.ofNat 9 vs.length, arg := arg }
      ∧ (∀ n < u.hdrCnt.toNat, freqAt { u with freq := freq } n = freqAt u n)
      ∧ ∀ (k : Nat) (hk : k < vs.length), freqAt { u with freq := freq } (u.hdrCnt.toNat + k) = vs[k] := by
  induction vs generalizing u with
  | nil => exact ⟨u.freq, u.arg, by rw [List.length_nil, BitVec.add_zero]; rfl, fun _ _ => rfl, nofun⟩
  | cons v vs ih =>
    rw [List.length_cons] at hlen
    obtain ⟨hload, -⟩ := loadFreqLoads { u with arg := v } hp
    obtain ⟨freq, hexec, hfreq⟩ := hload (show u.hdrCnt.toNat ≤ 256 by omega) (hfits v List.mem_cons_self)
    have hcnt : (u.hdrCnt + 1#9).toNat = u.hdrCnt.toNat + 1 :=
      BitVec.toNat_add_of_lt (show u.hdrCnt.toNat + 1 < 2 ^ 9 by omega)
    obtain ⟨freq', arg, hrest, hbelow, hfrom⟩ :=
      ih { u with freq := freq, hdrCnt := u.hdrCnt + 1#9, arg := v } hp (show (u.hdrCnt + 1#9).toNat + _ ≤ _ by omega)
        fun w hw => hfits w (List.mem_cons_of_mem v hw)
    simp only [hcnt] at hbelow hfrom
    refine ⟨freq', arg, ?_, fun n hn => ?_, fun k hk => ?_⟩
    · rw [loadAll_cons, exec_next_iff.1 hexec, hrest, List.length_cons, Nat.add_comm, BitVec.ofNat_add, ← BitVec.add_assoc]
    · exact (hbelow n (by omega)).trans ((hfreq n).trans (if_neg (Nat.ne_of_lt hn)))
    · cases k with
      | zero => exact (hbelow _ (by omega)).trans ((hfreq _).trans (if_pos rfl))
      | succ k =>
        have hentry := hfrom k (Nat.lt_of_succ_lt_succ hk)
        rwa [Nat.add_assoc, Nat.add_comm 1] at hentry

/-- Two tables with the same 257 entries are one table (R40). -/
theorem freq_ext {s t : State} (h : ∀ n ≤ 256, freqAt s n = freqAt t n) : s.freq = t.freq := by
  ext n hn
  rw [← freqAt_of_le (by omega), ← freqAt_of_le (by omega), h n (by omega)]

theorem headerOf_length (s : State) : (headerOf s).length = 257 := by rw [headerOf, List.length_map, List.length_range]

theorem headerOf_getElem (s : State) (n : Nat) (hn : n < (headerOf s).length) : (headerOf s)[n] = freqAt s n := by
  simp only [headerOf, List.getElem_map, List.getElem_range]

/-- Settles O37: from HDR_CNT 0 the 257 loads fill the whole table, so it is the one the header came from. -/
theorem headerRoundTrip : Obligations.HeaderRoundTrip := by
  unfold Obligations.HeaderRoundTrip
  intro s u hfits hp hcnt
  have hvalues : ∀ v ∈ headerOf s, v.toNat ≤ u.cfg.freqMax := by
    simp only [headerOf, List.mem_map, List.mem_range]
    rintro v ⟨n, hn, rfl⟩
    exact hfits n (by omega)
  obtain ⟨freq, arg, hload, -, hentries⟩ := loadAll_fills (headerOf s) u hp (by rw [hcnt, headerOf_length]; decide) hvalues
  have hsame : freq = s.freq := freq_ext (s := { u with freq := freq }) fun n hn => by
    have hlt : n < (headerOf s).length := by rw [headerOf_length]; omega
    have hentry := hentries n hlt
    rwa [hcnt, BitVec.toNat_ofNat, Nat.zero_mod, Nat.zero_add, headerOf_getElem] at hentry
  exact ⟨arg, by rw [hload, hsame, hcnt, headerOf_length]; rfl⟩

/-! ## READ_FREQ (R143) -/

/-- Settles O36: READ_FREQ is legal in every phase, so outside ERROR only the range of its symbol is checked. -/
theorem readFreqAnswers : Obligations.ReadFreqAnswers := by
  unfold Obligations.ReadFreqAnswers
  intro s sym hp
  refine ⟨fun hsym => ?_, fun hsym => ?_⟩
  · rw [exec_eq_next, effect_eq_rule (i := .readFreq sym) nofun hp (decide_eq_true hsym) rfl, rule]
  · have hwf : (Instr.readFreq sym).wellFormed = false := decide_eq_false (Nat.not_le.2 hsym)
    rw [exec_eq_next, effect_eq_command (i := .readFreq sym) nofun, command_ill_formed hp hwf, raise]

end Sys2Proof.Machine
end

section
/-! PROOFS. The tree-builder family: what BUILD_TREE builds (O39) and by which merges (O40), what it writes (O38), that it depends on
FREQ alone (O41) and refuses a bad header (O42), and READ_NODE (O43). -/

namespace Sys2Proof.Machine

open Sys2Proof

/-! ## BUILD_TREE behind the check order (R161) -/

theorem effect_buildTree {s : State} (hp : s.phase = .freq) : effect .buildTree s = buildTree s :=
  effect_eq_rule nofun (by rw [hp]; nofun) rfl (legalInFreq_ok.2 hp)

/-- The two checks of the header pass: right length, and a sentinel. -/
theorem buildTree_legal {s : State} (hhdr : s.hdrCnt.toNat = 0 ∨ s.hdrCnt.toNat = 257) (hs : freqAt s 256 ≠ 0#32) :
    buildTree s = plantTree s := by
  rw [buildTree, if_neg (not_not_intro hhdr), if_neg hs]

theorem buildTree_corrupt {s : State} (h : (s.hdrCnt.toNat ≠ 0 ∧ s.hdrCnt.toNat ≠ 257) ∨ freqAt s 256 = 0#32) :
    buildTree s = raise .headerCorrupt (encode .buildTree) s := by
  by_cases hhdr : s.hdrCnt.toNat = 0 ∨ s.hdrCnt.toNat = 257
  · rw [buildTree, if_neg (not_not_intro hhdr), if_pos (h.resolve_left fun hne => hhdr.elim hne.1 hne.2)]
  · exact if_pos hhdr

/-- A BUILD_TREE that ends in phase TREE has planted the tree of a table with a sentinel: the other outcome is the error entry. -/
theorem buildTree_succeeded {s t : State} (hp : s.phase = .freq) (ht : exec .buildTree s = .next t) (htree : t.phase = .tree) :
    freqAt s 256 ≠ 0#32 ∧ t = plantTree s := by
  rw [exec_next_iff, effect_buildTree hp] at ht
  subst ht
  rcases buildTree_cases s with herr | hplant
  · rw [herr] at htree
    cases htree
  · exact hplant

/-- Settles O39: the tree BUILD_TREE plants is one, by the invariant `BuildInv` of the merges. -/
theorem buildTreeMakesATree : Obligations.BuildTreeMakesATree := by
  unfold Obligations.BuildTreeMakesATree
  intro s t hp ht htree
  obtain ⟨hs, rfl⟩ := buildTree_succeeded hp ht htree
  exact plantTree_treeOk hs

/-- Settles O42: in phase FREQ the effect is BUILD_TREE's rule, whose checks come before any write. -/
theorem buildTreeHeaderCorrupt : Obligations.BuildTreeHeaderCorrupt := by
  unfold Obligations.BuildTreeHeaderCorrupt
  intro s hp hbad
  rw [exec_eq_next, effect_buildTree hp, buildTree_corrupt hbad, raise, hp]
  rfl

/-! ## What every merge keeps -/

/-- What holds of the queue of leaves, and is kept by the merge of the two first entries of the queue, holds of the builder when
one entry remains (R161). -/
theorem builtFrom_induction {s : State} {P : Builder → Prop} (hleaves : P ⟨leafQueue s, s.node, 257⟩)
    (hmerge : ∀ b e1 e2 q2, BuildInv s b → P b → b.q.Perm (e1 :: e2 :: q2) → (∀ x ∈ b.q, QEntry.before x e1 = false) →
      (∀ x ∈ q2, QEntry.before x e2 = false) → P (joined (leafSyms s).length b e1 e2 q2)) : P (builtFrom s) := by
  have hall : ∀ k b, BuildInv s b → P b → P (mergeAll (leafSyms s).length k b) := by
    intro k
    induction k with
    | zero => exact fun b _ h => h
    | succ k ih =>
      intro b hb h
      refine ih _ hb.mergeOnce ?_
      by_cases hlen : b.q.length < 2
      · rwa [mergeOnce_short _ _ hlen]
      · obtain ⟨e1, q1, e2, q2, h1, h2, hm⟩ := mergeOnce_cases (leafSyms s).length b (Nat.not_lt.1 hlen)
        obtain ⟨hperm1, -, hleast1⟩ := removeMin_spec h1
        obtain ⟨hperm2, -, hleast2⟩ := removeMin_spec h2
        rw [hm]
        exact hmerge b e1 e2 q2 hb h (hperm1.trans (hperm2.cons e1)) hleast1
          fun x hx => hleast2 x (hperm2.mem_iff.2 (List.mem_cons_of_mem e2 hx))
  exact hall _ _ (buildInv_leaves s) hleaves

/-- There is a NODE entry for the next internal node while two entries are in the queue (R163). -/
theorem BuildInv.next_has_entry {s : State} {b : Builder} {e1 e2 : QEntry} {q2 : List QEntry} (h : BuildInv s b)
    (hq : b.q.Perm (e1 :: e2 :: q2)) : b.next ≤ 512 := by
  have hle := h.next_le
  rw [hq.length_eq, List.length_cons, List.length_cons] at hle
  omega

/-! ## The order of the merges (R162) -/

/-- The lexicographic order of nodes by weight, then id. -/
def NotAfter (s : State) (a b : NodeId) : Prop :=
  (weightOf s a).toNat < (weightOf s b).toNat ∨ ((weightOf s a).toNat = (weightOf s b).toNat ∧ a.toNat ≤ b.toNat)

/-- What the removal order has made of the merges so far (R162). -/
structure MergeOrder (s : State) (b : Builder) : Prop where
  /-- Nodes have entered the queue in ascending order of their ids. -/
  seq_id : ∀ x ∈ b.q, ∀ y ∈ b.q, x.seq ≤ y.seq → x.id.toNat ≤ y.id.toNat
  /-- The seq number of the next internal node is new. -/
  seq_lt : ∀ x ∈ b.q, x.seq < (leafSyms s).length + (b.next - 257)
  /-- The nodes removed from the queue were removed in ascending order. -/
  removed : (childIds (builderState s b)).Pairwise (NotAfter (builderState s b))
  /-- None of them comes after a node still in the queue. -/
  ahead : ∀ c ∈ childIds (builderState s b), ∀ e ∈ b.q, NotAfter (builderState s b) c e.id

/-- The seq number of a leaf in the queue is its place among the symbols of nonzero frequency (R162). -/
theorem mem_leafQueue {s : State} {e : QEntry} (h : e ∈ leafQueue s) :
    ∃ hk : e.seq < (leafSyms s).length, e.id.toNat = (leafSyms s)[e.seq] := by
  simp only [leafQueue, List.mem_map] at h
  obtain ⟨⟨n, k⟩, hp, rfl⟩ := h
  obtain ⟨hk, hn⟩ := List.mem_zipIdx' hp
  have hle := (mem_leafSyms.1 (List.fst_mem_of_mem_zipIdx hp)).1
  exact ⟨hk, by rw [BitVec.toNat_ofNat, Nat.mod_eq_of_lt (by omega)]; exact hn⟩

theorem leafSyms_pairwise_le (s : State) : (leafSyms s).Pairwise (· ≤ ·) := List.pairwise_le_range.filter _

/-- The leaves enter in ascending symbol order (R162). -/
theorem mergeOrder_leaves (s : State) : MergeOrder s ⟨leafQueue s, s.node, 257⟩ where
  seq_id := by
    intro x hx y hy hle
    obtain ⟨hxk, hxid⟩ := mem_leafQueue hx
    obtain ⟨hyk, hyid⟩ := mem_leafQueue hy
    rw [hxid, hyid]
    exact (leafSyms_pairwise_le s).rel_get_of_le (a := ⟨x.seq, hxk⟩) (b := ⟨y.seq, hyk⟩) hle
  seq_lt := fun x hx => by
    obtain ⟨hxk, -⟩ := mem_leafQueue hx
    rwa [Nat.sub_self, Nat.add_zero]
  removed := by simp [childIds, internalIds_first]
  ahead := by simp [childIds, internalIds_first]

/-- Of two entries in the queue, the one not to be removed after the other has the node that does not come after the other's. -/
theorem MergeOrder.notAfter_of_before {s : State} {b : Builder} (h : MergeOrder s b) (hb : BuildInv s b) {x y : QEntry}
    (hx : x ∈ b.q) (hy : y ∈ b.q) (hle : QEntry.before y x = false) : NotAfter (builderState s b) x.id y.id := by
  rw [before_false_iff, hb.keys x hx, hb.keys y hy] at hle
  exact hle.imp_right fun ⟨hkey, hseq⟩ => ⟨hkey, h.seq_id x hx y hy hseq⟩

theorem BuildInv.child_present {s : State} {b : Builder} (h : BuildInv s b) {c : NodeId}
    (hc : c ∈ childIds (builderState s b)) : present (builderState s b) c = true := by
  obtain ⟨n, hn, bit, rfl⟩ := mem_childIds.1 hc
  exact (h.children n hn bit).1

/-- Every node present has a smaller id than the next node to be made. -/
theorem BuildInv.present_lt {s : State} {b : Builder} (h : BuildInv s b) {n : NodeId} (hle : b.next ≤ 514)
    (hn : present (builderState s b) n = true) : n.toNat < b.next := by
  have hge := h.next_ge
  rw [present_iff, mem_leafIds, mem_internalIds_builderState hge hle] at hn
  omega

/-- The merge of the two first entries keeps the order: each weighs no more than the node made of them. -/
theorem MergeOrder.joined {s : State} {b : Builder} {e1 e2 : QEntry} {q2 : List QEntry} (h : MergeOrder s b) (hb : BuildInv s b)
    (hq : b.q.Perm (e1 :: e2 :: q2)) (h1 : ∀ x ∈ b.q, QEntry.before x e1 = false)
    (h2 : ∀ x ∈ q2, QEntry.before x e2 = false) : MergeOrder s (joined (leafSyms s).length b e1 e2 q2) := by
  have hge := hb.next_ge
  have hle := hb.next_has_entry hq
  have he1 : e1 ∈ b.q := hq.mem_iff.2 (by simp)
  have he2 : e2 ∈ b.q := hq.mem_iff.2 (by simp)
  have hrest {x : QEntry} (hx : x ∈ q2) : x ∈ b.q := hq.mem_iff.2 (by simp [hx])
  have hnew : (BitVec.ofNat 10 b.next).toNat = b.next := by rw [BitVec.toNat_ofNat]; omega
  have hold {x y : NodeId} (hx : present (builderState s b) x = true) (hy : present (builderState s b) y = true)
      (hxy : NotAfter (builderState s b) x y) :
      NotAfter (builderState s (Machine.joined (leafSyms s).length b e1 e2 q2)) x y := by
    rwa [NotAfter, weightOf_joined hge hle hx, weightOf_joined hge hle hy]
  have hfirst : NotAfter (builderState s b) e1.id e2.id := h.notAfter_of_before hb he1 he2 (h1 e2 he2)
  have hchild {c : NodeId} (hc : c ∈ childIds (builderState s b) ++ [e1.id, e2.id]) :
      present (builderState s b) c = true ∧ (weightOf (builderState s b) c).toNat ≤ (e1.key + e2.key).toNat ∧
        ∀ e ∈ q2, NotAfter (builderState s b) c e.id := by
    rw [hb.key_add hq, hb.keys e1 he1, hb.keys e2 he2]
    simp only [List.mem_append, List.mem_cons, List.not_mem_nil, or_false] at hc
    rcases hc with hc | rfl | rfl
    · have hc1 := h.ahead c hc e1 he1
      rw [NotAfter] at hc1
      exact ⟨hb.child_present hc, by omega, fun e he => h.ahead c hc e (hrest he)⟩
    · exact ⟨hb.queue_present he1, by omega, fun e he => h.notAfter_of_before hb he1 (hrest he) (h1 e (hrest he))⟩
    · exact ⟨hb.queue_present he2, by omega, fun e he => h.notAfter_of_before hb he2 (hrest he) (h2 e he)⟩
  exact {
    seq_id := by
      intro x hx y hy hxy
      simp only [joined_q, List.mem_append, List.mem_singleton] at hx hy
      rcases hx with hx | rfl <;> rcases hy with hy | rfl
      · exact h.seq_id x (hrest hx) y (hrest hy) hxy
      · rw [hnew]
        exact (hb.present_lt (by omega) (hb.queue_present (hrest hx))).le
      · exact absurd (h.seq_lt y (hrest hy)) (Nat.not_lt.2 hxy)
      · exact Nat.le_refl _
    seq_lt := by
      intro x hx
      rw [joined_q, List.mem_append, List.mem_singleton] at hx
      have hnext : b.next - 257 < b.next + 1 - 257 := by omega
      rcases hx with hx | rfl
      · exact (h.seq_lt x (hrest hx)).trans (Nat.add_lt_add_left hnext _)
      · exact Nat.add_lt_add_left hnext _
    removed := by
      rw [childIds_joined hge hle]
      refine List.Pairwise.imp_of_mem (fun hx hy hxy => hold (hchild hx).1 (hchild hy).1 hxy) ?_
      refine List.pairwise_append.2 ⟨h.removed, by simpa using hfirst, fun c hc e he => ?_⟩
      simp only [List.mem_cons, List.not_mem_nil, or_false] at he
      rcases he with rfl | rfl
      · exact h.ahead c hc e1 he1
      · exact h.ahead c hc e2 he2
    ahead := by
      intro c hc e he
      rw [childIds_joined hge hle] at hc
      obtain ⟨hpresent, hweight, hqueue⟩ := hchild hc
      rw [joined_q, List.mem_append, List.mem_singleton] at he
      rcases he with he | rfl
      · exact hold hpresent (hb.queue_present (hrest he)) (hqueue e he)
      · have hlt := hb.present_lt (by omega) hpresent
        have hnode : weightOf (builderState s (Machine.joined (leafSyms s).length b e1 e2 q2)) (BitVec.ofNat 10 b.next) =
            e1.key + e2.key := by
          rw [weightOf, if_neg (by simp [isLeaf_false_iff, hnew, hge]), nodeAt_joined_new hge hle]
        rw [NotAfter, hnode, weightOf_joined hge hle hpresent, hnew]
        omega }

theorem mergeOrder_builtFrom (s : State) : MergeOrder s (builtFrom s) :=
  builtFrom_induction (mergeOrder_leaves s) fun _ _ _ _ hb h hq h1 h2 => h.joined hb hq h1 h2

theorem childIds_congr {s t : State} (hn : t.node = s.node) (hl : t.leaves = s.leaves) : childIds t = childIds s := by
  simp only [childIds, internalIds_congr hl, nodeAt_congr hn]

theorem weightOf_congr {s t : State} (hf : t.freq = s.freq) (hn : t.node = s.node) (n : NodeId) :
    weightOf t n = weightOf s n := by
  rw [weightOf, weightOf, freqAt_congr hf, nodeAt_congr hn]

/-- With a sentinel there is a leaf, so the nodes made end at 255 plus the number of leaves (R163, R167). -/
theorem builtFrom_next {s : State} (hs : freqAt s 256 ≠ 0#32) : (builtFrom s).next = 256 + (leafSyms s).length :=
  (builtFrom_one s (List.ne_nil_of_mem (mem_leafSyms.2 ⟨Nat.le_refl _, hs⟩))).2

/-- The planted tree has the nodes the merges made, in ascending order of removal (R162). -/
theorem plantTree_removed {s : State} (hs : freqAt s 256 ≠ 0#32) :
    (childIds (plantTree s)).Pairwise (NotAfter (plantTree s)) := by
  obtain ⟨e, -, hplant⟩ := plantTree_eq hs
  have hnode : (plantTree s).node = (builderState s (builtFrom s)).node := by rw [hplant, builderState_node]
  have hfreq : (plantTree s).freq = (builderState s (builtFrom s)).freq := by rw [hplant, builderState_freq]
  have hleaves : (plantTree s).leaves = (builderState s (builtFrom s)).leaves := by
    rw [hplant, builderState_leaves, builtFrom_next hs, Nat.add_sub_cancel_left]
  rw [childIds_congr hnode hleaves]
  refine (mergeOrder_builtFrom s).removed.imp fun h => ?_
  rwa [NotAfter, weightOf_congr hfreq hnode, weightOf_congr hfreq hnode]

/-- Settles O40: the removals ascend by `MergeOrder`, and no node is removed twice, so equal weights have ascending ids. -/
theorem buildTreeMergesTheLeast : Obligations.BuildTreeMergesTheLeast := by
  unfold Obligations.BuildTreeMergesTheLeast
  intro s t hp ht htree
  obtain ⟨hs, rfl⟩ := buildTree_succeeded hp ht htree
  refine ((plantTree_removed hs).and (plantTree_treeOk hs).one_parent).imp fun {a b} ⟨hle, hne⟩ => ?_
  refine hle.imp_right fun ⟨hweight, hid⟩ => ⟨BitVec.eq_of_toNat_eq hweight, hid.lt_of_ne fun heq => hne ?_⟩
  exact BitVec.eq_of_toNat_eq heq

/-! ## What BUILD_TREE writes (R161, R163, R164) -/

/-- The merges write the entries of the nodes they make, and no other (R161). -/
theorem builtFrom_frame (s : State) (n : NodeId) (hn : n.toNat ≤ 256 ∨ (builtFrom s).next ≤ n.toNat) :
    nodeIn (builtFrom s).node n = nodeAt s n := by
  revert hn
  refine builtFrom_induction (P := fun b => n.toNat ≤ 256 ∨ b.next ≤ n.toNat → nodeIn b.node n = nodeAt s n)
    (fun _ => rfl) fun b e1 e2 q2 hb h hq _ _ hn => ?_
  have hge := hb.next_ge
  rw [joined_next] at hn
  rw [joined_node, nodeIn_setNodeIn _ _ _ _ ⟨hge, hb.next_has_entry hq⟩, if_neg (by omega)]
  exact h (by omega)

/-- Settles O38: the checks pass, so the effect is the planting of the tree, whose writes `plantTree_eq` lists. -/
theorem buildTreeCompletes : Obligations.BuildTreeCompletes := by
  unfold Obligations.BuildTreeCompletes
  intro s hp hhdr hs hpq
  obtain ⟨e, he, hplant⟩ := plantTree_eq hs
  refine ⟨(builtFrom s).node, e.id, ?_, (buildInv_builtFrom s).root hs he, fun n hn => builtFrom_frame s n ?_⟩
  · rw [exec_eq_next, effect_buildTree hp, buildTree_legal hhdr hs, hplant, hpq]
  · rw [builtFrom_next hs]
    omega

/-- Settles O41: the merges make the same nodes and leave the same root, whatever NODE held before. -/
theorem buildTreeDeterministic : Obligations.BuildTreeDeterministic := by
  unfold Obligations.BuildTreeDeterministic
  intro s s' t t' hf hp hp' ht ht' htree htree'
  obtain ⟨hs, rfl⟩ := buildTree_succeeded hp ht htree
  obtain ⟨hs', rfl⟩ := buildTree_succeeded hp' ht' htree'
  obtain ⟨e, he, hplant⟩ := plantTree_eq hs
  obtain ⟨e', he', hplant'⟩ := plantTree_eq hs'
  have hagree := builtFrom_agree (s := s) (t := s') hf.symm
  obtain rfl : e' = e := by simpa [he, he'] using hagree.q
  have hleaves := (plantTree_treeOk hs).leaves_eq
  rw [leafSyms_congr (s := s) (by rw [hplant])] at hleaves
  refine ⟨by rw [hplant, hplant'], by rw [hplant, hplant', leafSyms_congr hf.symm], fun n hge hle => ?_⟩
  have hmade := hagree.made n hge (by rw [builtFrom_next hs]; omega)
  rw [nodeAt, nodeAt, hplant, hplant']
  exact hmade.symm

/-! ## READ_NODE (R165) -/

theorem legalAfterBuild_ok {p : Phase} : legalAfterBuild p = .ok ↔ p ≠ .freq := by cases p <;> simp [legalAfterBuild]

theorem readNode_wellFormed {n : NodeId} {sel : BitVec 2} :
    (Instr.readNode n sel).wellFormed = true ↔ n.toNat ≤ 512 ∧ sel.toNat ≤ 2 := by
  simp [Instr.wellFormed, NodeId.inRange, selInRange]

/-- A leaf is present exactly if its frequency is not 0 (R41). -/
theorem present_leaf {s : State} {n : NodeId} (hn : n.toNat ≤ 256) : present s n = decide (freqAt s n.toNat ≠ 0#32) := by
  simp [present, isLeaf, hn, show ¬ 257 ≤ n.toNat by omega]

/-- An internal id is present exactly if the node has been made (R163). -/
theorem present_of_internal_id {s : State} {n : NodeId} (hn : 256 < n.toNat) :
    present s n = decide (n.toNat ≤ 255 + s.leaves.toNat) := by
  simp [present, isLeaf, show ¬ n.toNat ≤ 256 by omega, show 257 ≤ n.toNat from hn]

theorem nodeWord_absent {s : State} {n : NodeId} (hn : present s n = false) (sel : BitVec 2) : nodeWord s n sel = 0#32 :=
  if_pos hn

/-- SEL 0 of a leaf: PRESENT, LEAF and the symbol. -/
theorem nodeWord_symbol {s : State} {n : NodeId} (hn : present s n = true) (hl : n.toNat ≤ 256) :
    (nodeWord s n 0#2).toNat = 2 ^ 31 + 2 ^ 30 + n.toNat := by
  rw [nodeWord, if_neg (by simp [hn]), if_pos rfl, if_pos ((isLeaf_iff n).2 hl)]
  simp only [toNat_append_eq_add, BitVec.toNat_setWidth, BitVec.toNat_ofNat]
  omega

/-- SEL 0 of an internal node: PRESENT and the children. -/
theorem nodeWord_children {s : State} {n : NodeId} (hn : present s n = true) (hi : 256 < n.toNat) :
    (nodeWord s n 0#2).toNat = 2 ^ 31 + 2 ^ 16 * (nodeAt s n).right.toNat + (nodeAt s n).left.toNat := by
  rw [nodeWord, if_neg (by simp [hn]), if_pos rfl, if_neg (by rw [(isLeaf_false_iff n).2 hi]; nofun)]
  simp only [toNat_append_eq_add, BitVec.toNat_ofNat]
  omega

/-- SEL 1: the low part of the weight. -/
theorem nodeWord_low {s : State} {n : NodeId} (hn : present s n = true) :
    (nodeWord s n 1#2).toNat = (weightOf s n).toNat % 2 ^ 32 := by
  rw [nodeWord, if_neg (by simp [hn]), if_neg (by decide), if_pos rfl, BitVec.extractLsb'_toNat, Nat.shiftRight_zero]

/-- SEL 2: the high part of the weight. -/
theorem nodeWord_high {s : State} {n : NodeId} (hn : present s n = true) :
    (nodeWord s n 2#2).toNat = (weightOf s n).toNat / 2 ^ 32 := by
  rw [nodeWord, if_neg (by simp [hn]), if_neg (by decide), if_neg (by decide), toNat_append_eq_add,
    BitVec.extractLsb'_toNat, Nat.shiftRight_eq_div_pow]
  have := (weightOf s n).isLt
  simp only [BitVec.toNat_ofNat]
  omega

theorem sel_cases {sel : BitVec 2} (h : sel.toNat ≤ 2) : sel = 0#2 ∨ sel = 1#2 ∨ sel = 2#2 := by
  revert sel
  decide

theorem weightOf_internal {s : State} {n : NodeId} (hn : 256 < n.toNat) : weightOf s n = (nodeAt s n).weight :=
  if_neg (by rw [(isLeaf_false_iff n).2 hn]; nofun)

/-- What READ_NODE answers for the id of a leaf. -/
theorem nodeWord_of_leaf_id {s : State} {n : NodeId} {sel : BitVec 2} (hn : n.toNat ≤ 256) (hsel : sel.toNat ≤ 2) :
    (nodeWord s n sel).toNat =
      if freqAt s n.toNat = 0#32 then 0
      else if sel.toNat = 0 then 2 ^ 31 + 2 ^ 30 + n.toNat
      else if sel.toNat = 1 then (freqAt s n.toNat).toNat
      else 0 := by
  have hpresent := present_leaf (s := s) hn
  by_cases hf : freqAt s n.toNat = 0#32
  · rw [if_pos hf, nodeWord_absent (by simp [hpresent, hf])]
    rfl
  · have hp : present s n = true := by simp [hpresent, hf]
    have hw : (weightOf s n).toNat = (freqAt s n.toNat).toNat := by
      rw [weightOf_leaf hn, BitVec.toNat_setWidth_of_le (by decide)]
    have hlt := (freqAt s n.toNat).isLt
    rw [if_neg hf]
    rcases sel_cases hsel with rfl | rfl | rfl
    · exact nodeWord_symbol hp hn
    · rw [nodeWord_low hp, hw]
      exact Nat.mod_eq_of_lt hlt
    · rw [nodeWord_high hp, hw]
      exact Nat.div_eq_of_lt hlt

/-- What READ_NODE answers for the id of an internal node. -/
theorem nodeWord_of_internal_id {s : State} {n : NodeId} {sel : BitVec 2} (hn : 256 < n.toNat) (hsel : sel.toNat ≤ 2) :
    (nodeWord s n sel).toNat =
      if 255 + s.leaves.toNat < n.toNat then 0
      else if sel.toNat = 0 then 2 ^ 31 + 2 ^ 16 * (nodeAt s n).right.toNat + (nodeAt s n).left.toNat
      else if sel.toNat = 1 then (nodeAt s n).weight.toNat % 2 ^ 32
      else (nodeAt s n).weight.toNat / 2 ^ 32 := by
  have hpresent := present_of_internal_id (s := s) hn
  by_cases habsent : 255 + s.leaves.toNat < n.toNat
  · rw [if_pos habsent, nodeWord_absent (hpresent.trans (decide_eq_false (Nat.not_le.2 habsent)))]
    rfl
  · have hp : present s n = true := hpresent.trans (decide_eq_true (Nat.not_lt.1 habsent))
    rw [if_neg habsent, ← weightOf_internal hn]
    rcases sel_cases hsel with rfl | rfl | rfl
    · exact nodeWord_children hp hn
    · exact nodeWord_low hp
    · exact nodeWord_high hp

/-- Settles O43: outside FREQ and ERROR only the ranges of the fields are checked, and a node's word is that of a leaf or of an
internal node. -/
theorem readNodeAnswers : Obligations.ReadNodeAnswers := by
  unfold Obligations.ReadNodeAnswers
  intro s n sel hfreq hp
  refine ⟨fun hn hsel => ⟨nodeWord s n sel, ?_, ?_⟩, fun hbad => ?_⟩
  · rw [exec_eq_next, effect_eq_rule (i := .readNode n sel) nofun hp (readNode_wellFormed.2 ⟨hn, hsel⟩)
      (legalAfterBuild_ok.2 hfreq), rule]
  · split
    · exact nodeWord_of_leaf_id ‹_› hsel
    · exact nodeWord_of_internal_id (Nat.not_le.1 ‹_›) hsel
  · have hwf : (Instr.readNode n sel).wellFormed = false := by
      rw [← Bool.not_eq_true, readNode_wellFormed]
      omega
    rw [exec_eq_next, effect_eq_command (i := .readNode n sel) nofun, command_ill_formed hp hwf, raise]

end Sys2Proof.Machine
end

section
/-! PROOFS. The code-table family: GEN_CODES completes (O45) with the paths of the tree (O46), or with the degenerate table (O47);
the codes of a tree are prefix-free (O48); READ_CODE_LEN (O49) and READ_CODE_WORD (O50) answer with them. -/

namespace Sys2Proof.Machine

open Sys2Proof

/-! ## GEN_CODES (R181, R182) -/

theorem effect_genCodes {s : State} (hp : s.phase = .tree) : effect .genCodes s = genCodes s :=
  effect_eq_rule nofun (by rw [hp]; nofun) rfl (legalInTree_ok.2 hp)

/-- Settles O46: GEN_CODES is legal in phase TREE, and `genCodes_codesOk`, by induction over the walk, says what it writes. -/
theorem genCodesArePaths : Obligations.GenCodesArePaths := by
  unfold Obligations.GenCodesArePaths
  intro s t htree hp ht
  rw [exec_next_iff, effect_genCodes hp] at ht
  exact ht ▸ genCodes_codesOk htree

theorem codeOfSym_genCodes (s : State) (n : Nat) : codeOfSym (genCodes s) n = codeBits (codeIn (codeTable s) n) := rfl

/-- Settles O47: at a leaf root no NODE entry is read, and the table has the root's entry alone. -/
theorem degenerateCode : Obligations.DegenerateCode := by
  unfold Obligations.DegenerateCode
  intro s t hp hroot ht
  rw [exec_next_iff, effect_genCodes hp] at ht
  subst ht
  have hleaf : isLeaf s.root = true := by rw [hroot]; rfl
  have hid : s.root.toNat = 256 := by rw [hroot]; rfl
  refine ⟨?_, fun n hn => ?_⟩
  · rw [codeOfSym_genCodes, codeTable_leafRoot hleaf, if_pos hid.symm, codeBits_codeOf _ (by simp)]
  · rw [codeOfSym_genCodes, codeTable_leafRoot hleaf, if_neg (by omega), codeBits_absent]

/-! ### The longest length -/

/-- The lengths of a code table, which `longest` is the greatest of. -/
def codeLens (c : Vector CodeEntry 257) : List Nat := c.toList.map fun e => e.len.toNat

theorem mem_codeLens {c : Vector CodeEntry 257} {l : Nat} : l ∈ codeLens c ↔ ∃ n ≤ 256, (codeIn c n).len.toNat = l := by
  simp only [codeLens, List.mem_map, Vector.mem_toList_iff, Vector.mem_iff_getElem]
  constructor
  · rintro ⟨e, ⟨n, hn, rfl⟩, rfl⟩
    exact ⟨n, by omega, by rw [codeIn, dif_pos hn]⟩
  · rintro ⟨n, hn, rfl⟩
    have hlt : n < 257 := by omega
    exact ⟨codeIn c n, ⟨n, hlt, (dif_pos hlt).symm⟩, rfl⟩

/-- `longest` is 0 or a length of the table, and no length is greater. -/
theorem longest_max (c : Vector CodeEntry 257) :
    longest c ∈ 0 :: codeLens c ∧ ∀ l ∈ 0 :: codeLens c, l ≤ longest c :=
  List.max?_eq_some_iff.1 List.max?_cons'

theorem len_le_longest (c : Vector CodeEntry 257) {n : Nat} (hn : n ≤ 256) : (codeIn c n).len.toNat ≤ longest c :=
  (longest_max c).2 _ (List.mem_cons_of_mem _ (mem_codeLens.2 ⟨n, hn, rfl⟩))

/-- The greatest length is some entry's: where it is 0 every entry's is. -/
theorem longest_attained (c : Vector CodeEntry 257) : ∃ n ≤ 256, (codeIn c n).len.toNat = longest c := by
  rcases List.mem_cons.1 (longest_max c).1 with hzero | hmem
  · have hle := len_le_longest c (Nat.zero_le 256)
    exact ⟨0, Nat.zero_le _, by omega⟩
  · exact mem_codeLens.1 hmem

/-- A length has 9 bits, so RESULT holds the greatest one. -/
theorem longest_word (c : Vector CodeEntry 257) : (BitVec.ofNat 32 (longest c)).toNat = longest c := by
  obtain ⟨n, -, hlen⟩ := longest_attained c
  have hlt := (codeIn c n).len.isLt
  rw [BitVec.toNat_ofNat]
  omega

/-- Settles O45: the rule of GEN_CODES writes the code table and its greatest length. -/
theorem genCodesCompletes : Obligations.GenCodesCompletes := by
  unfold Obligations.GenCodesCompletes
  intro s hp
  refine ⟨codeTable s, BitVec.ofNat 32 (longest (codeTable s)), ?_, ?_, ?_⟩
  · rw [exec_eq_next, effect_genCodes hp, genCodes]
  · rw [longest_word]
    exact fun n => len_le_longest (codeTable s)
  · rw [longest_word]
    exact longest_attained (codeTable s)

/-! ## The codes of a tree are prefix-free (R183) -/

/-- No path leaves a leaf. -/
theorem leadsTo_from_leaf {s : State} {n m : NodeId} {bits : List Bool} (hl : isLeaf n = true)
    (hp : leadsTo s n bits m = true) : n = m := by
  cases bits with
  | nil => exact (leadsTo_nil ..).1 hp
  | cons b bits =>
    rw [leadsTo_cons, hl] at hp
    exact nomatch hp.1

/-- Where a path goes through a node, the rest of it leads on from there. -/
theorem leadsTo_rest {s : State} {n m k : NodeId} {a b : List Bool} (ha : leadsTo s n a m = true)
    (hab : leadsTo s n (a ++ b) k = true) : leadsTo s m b k = true := by
  induction a generalizing n with
  | nil => rwa [← (leadsTo_nil ..).1 ha]
  | cons x a ih => exact ih ((leadsTo_cons ..).1 ha).2 ((leadsTo_cons ..).1 hab).2

theorem symbolId_toNat {n : Nat} (hn : n ≤ 256) : (BitVec.ofNat 10 n).toNat = n := by
  rw [BitVec.toNat_ofNat]
  omega

theorem symbolId_isLeaf {n : Nat} (hn : n ≤ 256) : isLeaf (BitVec.ofNat 10 n) = true := by
  rwa [isLeaf_iff, symbolId_toNat hn]

theorem symbolId_inj {n m : Nat} (hn : n ≤ 256) (hm : m ≤ 256) (h : BitVec.ofNat 10 n = BitVec.ofNat 10 m) : n = m := by
  rw [← symbolId_toNat hn, h, symbolId_toNat hm]

/-- When the root is a leaf, it is the only symbol of the tree. -/
theorem TreeOk.symbol_of_leaf_root {s : State} (h : TreeOk s) (hl : isLeaf s.root = true) {n : Nat} (hn : n ≤ 256)
    (hf : freqAt s n ≠ 0#32) : s.root = BitVec.ofNat 10 n := by
  obtain ⟨bits, hp⟩ := h.reachable _ ((present_symbol hn).2 hf)
  exact leadsTo_from_leaf hl hp

section Codes

variable {s : State} (h : CodesOk s)
include h

theorem CodesOk.freq_ne_zero {n : Nat} (hn : n ≤ 256) (hc : codeOfSym s n ≠ []) : freqAt s n ≠ 0#32 := by
  intro hf
  have hcode := h n hn
  rw [if_pos hf] at hcode
  exact hc hcode

theorem CodesOk.code_of_leaf_root (hl : isLeaf s.root = true) {n : Nat} (hn : n ≤ 256) (hf : freqAt s n ≠ 0#32) :
    codeOfSym s n = [false] := by
  have hcode := h n hn
  rwa [if_neg hf, if_pos hl] at hcode

theorem CodesOk.path (hl : isLeaf s.root = false) {n : Nat} (hn : n ≤ 256) (hf : freqAt s n ≠ 0#32) :
    leadsTo s s.root (codeOfSym s n) (BitVec.ofNat 10 n) = true := by
  have hcode := h n hn
  rwa [if_neg hf, if_neg (Bool.eq_false_iff.1 hl)] at hcode

/-- The code is the one bit 0, or a path from a root that is no leaf to a leaf. -/
theorem CodesOk.code_ne_nil {n : Nat} (hn : n ≤ 256) (hf : freqAt s n ≠ 0#32) : codeOfSym s n ≠ [] := by
  intro hnil
  cases hl : isLeaf s.root with
  | true =>
    rw [h.code_of_leaf_root hl hn hf] at hnil
    cases hnil
  | false =>
    have hpath := h.path hl hn hf
    rw [hnil, leadsTo_nil] at hpath
    rw [hpath, symbolId_isLeaf hn] at hl
    cases hl

/-- A code that begins another symbol's leads to that symbol's leaf already, for no path leaves the leaf it ends at. -/
theorem CodesOk.eq_of_prefix (htree : TreeOk s) {n m : Nat} (hn : n ≤ 256) (hm : m ≤ 256) (hfn : freqAt s n ≠ 0#32)
    (hfm : freqAt s m ≠ 0#32) (hpre : codeOfSym s n <+: codeOfSym s m) : n = m := by
  apply symbolId_inj hn hm
  cases hl : isLeaf s.root with
  | true => rw [← htree.symbol_of_leaf_root hl hn hfn, ← htree.symbol_of_leaf_root hl hm hfm]
  | false =>
    obtain ⟨rest, hrest⟩ := hpre
    have hpath := h.path hl hm hfm
    rw [← hrest] at hpath
    exact leadsTo_from_leaf (symbolId_isLeaf hn) (leadsTo_rest (h.path hl hn hfn) hpath)

end Codes

/-- Settles O48: codes are paths from the root to leaves, and no path goes on from a leaf. -/
theorem prefixFree : Obligations.PrefixFree := by
  unfold Obligations.PrefixFree
  intro s htree hcodes
  refine ⟨fun n hn hf => hcodes.code_ne_nil hn hf, fun n m hn hm hne hcn hcm hpre => hne ?_⟩
  exact hcodes.eq_of_prefix htree hn hm (hcodes.freq_ne_zero hn hcn) (hcodes.freq_ne_zero hm hcm) hpre

/-! ## READ_CODE_LEN and READ_CODE_WORD (R184, R185) -/

/-- Outside ERROR a field out of range raises BAD_OPERAND, before the phase is looked at (R111). -/
theorem effect_ill_formed {i : Instr} {s : State} (hi : i ≠ .clr) (hp : s.phase ≠ .error) (hwf : i.wellFormed = false) :
    effect i s = raise .badOperand (encode i) s := by
  rw [effect_eq_command hi, command_ill_formed hp hwf]

theorem legalWithCodes_ok {codesValid : Bool} : legalWithCodes codesValid = .ok ↔ codesValid = true := by
  cases codesValid <;> simp [legalWithCodes]

/-- Settles O49: the length of a code is the LEN of its entry, and the range of the symbol is checked before the phase. -/
theorem readCodeLenAnswers : Obligations.ReadCodeLenAnswers := by
  unfold Obligations.ReadCodeLenAnswers
  intro s sym hp
  refine ⟨fun hc hsym => ?_, fun hsym => ?_⟩
  · rw [exec_eq_next, effect_eq_rule (i := .readCodeLen sym) nofun hp (decide_eq_true hsym) (legalWithCodes_ok.2 hc), rule,
      codeOfSym, codeBits_length, BitVec.ofNat_toNat]
  · rw [exec_eq_next, effect_ill_formed (i := .readCodeLen sym) nofun hp (decide_eq_false (Nat.not_le.2 hsym)), raise]

/-- Past the code a canonical entry has 0 bits (R43). -/
theorem codeCanonical_bit_past_len {e : CodeEntry} (h : codeCanonical e = true) {p : Nat} (hp : p < 256)
    (hlen : e.len.toNat ≤ p) : e.bits.getLsbD (255 - p) = false := by
  obtain ⟨-, hzero⟩ : e.len.toNat ≤ 256 ∧ e.bits <<< e.len.toNat = 0#256 := by simpa [codeCanonical] using h
  have hbit : (e.bits <<< e.len.toNat).getLsbD (255 - p + e.len.toNat) = false := by rw [hzero, BitVec.getLsbD_zero]
  rwa [BitVec.getLsbD_shiftLeft, decide_eq_true (by omega), decide_eq_false (by omega), Nat.add_sub_cancel] at hbit

/-- Bit `p` of the code of a canonical entry, 0 past its end, is bit `255 - p` of BITS (R43). -/
theorem codeBits_getD {e : CodeEntry} (h : codeCanonical e = true) {p : Nat} (hp : p < 256) :
    (codeBits e).getD p false = e.bits.getLsbD (255 - p) := by
  by_cases hlen : p < e.len.toNat
  · rw [List.getD_eq_getElem _ _ (by rwa [codeBits_length])]
    simp [codeBits, codeBit, hp]
  · rw [codeCanonical_bit_past_len h hp (Nat.not_lt.1 hlen), List.getD_eq_default]
    rw [codeBits_length]
    exact Nat.not_lt.1 hlen

/-- The bit 31 - j of word k is bit 255 - (32k + j) of BITS (R185). -/
theorem codeWord_bit (e : CodeEntry) (k : BitVec 3) {j : Nat} (hj : j < 32) :
    (codeWord e k).getLsbD (31 - j) = e.bits.getLsbD (255 - (32 * k.toNat + j)) := by
  have hk := k.isLt
  have hpos : 224 - 32 * k.toNat + (31 - j) = 255 - (32 * k.toNat + j) := by omega
  rw [codeWord, BitVec.getLsbD_extractLsb', hpos, decide_eq_true (by omega), Bool.true_and]

/-- Settles O50: each bit of the word is one bit of the entry, which is the code's or, past its end, 0. -/
theorem readCodeWordAnswers : Obligations.ReadCodeWordAnswers := by
  unfold Obligations.ReadCodeWordAnswers
  intro s sym k hp
  refine ⟨fun hc hsym hcanon => ⟨codeWord (codeAt s sym.toNat) k, ?_, fun j hj => ?_⟩, fun hsym => ?_⟩
  · rw [exec_eq_next, effect_eq_rule (i := .readCodeWord sym k) nofun hp (decide_eq_true hsym) (legalWithCodes_ok.2 hc), rule]
  · have hk := k.isLt
    rw [codeWord_bit _ _ hj, codeOfSym, codeBits_getD hcanon (by omega)]
  · rw [exec_eq_next, effect_ill_formed (i := .readCodeWord sym k) nofun hp (decide_eq_false (Nat.not_le.2 hsym)), raise]

end Sys2Proof.Machine
end

section
/-! PROOFS. The encoder family: ENC_BYTE of a byte with a code (O51) and without one (O52), ENC_END (O53), and the body that a
sequence of them makes (O54). -/

namespace Sys2Proof.Machine

open Sys2Proof

/-! ## The encoder commands behind the check order (R203, R204) -/

theorem phase_ne_error_of_open {s : State} (hp : s.phase = .codes ∨ s.phase = .encoding) : s.phase ≠ .error := by
  rcases hp with hp | hp <;> rw [hp] <;> nofun

theorem effect_encByte {s : State} (hp : s.phase = .codes ∨ s.phase = .encoding) (b : Byte) :
    effect (.encByte b) s = encodeByte b s :=
  effect_eq_rule nofun (phase_ne_error_of_open hp) rfl (legalForEncoder_ok.2 hp)

theorem effect_encEnd {s : State} (hp : s.phase = .codes ∨ s.phase = .encoding) : effect .encEnd s = encodeEnd s :=
  effect_eq_rule nofun (phase_ne_error_of_open hp) rfl (legalForEncoder_ok.2 hp)

/-- A code is absent exactly when its length is 0 (R43). -/
theorem codeOfSym_eq_nil {s : State} {n : Nat} : codeOfSym s n = [] ↔ (codeAt s n).len = 0#9 := by
  rw [codeOfSym, ← List.length_eq_zero_iff, codeBits_length, ← BitVec.toNat_inj, BitVec.toNat_ofNat, Nat.zero_mod]

theorem encodeByte_absent {s : State} {b : Byte} (h : codeOfSym s b.toNat = []) :
    encodeByte b s = raise .symbolNotInTree (encode (.encByte b)) s := if_pos (codeOfSym_eq_nil.1 h)

/-- Settles O52: an absent code has length 0, so ENC_BYTE's rule raises. -/
theorem encByteOfAbsentSymbol : Obligations.EncByteOfAbsentSymbol := by
  unfold Obligations.EncByteOfAbsentSymbol
  intro s b hp habsent
  rw [exec_eq_next, effect_encByte hp, encodeByte_absent habsent, raise]

/-! ## Bits encoded, and the writer closed -/

/-- What encoding bits does: the writer takes them, ENC_BITS counts them, and the encoder is open (R203). -/
def encodeBits (bits : List Bool) (s : State) : State :=
  { emitBits bits s with encBits := s.encBits + BitVec.ofNat 32 bits.length, phase := .encoding }

/-- How the encoder ends: the padding flush, and nothing more may be written (R204). -/
def closeEncoder (s : State) : State := { closeWriter s with phase := .closed }

/-- The bits of a symbol's code are counted by its length (R203). -/
theorem encodeBits_codeOfSym (s : State) (n : Nat) :
    encodeBits (codeOfSym s n) s = { emitCode (codeAt s n) s with phase := .encoding } := by
  rw [encodeBits, codeOfSym, codeBits_length, emitCode]

theorem encodeByte_present {s : State} {b : Byte} (h : codeOfSym s b.toNat ≠ []) :
    encodeByte b s = encodeBits (codeOfSym s b.toNat) s := by
  rw [encodeByte, if_neg (mt codeOfSym_eq_nil.2 h), encodeBits_codeOfSym]

/-- Closing does not look at the phase (R202). -/
theorem closeEncoder_with_phase (s : State) (p : Phase) : closeEncoder { s with phase := p } = closeEncoder s := by
  unfold closeEncoder closeWriter
  split <;> rfl

theorem encodeEnd_present {s : State} (h : codeOfSym s 256 ≠ []) :
    encodeEnd s = closeEncoder (encodeBits (codeOfSym s 256) s) := by
  rw [encodeEnd, if_neg (mt codeOfSym_eq_nil.2 h), encodeBits_codeOfSym, closeEncoder_with_phase, closeEncoder]

/-- The bit writer does not look at ENC_BITS and PHASE (R201). -/
theorem emitBits_with_count (bits : List Bool) (s : State) (n : Word) (p : Phase) :
    emitBits bits { s with encBits := n, phase := p } = { emitBits bits s with encBits := n, phase := p } := by
  induction bits generalizing s with
  | nil => rfl
  | cons b bits ih =>
    have hbit : emitBit b { s with encBits := n, phase := p } = { emitBit b s with encBits := n, phase := p } := by
      unfold emitBit
      split <;> rfl
    rw [emitBits, hbit, ih, emitBits]

theorem encodeBits_append (a b : List Bool) (s : State) : encodeBits (a ++ b) s = encodeBits b (encodeBits a s) := by
  simp only [encodeBits, emitBits_append, emitBits_with_count, List.length_append, BitVec.ofNat_add, BitVec.add_assoc]

theorem encodeBits_writtenBits {s : State} (hc : writerClean s) (bits : List Bool) :
    writtenBits (encodeBits bits s) = writtenBits s ++ bits := emitBits_writtenBits bits s hc

theorem encodeBits_clean {s : State} (hc : writerClean s) (bits : List Bool) : writerClean (encodeBits bits s) :=
  emitBits_clean bits s hc

/-- Settles O51: the rule encodes the bits of the code, and the writer puts them after everything written. -/
theorem encByteWritesTheCode : Obligations.EncByteWritesTheCode := by
  unfold Obligations.EncByteWritesTheCode
  intro s b hp hclean hcode
  let t := emitBits (codeOfSym s b.toNat) s
  refine ⟨t.wbuf, t.wcnt, t.out, ?_, emitBits_writtenBits _ s hclean, emitBits_prefix _ s⟩
  rw [exec_eq_next, effect_encByte hp, encodeByte_present hcode]
  simp [encodeBits, t]

/-! ## The padding flush (R202) -/

/-- The 0 bits that complete the pending ones to a byte; none where no bit is pending (R202, R206). -/
def padding (s : State) : List Bool := List.replicate ((8 - s.wcnt.toNat) % 8) false

theorem padding_length_lt (s : State) : (padding s).length < 8 := by
  rw [padding, List.length_replicate]
  exact Nat.mod_lt _ (by decide)

theorem padding_zero (s : State) : ∀ x ∈ padding s, x = false := fun _ => List.eq_of_mem_replicate

theorem byteBits_eq_map (b : Byte) : byteBits b = (List.range 8).map fun k => b.getLsbD (7 - k) := rfl

/-- The flushed byte has the pending bits in its high bits and 0s below (R202). -/
theorem byteBits_paddedByte {s : State} (h : s.wcnt ≠ 0#3) : byteBits (paddedByte s) = pendingBits s ++ padding s := by
  have hpos : s.wcnt.toNat ≠ 0 := fun e => h (BitVec.eq_of_toNat_eq e)
  have hlt := s.wcnt.isLt
  apply List.ext_getElem
  · simp only [byteBits_length, List.length_append, pendingBits, padding, List.length_map, List.length_range,
      List.length_replicate]
    omega
  · intro k hk _
    rw [byteBits_length] at hk
    simp only [byteBits_eq_map, pendingBits, padding, paddedByte, List.getElem_append, List.getElem_map, List.getElem_range,
      List.getElem_replicate, List.length_map, List.length_range, BitVec.getLsbD_shiftLeft, BitVec.getLsbD_setWidth]
    by_cases hpend : k < s.wcnt.toNat
    · have hidx : 7 - k - (8 - s.wcnt.toNat) = s.wcnt.toNat - 1 - k := by omega
      rw [dif_pos hpend, hidx, decide_eq_true (by omega), decide_eq_false (by omega), decide_eq_true (by omega)]
      rfl
    · rw [dif_neg hpend, decide_eq_true (by omega : 7 - k < 8 - s.wcnt.toNat)]
      simp

/-- With no bit pending the bytes are all that was written. -/
theorem writtenBits_of_idle {s : State} (h : s.wcnt = 0#3) : writtenBits s = bytesBits s.out := by
  simp [writtenBits, pendingBits, h]

/-- Closed, the writer has pushed everything written, padded to whole bytes. -/
theorem closeWriter_bytesBits (s : State) : bytesBits (closeWriter s).out = writtenBits s ++ padding s := by
  unfold closeWriter
  split
  · rename_i h
    simp [writtenBits_of_idle h, padding, h]
  · rename_i h
    rw [pushOut_out, bytesBits_append, bytesBits_singleton, byteBits_paddedByte h, writtenBits, List.append_assoc]

/-- A closed writer holds no bit (R202, R204). -/
theorem closeWriter_wbuf {s : State} (hc : writerClean s) : (closeWriter s).wbuf = 0#7 := by
  unfold closeWriter
  split
  · rename_i h
    rw [writerClean, h] at hc
    exact BitVec.eq_of_toNat_eq (Nat.lt_one_iff.1 hc)
  · rfl

/-- Closing empties the writer, and writes OUT and PHASE beside (R204). -/
theorem closeEncoder_eq {s : State} (hc : writerClean s) :
    closeEncoder s = { s with wbuf := 0#7, wcnt := 0#3, out := (closeWriter s).out, phase := .closed } := by
  simp [closeEncoder, closeWriter_wcnt, closeWriter_wbuf hc]

/-- Settles O53: the rule encodes the sentinel's bits and closes the writer, which pads them to whole bytes. -/
theorem encEndClosesTheWriter : Obligations.EncEndClosesTheWriter := by
  unfold Obligations.EncEndClosesTheWriter
  intro s hp hclean hcode
  let t := encodeBits (codeOfSym s 256) s
  refine ⟨(closeWriter t).out, padding t, ?_, ?_, padding_length_lt t, padding_zero t⟩
  · rw [exec_eq_next, effect_encEnd hp, encodeEnd_present hcode, closeEncoder_eq (encodeBits_clean hclean _)]
    simp [t, encodeBits]
  · rw [closeWriter_bytesBits, encodeBits_writtenBits hclean]

/-! ## The body (R206, R207) -/

/-- ENC_BYTE of each byte and then ENC_END encode one message and close the encoder, by induction on the bytes. -/
theorem execAll_encode (bytes : List Byte) (s : State) (hp : s.phase = .codes ∨ s.phase = .encoding)
    (hcodes : ∀ b ∈ bytes, codeOfSym s b.toNat ≠ []) (hsentinel : codeOfSym s 256 ≠ []) :
    execAll (bytes.map (fun b => .encByte b) ++ [.encEnd]) s = .next (closeEncoder (encodeBits (messageBits s bytes) s)) := by
  induction bytes generalizing s with
  | nil => rw [List.map_nil, List.nil_append, execAll_cons, effect_encEnd hp, encodeEnd_present hsentinel]; rfl
  | cons b bytes ih =>
    let t := encodeBits (codeOfSym s b.toNat) s
    have hcode (n : Nat) : codeOfSym t n = codeOfSym s n := congrArg codeBits (codeAt_congr (emitBits_code _ s) n)
    have hmessage : messageBits s (b :: bytes) = codeOfSym s b.toNat ++ messageBits t bytes := by
      simp only [messageBits, hcode, List.flatMap_cons, List.append_assoc]
    obtain ⟨hb, hbytes⟩ := List.forall_mem_cons.1 hcodes
    rw [List.map_cons, List.cons_append, execAll_cons, effect_encByte hp, encodeByte_present hb,
      ih t (.inr rfl) (by simpa only [hcode] using hbytes) (by rwa [hcode]), hmessage, encodeBits_append]

/-- Settles O54: the commands encode the message and close the encoder, and with an empty writer nothing was pending before. -/
theorem encodedBody : Obligations.EncodedBody := by
  unfold Obligations.EncodedBody
  intro bytes s hp hwcnt hwbuf hcodes hsentinel
  have hclean : writerClean s := by rw [writerClean, hwcnt, hwbuf]; decide
  let t := encodeBits (messageBits s bytes) s
  refine ⟨closeEncoder t, padding t, execAll_encode bytes s (.inl hp) hcodes hsentinel, rfl, closeWriter_wcnt t, ?_,
    padding_length_lt t, padding_zero t, closeWriter_encBits t, ?_⟩
  · rw [closeEncoder, closeWriter_bytesBits, encodeBits_writtenBits hclean, writtenBits_of_idle hwcnt]
  · exact (closeWriter_popped t).trans (emitBits_popped _ s)

end Sys2Proof.Machine
end

section
/-! PROOFS. The decoder family: DEC_FEED's walk (O55), in DONE (O56) and on the degenerate tree (O57), DEC_EOI (O58), the body that
a sequence of DEC_FEED decodes (O59), and the round trip of encoding and decoding (O60). -/

namespace Sys2Proof.Machine

open Sys2Proof

/-! ## DEC_FEED behind the check order (R222, R223, R224) -/

theorem phase_ne_error_of_decoder {s : State} (h : legalForDecoder s.phase = .ok) : s.phase ≠ .error := by
  intro hp
  rw [hp] at h
  cases h

theorem effect_decFeed {s : State} (h : legalForDecoder s.phase = .ok) (b : Byte) : effect (.decFeed b) s = feedByte b s :=
  effect_eq_rule nofun (phase_ne_error_of_decoder h) rfl h

theorem effect_decEoi {s : State} (h : legalForDecoder s.phase = .ok) : effect .decEoi s = endOfInput s :=
  effect_eq_rule nofun (phase_ne_error_of_decoder h) rfl h

/-- A phase in which the decoder's commands are legal, DONE apart. -/
theorem phase_of_decoder_open {s : State} (hp : s.phase = .tree ∨ s.phase = .codes ∨ s.phase = .decoding) :
    legalForDecoder s.phase = .ok ∧ s.phase ≠ .done := by
  rcases hp with hp | hp | hp <;> rw [hp] <;> exact ⟨rfl, nofun⟩

/-- What decoding bits does: the decoder is reading, and walks the tree (R222). -/
def decodeBits (bits : List Bool) (s : State) : State := feedBits bits { s with phase := .decoding }

/-- With an internal root DEC_FEED before the sentinel decodes the bits of its byte. -/
theorem effect_decFeed_open {s : State} (hp : s.phase = .tree ∨ s.phase = .codes ∨ s.phase = .decoding)
    (hroot : isLeaf s.root = false) (b : Byte) : effect (.decFeed b) s = decodeBits (byteBits b) s := by
  obtain ⟨hlegal, hdone⟩ := phase_of_decoder_open hp
  rw [effect_decFeed hlegal, feedByte, if_neg hdone, hroot]
  rfl

/-! ## Runs of bits -/

/-- Bits after a run that did not reach the sentinel are read from where that run ended. -/
theorem feedBits_append {a : List Bool} {s : State} (h : (feedBits a s).phase ≠ .done) (b : List Bool) :
    feedBits (a ++ b) s = feedBits b (feedBits a s) := by
  induction a generalizing s with
  | nil => rfl
  | cons x a ih =>
    simp only [List.cons_append, feedBits] at h ⊢
    split_ifs at h ⊢ with hleaf hend
    · exact absurd rfl h
    · exact ih h
    · exact ih h

/-- The sentinel, once reached, stays reached whatever bits come after (R222). -/
theorem feedBits_append_done {a : List Bool} {s : State} (h : (feedBits a s).phase = .done) (b : List Bool) :
    (feedBits (a ++ b) s).phase = .done := by
  induction a generalizing s with
  | nil => exact (feedBits_phase b s).elim id (·.trans h)
  | cons x a ih =>
    simp only [List.cons_append, feedBits] at h ⊢
    split_ifs at h ⊢ with hleaf hend
    · rfl
    · exact ih h
    · exact ih h

/-- DEC_FEED of each byte decodes the bits of them all, as long as the sentinel is not reached before the last byte. -/
theorem execAll_decFeed {body : List Byte} {s : State} (b : Byte) (hp : s.phase = .tree ∨ s.phase = .codes ∨ s.phase = .decoding)
    (hroot : isLeaf s.root = false) (hopen : (decodeBits (bytesBits body) s).phase ≠ .done) :
    execAll ((body ++ [b]).map fun d => .decFeed d) s = .next (decodeBits (bytesBits (body ++ [b])) s) := by
  induction body generalizing s with
  | nil => rw [List.nil_append, List.map_singleton, execAll_cons, effect_decFeed_open hp hroot, bytesBits_singleton]; rfl
  | cons d body ih =>
    have hcons (ds : List Byte) : bytesBits (d :: ds) = byteBits d ++ bytesBits ds := rfl
    have hfirst : (decodeBits (byteBits d) s).phase ≠ .done := fun h => hopen (feedBits_append_done h _)
    have hphase : (decodeBits (byteBits d) s).phase = .decoding := (feedBits_phase _ _).resolve_left hfirst
    have happend (bits : List Bool) : decodeBits (byteBits d ++ bits) s = decodeBits bits (decodeBits (byteBits d) s) := by
      conv_rhs => rw [decodeBits, ← hphase]
      exact feedBits_append hfirst bits
    rw [hcons, happend] at hopen
    rw [List.cons_append, List.map_cons, execAll_cons, effect_decFeed_open hp hroot, hcons, happend]
    exact ih (.inr (.inr hphase)) (by rwa [decodeBits, feedBits_root]) hopen

/-! ## Bits along a path (R222) -/

/-- A path stays one while NODE does. -/
theorem leadsTo_of_node_eq {s t : State} {n m : NodeId} {bits : List Bool} (h : leadsTo s n bits m = true)
    (hnode : t.node = s.node) : leadsTo t n bits m = true := by rwa [leadsTo_congr hnode]

/-- The first bits of a path lead to a node from where the rest leads on. -/
theorem leadsTo_split {s : State} {n m : NodeId} {a b : List Bool} (h : leadsTo s n (a ++ b) m = true) :
    ∃ k, leadsTo s n a k = true ∧ leadsTo s k b m = true := by
  induction a generalizing n with
  | nil => exact ⟨n, (leadsTo_nil ..).2 rfl, h⟩
  | cons x a ih =>
    obtain ⟨hn, hrest⟩ := (leadsTo_cons ..).1 h
    obtain ⟨k, ha, hb⟩ := ih hrest
    exact ⟨k, (leadsTo_cons ..).2 ⟨hn, ha⟩, hb⟩

/-- A path from an internal node to a leaf takes its last bit from an internal node. -/
theorem leadsTo_leaf_last {s : State} {n m : NodeId} {bits : List Bool} (h : leadsTo s n bits m = true)
    (hn : isLeaf n = false) (hm : isLeaf m = true) :
    ∃ a x k, bits = a ++ [x] ∧ leadsTo s n a k = true ∧ isLeaf k = false ∧ childAt s k x = m := by
  rcases List.eq_nil_or_concat' bits with rfl | ⟨a, x, rfl⟩
  · rw [(leadsTo_nil ..).1 h, hm] at hn
    cases hn
  · obtain ⟨k, ha, hlast⟩ := leadsTo_split h
    rw [leadsTo_cons, leadsTo_nil] at hlast
    exact ⟨a, x, k, rfl, ha, hlast⟩

/-- The walk along a path to an internal node only moves. -/
theorem feedBits_through {s : State} {n : NodeId} {a : List Bool} (h : leadsTo s s.dnode a n = true) (hn : isLeaf n = false)
    (rest : List Bool) : feedBits (a ++ rest) s = feedBits rest (moveTo n s) := by
  induction a generalizing s with
  | nil => rw [← (leadsTo_nil ..).1 h]; rfl
  | cons x a ih =>
    obtain ⟨-, hrest⟩ := (leadsTo_cons ..).1 h
    have hchild : isLeaf (childAt s s.dnode x) = false := by
      by_contra hl
      rw [leadsTo_from_leaf (Bool.not_eq_false _ ▸ hl) hrest, hn] at hl
      exact hl rfl
    rw [List.cons_append, feedBits_internal x _ s hchild]
    exact ih (leadsTo_of_node_eq hrest rfl)

/-- The walk along the path to a byte's leaf emits the byte and stands at the root again. -/
theorem feedBits_byte_path {s : State} {b : Byte} {bits : List Bool}
    (h : leadsTo s s.dnode bits (BitVec.ofNat 10 b.toNat) = true) (hd : isLeaf s.dnode = false) (rest : List Bool) :
    feedBits (bits ++ rest) s = feedBits rest (emitLeaf (BitVec.ofNat 10 b.toNat) s) := by
  have hb := b.isLt
  have hleaf := symbolId_isLeaf (n := b.toNat) (by omega)
  obtain ⟨a, x, k, rfl, ha, hk, hlast⟩ := leadsTo_leaf_last h hd hleaf
  have hne : BitVec.ofNat 10 b.toNat ≠ 256#10 := fun e => by
    have := symbolId_inj (by omega) (Nat.le_refl 256) e
    omega
  have hchild : childAt (moveTo k s) (moveTo k s).dnode x = BitVec.ofNat 10 b.toNat := hlast
  rw [List.append_assoc, feedBits_through ha hk, List.singleton_append,
    feedBits_leaf x rest _ (by rw [hchild, hleaf]) (by rwa [hchild]), hchild]
  rfl

/-- What emitting bytes does: they are pushed and counted, and the walk stands at the root. -/
def emitBytes (bytes : List Byte) (s : State) : State :=
  { s with dnode := s.root, out := s.out ++ bytes, decBytes := s.decBytes + BitVec.ofNat 32 bytes.length }

/-- The walk along the paths to the leaves of bytes emits the bytes. -/
theorem feedBits_byte_paths {s : State} {code : Nat → List Bool} {bytes : List Byte} (hroot : isLeaf s.root = false)
    (hd : s.dnode = s.root) (h : ∀ b ∈ bytes, leadsTo s s.root (code b.toNat) (BitVec.ofNat 10 b.toNat) = true)
    (rest : List Bool) :
    feedBits (bytes.flatMap (fun b => code b.toNat) ++ rest) s = feedBits rest (emitBytes bytes s) := by
  induction bytes generalizing s with
  | nil =>
    have hnil : emitBytes [] s = moveTo s.root s := by simp [emitBytes, moveTo]
    rw [hnil, ← hd]
    rfl
  | cons b bytes ih =>
    obtain ⟨hb, hbytes⟩ := List.forall_mem_cons.1 h
    have hemit : emitBytes bytes (emitLeaf (BitVec.ofNat 10 b.toNat) s) = emitBytes (b :: bytes) s := by
      simp [emitBytes, emitLeaf, pushOut, BitVec.ofNat_add, BitVec.add_assoc, BitVec.add_comm 1#32]
    rw [List.flatMap_cons, List.append_assoc, feedBits_byte_path (by rwa [hd]) (by rwa [hd]),
      ih (s := emitLeaf _ s) hroot rfl fun c hc => leadsTo_of_node_eq (hbytes c hc) rfl, hemit]

/-! ## A whole body (R222, R228) -/

/-- Settles O59: the sentinel is reached with the last bit of its path, which lies in the last byte, and the walk up to there emits
the bytes. -/
theorem decodedBody : Obligations.DecodedBody := by
  unfold Obligations.DecodedBody
  intro s code bytes body pad hp hroot hd hbytes hsentinel hpad hbits
  have hinternal : isLeaf s.root = false := (isLeaf_false_iff _).2 hroot
  obtain ⟨a, x, k, hcode, hpath, hk, hlast⟩ := leadsTo_leaf_last hsentinel hinternal rfl
  let t : State := emitBytes bytes { s with phase := .decoding }
  have hwalk (rest : List Bool) : decodeBits (bytes.flatMap (fun b => code b.toNat) ++ (a ++ rest)) s =
      feedBits rest (moveTo k t) := by
    refine (feedBits_byte_paths (s := { s with phase := .decoding }) hinternal hd (fun b hb => ?_) _).trans (feedBits_through ?_ hk rest)
    · exact leadsTo_of_node_eq (hbytes b hb) rfl
    · exact leadsTo_of_node_eq hpath rfl
  rw [hcode, List.append_assoc, List.append_assoc] at hbits
  rcases List.eq_nil_or_concat' body with rfl | ⟨init, last, rfl⟩
  · simp at hbits
  · have hprefix : bytesBits init <+: bytes.flatMap (fun b => code b.toNat) ++ a := by
      rw [bytesBits_append, ← List.append_assoc] at hbits
      refine List.prefix_of_prefix_length_le ⟨_, hbits⟩ (List.prefix_append ..) ?_
      have hlen := congrArg List.length hbits
      simp only [List.length_append, bytesBits_length, List.length_singleton] at hlen ⊢
      omega
    have hbefore : (decodeBits (bytes.flatMap (fun b => code b.toNat) ++ a) s).phase = .decoding := by
      rw [← List.append_nil a, hwalk]
      rfl
    have hopen : (decodeBits (bytesBits init) s).phase ≠ .done := fun hdone => by
      obtain ⟨rest, hrest⟩ := hprefix
      have hstays : (decodeBits (bytesBits init ++ rest) s).phase = .done := feedBits_append_done hdone rest
      rw [hrest, hbefore] at hstays
      cases hstays
    rw [execAll_decFeed last hp hinternal hopen, hbits, hwalk, List.singleton_append,
      feedBits_sentinel x pad _ (show childAt (moveTo k t) k x = 256#10 from hlast)]
    rfl

/-! ## One byte (R220, R222, R223, R224, R225) -/

/-- Having taken a bit, or begun at an internal node, the walk stands at an internal node or has reached the sentinel: from any other
leaf it goes on to the root. -/
theorem feedBits_stands {bits : List Bool} {s : State} (hroot : isLeaf s.root = false)
    (h : bits ≠ [] ∨ isLeaf s.dnode = false) :
    ((feedBits bits s).phase = s.phase ∧ isLeaf (feedBits bits s).dnode = false)
      ∨ ((feedBits bits s).phase = .done ∧ (feedBits bits s).dnode = 256#10) := by
  induction bits generalizing s with
  | nil => exact .inl ⟨rfl, h.resolve_left (absurd rfl)⟩
  | cons b bits ih =>
    cases hl : isLeaf (childAt s s.dnode b) with
    | false =>
      rw [feedBits_internal b bits s hl]
      exact ih (s := moveTo _ s) hroot (.inr hl)
    | true =>
      by_cases hend : childAt s s.dnode b = 256#10
      · rw [feedBits_sentinel b bits s hend]
        exact .inr ⟨rfl, rfl⟩
      · rw [feedBits_leaf b bits s hl hend]
        exact ih (s := emitLeaf _ s) hroot (.inr hroot)

/-- Where the walk over at least one bit ends: at an internal node, or at the sentinel. -/
theorem walkFrom_end {bits : List Bool} {s : State} (hroot : isLeaf s.root = false) (hbits : bits ≠ []) :
    isLeaf (walkFrom s s.dnode bits).2 = false ∨ (walkFrom s s.dnode bits).2 = 256#10 := by
  obtain ⟨-, hdnode, -⟩ := feedBits_walk bits s
  rw [← hdnode]
  exact (feedBits_stands hroot (.inl hbits)).imp And.right And.right

theorem decodeBits_walk (bits : List Bool) (s : State) :
    (decodeBits bits s).out = s.out ++ (walkFrom s s.dnode bits).1 ∧ (decodeBits bits s).dnode = (walkFrom s s.dnode bits).2
    ∧ (decodeBits bits s).decBytes = s.decBytes + BitVec.ofNat 32 (walkFrom s s.dnode bits).1.length := by
  rw [← walkFrom_congr (s := s) (t := { s with phase := .decoding }) rfl rfl]
  exact feedBits_walk bits { s with phase := .decoding }

/-- Everything decoding bits does: the bytes of the leaves reached are pushed and counted, and the walk's end is DNODE, in phase DONE
at the sentinel alone (R222). -/
theorem decodeBits_eq {bits : List Bool} {s : State} (hroot : isLeaf s.root = false) (hbits : bits ≠ []) :
    decodeBits bits s = { s with
      dnode := (walkFrom s s.dnode bits).2
      phase := if (walkFrom s s.dnode bits).2 = 256#10 then .done else .decoding
      out := s.out ++ (walkFrom s s.dnode bits).1
      decBytes := s.decBytes + BitVec.ofNat 32 (walkFrom s s.dnode bits).1.length } := by
  obtain ⟨hout, hdnode, hcount⟩ := decodeBits_walk bits s
  have hphase : (decodeBits bits s).phase = if (walkFrom s s.dnode bits).2 = 256#10 then .done else .decoding := by
    have hstands : ((decodeBits bits s).phase = .decoding ∧ isLeaf (decodeBits bits s).dnode = false)
        ∨ ((decodeBits bits s).phase = .done ∧ (decodeBits bits s).dnode = 256#10) :=
      feedBits_stands (s := { s with phase := .decoding }) hroot (.inl hbits)
    rw [← hdnode]
    rcases hstands with ⟨hp, hd⟩ | ⟨hp, hd⟩
    · rw [hp, if_neg (fun hend => by rw [hend] at hd; cases hd)]
    · rw [hp, if_pos hd]
  rw [← hphase, ← hout, ← hcount, ← hdnode]
  exact decoderFrame_walk bits s

/-- A walk over bits reaches at most one leaf a bit (R226). -/
theorem walkFrom_length_le (s : State) (bits : List Bool) : (walkFrom s s.dnode bits).1.length ≤ bits.length := by
  obtain ⟨hout, -, -⟩ := feedBits_walk bits s
  have hlen := feedBits_length bits s
  have hle := leavesReached_le s bits s.dnode
  rw [hout, List.length_append] at hlen
  omega

/-- Settles O55: the rule decodes the eight bits of the byte, after which the walk stands at an internal node or at the sentinel. -/
theorem decFeedCompletes : Obligations.DecFeedCompletes := by
  unfold Obligations.DecFeedCompletes
  intro s b hp hroot
  have hinternal : isLeaf s.root = false := (isLeaf_false_iff _).2 hroot
  have hbits : byteBits b ≠ [] := List.cons_ne_nil _ _
  refine ⟨(walkFrom s s.dnode (byteBits b)).1, (walkFrom s s.dnode (byteBits b)).2, rfl, ?_, walkFrom_length_le s (byteBits b), ?_⟩
  · rw [exec_eq_next, effect_decFeed_open hp hinternal, decodeBits_eq hinternal hbits]
  · rcases walkFrom_end hinternal hbits with hend | hend
    · exact Nat.le_of_succ_le ((isLeaf_false_iff _).1 hend)
    · rw [hend]
      exact Nat.le_refl 256

/-- Settles O56: DEC_FEED is legal in DONE, where its rule looks at nothing. -/
theorem decFeedAfterDone : Obligations.DecFeedAfterDone := by
  unfold Obligations.DecFeedAfterDone
  intro s b hp
  rw [exec_eq_next, effect_decFeed (by rw [hp]; rfl), feedByte, if_pos hp]

theorem firstBit_iff (b : Byte) : b.getLsbD 7 = true ↔ 128 ≤ b.toNat := by
  have := b.isLt
  rw [BitVec.getLsbD, Nat.testBit_eq_decide_div_mod_eq, decide_eq_true_iff]
  omega

/-- Settles O57: the rule looks at the first bit alone. -/
theorem decFeedDegenerate : Obligations.DecFeedDegenerate := by
  unfold Obligations.DecFeedDegenerate
  intro s b hp hroot
  obtain ⟨hlegal, hdone⟩ := phase_of_decoder_open (hp.imp_right .inl)
  have hleaf : isLeaf s.root = true := by rw [hroot]; rfl
  rw [exec_eq_next, effect_decFeed hlegal, feedByte, if_neg hdone, if_pos hleaf, feedDegenerate]
  refine ⟨fun hfirst => ?_, fun hfirst => ?_⟩
  · rw [if_neg (mt (firstBit_iff b).1 (Nat.not_le.2 hfirst))]
  · rw [if_pos ((firstBit_iff b).2 hfirst), raise]

/-- Settles O58: the rule looks at the phase alone. -/
theorem decEoiChecksTheEnd : Obligations.DecEoiChecksTheEnd := by
  unfold Obligations.DecEoiChecksTheEnd
  intro s
  refine ⟨fun hp => ?_, fun hp => ?_⟩
  · rw [exec_eq_next, effect_decEoi (by rw [hp]; rfl), endOfInput, if_pos hp]
  · obtain ⟨hlegal, hdone⟩ := phase_of_decoder_open hp
    rw [exec_eq_next, effect_decEoi hlegal, endOfInput, if_neg hdone, raise]
    rfl

/-! ## Equal tables give equal codes (R164, R181) -/

theorem exec_buildTree_legal {s : State} (hp : s.phase = .freq) (hhdr : s.hdrCnt.toNat = 0 ∨ s.hdrCnt.toNat = 257)
    (hs : freqAt s 256 ≠ 0#32) : exec .buildTree s = .next (plantTree s) := by
  rw [exec_eq_next, effect_buildTree hp, buildTree_legal hhdr hs]

theorem plantTree_phase {s : State} (hs : freqAt s 256 ≠ 0#32) : (plantTree s).phase = .tree := by
  obtain ⟨e, -, hplant⟩ := plantTree_eq hs
  rw [hplant]

/-- Planting the tree leaves FREQ, the writer, TRAILING and the bytes pushed, and DNODE stands at the root (R161). -/
theorem plantTree_frame {s : State} (hs : freqAt s 256 ≠ 0#32) :
    (plantTree s).freq = s.freq ∧ (plantTree s).wbuf = s.wbuf ∧ (plantTree s).wcnt = s.wcnt
    ∧ (plantTree s).trailing = s.trailing ∧ (plantTree s).out = s.out ∧ (plantTree s).popped = s.popped
    ∧ (plantTree s).dnode = (plantTree s).root := by
  obtain ⟨e, -, hplant⟩ := plantTree_eq hs
  simp [hplant]

/-- The code table reads ROOT and the nodes present only. -/
theorem codeTable_of_agreesOn {s t : State} (h : TreeOk s) (hroot : t.root = s.root) (ha : AgreesOn t.node s) :
    codeTable t = codeTable s := by
  rw [← codeTable_withNode h ha]
  rw [codeTable, codeTable, hroot]
  rfl

/-- What the codes of the tree built from a table are depends on the table alone. -/
theorem messageBits_of_freq_eq {s t : State} (hf : s.freq = t.freq) (hp : s.phase = .freq) (hp' : t.phase = .freq)
    (hhdr : s.hdrCnt.toNat = 0 ∨ s.hdrCnt.toNat = 257) (hhdr' : t.hdrCnt.toNat = 0 ∨ t.hdrCnt.toNat = 257)
    (hs : freqAt s 256 ≠ 0#32) (bytes : List Byte) :
    messageBits (genCodes (plantTree t)) bytes = messageBits (genCodes (plantTree s)) bytes := by
  have hs' : freqAt t 256 ≠ 0#32 := by rwa [freqAt_congr hf.symm]
  obtain ⟨hroot, -, hnodes⟩ := buildTreeDeterministic s t _ _ hf hp hp' (exec_buildTree_legal hp hhdr hs)
    (exec_buildTree_legal hp' hhdr' hs') (plantTree_phase hs) (plantTree_phase hs')
  have htable : codeTable (plantTree t) = codeTable (plantTree s) := by
    refine codeTable_of_agreesOn (plantTree_treeOk hs) hroot.symm fun n hn => ?_
    obtain ⟨hge, hle⟩ := mem_internalIds.1 hn
    exact (hnodes n hge hle).symm
  simp only [messageBits, codeOfSym_genCodes, htable]

/-! ## The round trip (R227) -/

theorem execAll_append {is js : List Instr} {s t : State} (h : execAll is s = .next t) :
    execAll (is ++ js) s = execAll js t := by
  induction is generalizing s with
  | nil =>
    obtain rfl : s = t := by simpa [execAll] using h
    rfl
  | cons i is ih =>
    rw [execAll_cons] at h
    rw [List.cons_append, execAll_cons, ih h]

/-- GEN_CODES and the encoding of bytes of the tree give their message, padded to whole bytes (R181, R206). -/
theorem execAll_genCodes_encode {s : State} {bytes : List Byte} (htree : TreeOk s) (hp : s.phase = .tree) (hwbuf : s.wbuf = 0#7)
    (hwcnt : s.wcnt = 0#3) (hout : s.out = []) (hbytes : ∀ b ∈ bytes, freqAt s b.toNat ≠ 0#32) :
    ∃ e pad, execAll (.genCodes :: (bytes.map (fun b => .encByte b) ++ [.encEnd])) s = .next e ∧ e.phase = .closed
    ∧ e.freq = s.freq ∧ e.popped = s.popped
    ∧ bytesBits e.out = messageBits (genCodes s) bytes ++ pad ∧ pad.length < 8 := by
  have hcodes : CodesOk (genCodes s) := genCodes_codesOk htree
  have hbyte : ∀ b ∈ bytes, codeOfSym (genCodes s) b.toNat ≠ [] := fun b hb =>
    hcodes.code_ne_nil (by have := b.isLt; omega) (hbytes b hb)
  have hsentinel : codeOfSym (genCodes s) 256 ≠ [] := hcodes.code_ne_nil (Nat.le_refl _) htree.sentinel
  obtain ⟨e, pad, hexec, hclosed, -, hbits, hpad, -, -, hpopped⟩ := encodedBody bytes (genCodes s) rfl hwcnt hwbuf hbyte hsentinel
  have hfreq : e.freq = s.freq := by
    rw [execAll_encode bytes (genCodes s) (.inl rfl) hbyte hsentinel] at hexec
    cases hexec
    exact (closeWriter_freq _).trans (emitBits_freq _ (genCodes s))
  refine ⟨e, pad, ?_, hclosed, hfreq, hpopped, ?_, hpad⟩
  · rw [execAll_cons, effect_genCodes hp, hexec]
  · have hnil : (genCodes s).out = [] := hout
    rw [hbits, hnil, bytesBits_nil, List.nil_append]

/-- The encoder's half: from a counted table it builds the tree, generates the codes and encodes the bytes (R273). -/
theorem encode_half {s : State} {bytes : List Byte} (hp : s.phase = .freq) (hhdr : s.hdrCnt.toNat = 0 ∨ s.hdrCnt.toNat = 257)
    (hs : freqAt s 256 ≠ 0#32) (hwbuf : s.wbuf = 0#7) (hwcnt : s.wcnt = 0#3) (hout : s.out = [])
    (hbytes : ∀ b ∈ bytes, freqAt s b.toNat ≠ 0#32) :
    ∃ e pad, execAll (.buildTree :: .genCodes :: (bytes.map (fun b => .encByte b) ++ [.encEnd])) s = .next e
    ∧ e.phase = .closed ∧ e.freq = s.freq ∧ e.popped = s.popped
    ∧ bytesBits e.out = messageBits (genCodes (plantTree s)) bytes ++ pad ∧ pad.length < 8 := by
  obtain ⟨hfreq, hwbuf', hwcnt', -, hout', hpopped, -⟩ := plantTree_frame hs
  rw [execAll_cons, effect_buildTree hp, buildTree_legal hhdr hs, ← hfreq, ← hpopped]
  exact execAll_genCodes_encode (plantTree_treeOk hs) (plantTree_phase hs) (hwbuf'.trans hwbuf) (hwcnt'.trans hwcnt)
    (hout'.trans hout) (by simpa only [freqAt_congr hfreq] using hbytes)

/-- Feeding a body encoded with the codes of the tree emits the bytes and ends at the sentinel. In the degenerate tree there are no
bytes, and the body is one byte whose first bit is the sentinel's code 0 (R224). -/
theorem execAll_decFeed_message {s : State} {bytes body : List Byte} {pad : List Bool} (htree : TreeOk s) (hp : s.phase = .tree)
    (hd : s.dnode = s.root) (hbytes : ∀ b ∈ bytes, freqAt s b.toNat ≠ 0#32)
    (hbits : bytesBits body = messageBits (genCodes s) bytes ++ pad) (hpad : pad.length < 8) :
    ∃ d, execAll (body.map fun b => .decFeed b) s = .next d ∧ d.phase = .done ∧ d.out = s.out ++ bytes
    ∧ d.trailing = s.trailing ∧ d.popped = s.popped := by
  have hcodes : CodesOk (genCodes s) := genCodes_codesOk htree
  have hsymbol (b : Byte) : b.toNat ≤ 256 := by have := b.isLt; omega
  cases hl : isLeaf s.root with
  | false =>
    have hpath {n : Nat} (hn : n ≤ 256) (hf : freqAt s n ≠ 0#32) :
        leadsTo s s.root (codeOfSym (genCodes s) n) (BitVec.ofNat 10 n) = true :=
      leadsTo_of_node_eq (hcodes.path hl hn hf) rfl
    exact ⟨_, decodedBody s (codeOfSym (genCodes s)) bytes body pad (.inl hp) ((isLeaf_false_iff _).1 hl) hd
      (fun b hb => hpath (hsymbol b) (hbytes b hb)) (hpath (Nat.le_refl _) htree.sentinel) hpad hbits, rfl, rfl, rfl, rfl⟩
  | true =>
    have hnone : bytes = [] := List.eq_nil_iff_forall_not_mem.2 fun b hb => by
      have hroot := htree.symbol_of_leaf_root hl (hsymbol b) (hbytes b hb)
      rw [htree.root_of_leaf hl] at hroot
      have := symbolId_inj (Nat.le_refl 256) (hsymbol b) hroot
      have := b.isLt
      omega
    subst hnone
    have hmessage : messageBits (genCodes s) [] = [false] := hcodes.code_of_leaf_root hl (Nat.le_refl _) htree.sentinel
    rw [hmessage] at hbits
    have hlen := congrArg List.length hbits
    rw [bytesBits_length, List.length_append, List.length_singleton] at hlen
    obtain ⟨b, rfl⟩ := List.length_eq_one_iff.1 (show body.length = 1 by omega)
    rw [bytesBits_singleton] at hbits
    have hfirst : b.getLsbD 7 = false := (List.cons.inj hbits).1
    have hlow : b.toNat < 128 := Nat.not_le.1 (mt (firstBit_iff b).2 (Bool.eq_false_iff.1 hfirst))
    obtain ⟨hstop, -⟩ := decFeedDegenerate s b (.inl hp) (htree.root_of_leaf hl)
    refine ⟨{ s with phase := .done }, ?_, rfl, (List.append_nil _).symm, rfl, rfl⟩
    rw [List.map_singleton, execAll_cons, exec_next_iff.1 (hstop hlow), execAll]

/-- The decoder's half: from a loaded table it builds the tree and decodes the body, which ends within its last byte (R274). -/
theorem decode_half {s : State} {bytes body : List Byte} {pad : List Bool} (hp : s.phase = .freq)
    (hhdr : s.hdrCnt.toNat = 0 ∨ s.hdrCnt.toNat = 257) (hs : freqAt s 256 ≠ 0#32)
    (hbytes : ∀ b ∈ bytes, freqAt s b.toNat ≠ 0#32) (hout : s.out = [])
    (hbits : bytesBits body = messageBits (genCodes (plantTree s)) bytes ++ pad) (hpad : pad.length < 8) :
    ∃ d, execAll (.buildTree :: (body.map (fun b => .decFeed b) ++ [.decEoi])) s = .next d ∧ d.phase = .done ∧ d.out = bytes
    ∧ d.trailing = s.trailing ∧ d.popped = s.popped := by
  obtain ⟨hfreq, -, -, htrailing, hout', hpopped, hdnode⟩ := plantTree_frame hs
  obtain ⟨d, hexec, hdone, hbytes', htrailing', hpopped'⟩ := execAll_decFeed_message (plantTree_treeOk hs) (plantTree_phase hs)
    hdnode (by simpa only [freqAt_congr hfreq] using hbytes) hbits hpad
  rw [hout', hout, List.nil_append] at hbytes'
  refine ⟨d, ?_, hdone, hbytes', htrailing'.trans htrailing, hpopped'.trans hpopped⟩
  rw [execAll_cons, effect_buildTree hp, buildTree_legal hhdr hs, execAll_append hexec, execAll_cons,
    exec_next_iff.1 ((decEoiChecksTheEnd d).1 hdone), execAll]

/-- Clearing the block and counting bytes gives their table, the sentinel's entry 1 (R131, R140). -/
theorem execAll_clr_count {s : State} {bytes : List Byte} (hcfg : s.cfg.ok = true)
    (hcounts : ∀ b : Byte, bytes.count b ≤ s.cfg.freqMax) :
    ∃ freq, execAll (.clr :: bytes.map (fun b => .count b)) s = .next { clear s with freq := freq }
    ∧ (∀ b : Byte, (freqAt { clear s with freq := freq } b.toNat).toNat = bytes.count b)
    ∧ freqAt { clear s with freq := freq } 256 = 1#32 := by
  have hempty := freqAt_empty (clear s) rfl
  have hzero (b : Byte) : (freqAt (clear s) b.toNat).toNat = 0 := by
    rw [hempty, if_neg (by have := b.isLt; omega)]
    rfl
  obtain ⟨freq, hexec, hfreq, hsentinel⟩ := countsAccumulate bytes (clear s) rfl hcfg fun b => by
    rw [hzero, Nat.zero_add]
    exact hcounts b
  refine ⟨freq, ?_, fun b => by rw [hfreq, hzero, Nat.zero_add], hsentinel.trans (hempty 256)⟩
  rw [execAll_cons, effect_clr, hexec]

/-- Every entry of the table of counted bytes fits where their counts do (R40, R227). -/
theorem freqAt_le_of_counts {s : State} {bytes : List Byte} {c : Config} (hcfg : c.ok = true)
    (hfreq : ∀ b : Byte, (freqAt s b.toNat).toNat = bytes.count b) (hsentinel : freqAt s 256 = 1#32)
    (hcounts : ∀ b : Byte, bytes.count b ≤ c.freqMax) {n : Nat} (hn : n ≤ 256) : (freqAt s n).toNat ≤ c.freqMax := by
  by_cases hlast : n = 256
  · rw [hlast, hsentinel]
    exact one_le_freqMax c hcfg
  · have hbyte : (BitVec.ofNat 8 n).toNat = n := by rw [BitVec.toNat_ofNat]; omega
    rw [← hbyte, hfreq]
    exact hcounts _

/-- Settles O60: the decoder builds the encoder's tree, for the header carries the table over, so the codes of the body are the paths
that the decoder walks. -/
theorem decodeUndoesEncodeOfBytes : Obligations.DecodeUndoesEncodeOfBytes := by
  unfold Obligations.DecodeUndoesEncodeOfBytes
  intro bytes s u hcfg hcfgu hcounts
  obtain ⟨freq, hcount, hfreq, hsentinel⟩ := execAll_clr_count hcfg hcounts
  let k : State := { clear s with freq := freq }
  have hs : freqAt k 256 ≠ 0#32 := by rw [hsentinel]; decide
  have hbytes : ∀ b ∈ bytes, freqAt k b.toNat ≠ 0#32 := fun b hb hzero => by
    have hcnt := hfreq b
    rw [hzero] at hcnt
    exact Nat.ne_of_lt (List.count_pos_iff.2 hb) hcnt
  obtain ⟨e, pad, hencode, hclosed, hefreq, hepopped, hbits, hpad⟩ := encode_half (s := k) rfl (.inl rfl) hs rfl rfl rfl hbytes
  have hfits : ∀ n ≤ 256, (freqAt e n).toNat ≤ (clear u).cfg.freqMax := fun n hn => by
    rw [clear_cfg, hcfgu, freqAt_congr hefreq]
    exact freqAt_le_of_counts hcfg hfreq hsentinel hcounts hn
  obtain ⟨arg, hload⟩ := headerRoundTrip e (clear u) hfits rfl rfl
  let h : State := { clear u with freq := e.freq, hdrCnt := 257#9, arg := arg }
  have hmessage : messageBits (genCodes (plantTree h)) bytes = messageBits (genCodes (plantTree k)) bytes :=
    messageBits_of_freq_eq (t := h) hefreq.symm rfl rfl (.inl rfl) (.inr rfl) hs bytes
  have hfreq' (n : Nat) : freqAt h n = freqAt k n := freqAt_congr hefreq n
  obtain ⟨d, hdecode, hdone, hout, htrailing, hdpopped⟩ := decode_half (s := h) rfl (.inr rfl) (by rwa [hfreq'])
    (by simpa only [hfreq'] using hbytes) rfl (hmessage ▸ hbits) hpad
  refine ⟨e, ?_, hclosed, clear u, exec_eq_next .clr u, h, hload, d, hdecode, hdone, hout, htrailing, hepopped, hdpopped⟩
  rw [List.append_assoc, List.append_assoc]
  exact (execAll_append hcount).trans hencode

end Sys2Proof.Machine
end

section
/-! PROOFS. The exceptions family: phase ERROR ignores every word but that of CLR (O8) and only CLR or the reset leaves it (O9), errors
are precise (O27), and the level of irq (O21). -/

namespace Sys2Proof.Machine

open Sys2Proof

/-! ## Phase ERROR (R247) -/

/-- The engine executes any pending word at once when no input can move: in phase ERROR no word pushes a byte (R82, R247). -/
theorem step_in_error {s : State} {w : Word} (hp : s.phase = .error) (hw : s.pend = some w)
    (hroom : s.out.length ≤ s.cfg.outDepth) (hh : hostReady s = false) : step s = execute w { s with pend := none } := by
  have he : engineReady s = true := by rwa [engineReady_iff hw, need_in_error hp]
  rw [step_engine he hh, engineStep_pending hw]

theorem wordEffect_in_error (s : State) {w : Word} (hp : s.phase = .error) (hw : w ≠ encode .clr) : wordEffect w s = s := by
  rw [wordEffect, if_pos hp, if_neg hw]

theorem effect_in_error {s : State} {i : Instr} (hp : s.phase = .error) (hi : i ≠ .clr) : effect i s = s := by
  rw [effect_eq_command hi, command_in_error hp]

/-- CLR's word as R247 writes it. -/
theorem encode_clr : encode .clr = 0x01000000#32 := rfl

/-- Settles O8: the step executes the word, and behind the check of phase ERROR only CLR, by its word, has an effect. -/
theorem errorPhaseIgnoresCommands : Obligations.ErrorPhaseIgnoresCommands := by
  unfold Obligations.ErrorPhaseIgnoresCommands
  refine ⟨fun s w hp hw hroom hh hclr => ?_, fun s i hp hi => ?_, fun s hp hw hroom hh => ?_⟩
  · rw [step_in_error hp hw hroom hh, execute_eq_next, wordEffect_in_error { s with pend := none } hp hclr]
  · rw [exec_eq_next, effect_in_error hp hi]
  · rw [step_in_error hp hw hroom hh, execute_eq_next, ← encode_clr, wordEffect_clr, exec_eq_next, effect_clr]

/-! ## Leaving phase ERROR (R248) -/

/-- The phase and the error recorded are unchanged. -/
structure SameError (s t : State) : Prop where
  phase : t.phase = s.phase
  errKind : t.errKind = s.errKind
  prevPhase : t.prevPhase = s.prevPhase
  errCmd : t.errCmd = s.errCmd

theorem sameError_busRead (off : Offset) (s : State) : SameError s (busRead off s) := by
  unfold busRead
  split
  · exact ⟨popOut_phase s, popOut_errKind s, popOut_prevPhase s, popOut_errCmd s⟩
  · exact ⟨rfl, rfl, rfl, rfl⟩

theorem sameError_applyInput {i : Input} (hi : i ≠ .reset) (s : State) : SameError s (applyInput i s) := by
  cases i with
  | read off => exact { sameError_busRead off s with }
  | write off v =>
    rw [applyInput, busWrite_eq]
    exact ⟨rfl, rfl, rfl, rfl⟩
  | popAll => exact { sameError_busRead _ s with }
  | reset => exact absurd rfl hi

/-- Of the outside world's steps only the reset touches the phase and the error recorded (R247, R270). -/
theorem hostStep_error (s : State) : SameError s (hostStep s)
    ∨ ∃ rest, s.inputs = .reset :: rest ∧ hostStep s = { hardReset s with inputs := rest } := by
  cases hin : s.inputs with
  | nil =>
    simp only [hostStep, hin]
    exact .inl ⟨rfl, rfl, rfl, rfl⟩
  | cons i rest =>
    rw [hostStep_cons hin]
    by_cases hi : i = .reset
    · subst hi
      exact .inr ⟨rest, rfl, rfl⟩
    · exact .inl { sameError_applyInput hi s with }

/-- A draw of the free order, or none, touches the count of draws alone (X9). -/
theorem exists_freeCount {s u : State} (hu : u = s ∨ u = { s with freeCount := s.freeCount + 1 }) :
    ∃ n, u = { s with freeCount := n } := hu.elim (⟨s.freeCount, ·⟩) (⟨_, ·⟩)

/-- Settles O9: the engine's step is CLR or has no effect, the outside world's is the reset or leaves the error, and waiting changes
nothing. -/
theorem onlyClrOrResetLeavesError : Obligations.OnlyClrOrResetLeavesError := by
  unfold Obligations.OnlyClrOrResetLeavesError
  intro s t hp hstep
  rcases step_cases hstep with ⟨w, u, hw, -, hu, rfl⟩ | ⟨u, -, hu, rfl⟩ | ⟨-, -, -, rfl⟩
  · obtain ⟨n, rfl⟩ := exists_freeCount hu
    by_cases hclr : w = encode .clr
    · subst hclr
      rw [wordEffect_clr]
      exact .inr ⟨.inl hw, rfl, rfl, rfl, rfl⟩
    · rw [wordEffect_in_error { s with pend := none, freeCount := n } hp hclr]
      exact .inl ⟨hp, rfl, rfl, rfl⟩
  · obtain ⟨n, rfl⟩ := exists_freeCount hu
    rcases hostStep_error { s with freeCount := n } with h | ⟨rest, hreset, h⟩
    · exact .inl ⟨h.phase.trans hp, h.errKind, h.prevPhase, h.errCmd⟩
    · rw [h]
      exact .inr ⟨.inr ⟨rest, hreset⟩, rfl, rfl, rfl, rfl⟩
  · exact .inl ⟨hp, rfl, rfl, rfl⟩

/-! ## Error entry (R245) -/

/-- COUNT raises FREQ_OVERFLOW, or counts (R141). -/
theorem countByte_cases (b : Byte) (s : State) : countByte b s = raise .freqOverflow (encode (.count b)) s
    ∨ countByte b s = setFreq b.toNat (freqAt s b.toNat + 1#32) s := ite_eq_or_eq ..

/-- LOAD_FREQ raises HEADER_CORRUPT, or loads ARG (R142). -/
theorem loadHeader_cases (s : State) : loadHeader s = raise .headerCorrupt (encode .loadFreq) s
    ∨ loadHeader s = { setFreq s.hdrCnt.toNat s.arg s with hdrCnt := s.hdrCnt + 1#9 } := by
  unfold loadHeader
  split
  · exact .inl rfl
  · exact ite_eq_or_eq ..

/-- A rule that raises or else ends outside phase ERROR has raised when it ends there. -/
theorem raises_of_cases {e : ErrKind} {w : Word} {s t u : State} (hcases : t = raise e w s ∨ t = u) (hne : e ≠ .none)
    (hu : u.phase ≠ .error) (ht : t.phase = .error) : ∃ e, e ≠ .none ∧ t = raise e w s :=
  ⟨e, hne, hcases.resolve_right fun h => hu (h ▸ ht)⟩

/-- DEC_FEED raises INVALID_CODE, or ends outside phase ERROR (R222, R223, R224). -/
theorem feedByte_raises {b : Byte} {s : State} (hp : s.phase ≠ .error) (he : (feedByte b s).phase = .error) :
    feedByte b s = raise .invalidCode (encode (.decFeed b)) s := by
  rcases feedByte_cases b s with ⟨-, h⟩ | ⟨-, -, h | h⟩ | ⟨-, -, h⟩
  · rw [h] at he
    exact absurd he hp
  · exact h
  · rw [h] at he
    cases he
  · rw [h] at he
    rcases feedBits_phase (byteBits b) { s with phase := .decoding } with hend | hend <;> cases hend.symm.trans he

/-- A command's own rule enters phase ERROR by the error entry alone, with the command's own word (R241, R245). -/
theorem rule_raises {i : Instr} {s : State} (hp : s.phase ≠ .error) (he : (rule i s).phase = .error) :
    ∃ e, e ≠ .none ∧ rule i s = raise e (encode i) s := by
  cases i with
  | nop | readFreq _ | readNode _ _ | readCodeLen _ | readCodeWord _ _ => exact absurd he hp
  | clr | genCodes => cases he
  | count b => exact raises_of_cases (countByte_cases b s) nofun hp he
  | loadFreq => exact raises_of_cases (loadHeader_cases s) nofun hp he
  | buildTree =>
    rcases buildTree_cases s with h | ⟨hs, h⟩
    · exact ⟨.headerCorrupt, nofun, h⟩
    · rw [rule, h, plantTree_phase hs] at he
      cases he
  | encByte b => exact raises_of_cases (encodeByte_cases b s) nofun nofun he
  | encEnd => exact raises_of_cases (encodeEnd_cases s) nofun nofun he
  | decFeed b => exact ⟨.invalidCode, nofun, feedByte_raises hp he⟩
  | decEoi => exact raises_of_cases (endOfInput_cases s).symm nofun hp he

/-- Settles O27: a command in phase ERROR has no effect, the check order raises with the command's word, and so does the command's own
rule when it ends in phase ERROR. -/
theorem errorsArePrecise : Obligations.ErrorsArePrecise := by
  unfold Obligations.ErrorsArePrecise
  intro i s t hexec herr
  rw [exec_next_iff] at hexec
  subst hexec
  rcases effect_cases i s with ⟨hp, -, h⟩ | ⟨-, h⟩ | ⟨hp, -, e, hne, h⟩ | ⟨hp, -, -, h⟩ <;> rw [h] at herr ⊢
  · exact .inl ⟨hp, rfl⟩
  · cases herr
  · exact .inr ⟨hp, e, hne, rfl⟩
  · exact .inr ⟨hp, rule_raises hp herr⟩

/-! ## The interrupt output (R250) -/

/-- STATUS.IRQ is bit 9 (R28). -/
theorem statusWord_irq (s : State) : (statusWord s).getLsbD 9 = irq s := by
  simp only [statusWord, BitVec.getLsbD_append]
  simp

/-- The three terms of irq (R250). -/
theorem irq_iff (s : State) : irq s = true ↔
    (s.irqEn.getLsbD 0 = true ∧ s.phase = .error)
    ∨ (s.irqEn.getLsbD 1 = true ∧ (s.phase = .closed ∨ s.phase = .done))
    ∨ (s.irqEn.getLsbD 2 = true ∧ 0 < s.out.length) := by
  simp only [irq, errIe, endIe, outIe, errFlag, endFlag, outNonempty, Bool.or_eq_true, Bool.and_eq_true,
    decide_eq_true_eq, or_assoc]

/-- Settles O21: bit 9 of STATUS is irq, the disjunction of its three terms. -/
theorem irqLevel : Obligations.IrqLevel := by
  unfold Obligations.IrqLevel
  intro s off hoff
  rw [busWord_eq .status hoff, regWord, statusWord_irq, irq_iff]

end Sys2Proof.Machine
end

section
/-! PROOFS. The reset family: the machine stops in the hang and nowhere else (O13), and the reset step (O23). -/

namespace Sys2Proof.Machine

open Sys2Proof

/-! ## The hang (R281, X7) -/

/-- While a command is pending, what is held is a bus access other than a read of OUT_DATA (R73). -/
theorem inputEnabled_some_eq_false (i : Input) (w : Word) : inputEnabled i (some w) = false ↔
    (∃ off : Offset, i = .read off ∧ off.toNat / 4 ≠ 12) ∨ ∃ off v, i = .write off v := by
  rw [← Bool.not_eq_true, inputEnabled_some]
  cases i <;> simp

theorem step_hang {s : State} (he : engineReady s = false) (hh : hostReady s = false) (hg : hung s = true) :
    step s = .fault .hang := by
  simp [step, anyStep, he, hh, hg]

theorem engineReady_eq_false_iff {s : State} {w : Word} (hw : s.pend = some w) :
    engineReady s = false ↔ s.cfg.outDepth < s.out.length + need w s := by
  rw [← Bool.not_eq_true, engineReady_iff hw, Nat.not_le]

/-- Settles O13: a step that gives no next state has neither agent ready, with a command pending and an input left; and then the
step is the hang. -/
theorem onlyTheHangStops : Obligations.OnlyTheHangStops := by
  unfold Obligations.OnlyTheHangStops
  refine ⟨fun s => ?_, fun s w i rest hw hfull hi hheld => ?_⟩
  · by_cases hnext : ∃ t, step s = .next t
    · exact .inl hnext
    · obtain ⟨hstop, he, hh, hpend, hinputs⟩ := step_stops (not_exists.1 hnext)
      obtain ⟨w, hw⟩ := Option.ne_none_iff_exists'.1 hpend
      obtain ⟨i, rest, hi⟩ := List.exists_cons_of_ne_nil hinputs
      rw [hostReady_cons hi, hw, inputEnabled_some_eq_false] at hh
      exact .inr ⟨hstop, w, i, rest, hw, (engineReady_eq_false_iff hw).1 he, hi, hh⟩
  · have hh : hostReady s = false := by
      rwa [hostReady_cons hi, hw, inputEnabled_some_eq_false]
    exact step_hang ((engineReady_eq_false_iff hw).2 hfull) hh (by simp [hung, hw, hi])

/-! ## The reset step (R270) -/

/-- The outside world's step at the reset input is the hardware reset (R270). -/
theorem hostStep_reset {s : State} {rest : List Input} (hi : s.inputs = .reset :: rest) :
    hostStep s = { hardReset s with inputs := rest } :=
  hostStep_cons hi

/-- Settles O23: the reset input is never held, so the step is the reset when the engine cannot move, and a race of the two when a
pending command fits. -/
theorem hardwareReset : Obligations.HardwareReset := by
  unfold Obligations.HardwareReset
  intro s rest hi
  have hh : hostReady s = true := hostReady_cons hi
  refine ⟨fun he => ?_, fun w hw hroom => ?_⟩
  · rw [step_host he hh, hostStep_reset hi]
    exact ⟨_, _, rfl⟩
  · rw [step_race ((engineReady_iff hw).2 hroom) hh]
    rcases race_cases hw with h | h <;> rw [h]
    · exact .inl rfl
    · rw [hostStep_reset (s := { s with freeCount := s.freeCount + 1 }) hi]
      exact .inr ⟨_, _, rfl⟩

end Sys2Proof.Machine
end
